-- ==== Sys2Proof/Word.lean ====
section
/-! DEFINITION. The widths of the ILT's data: bytes, 64-bit lengths, 32-bit command words, names (00_scope.md R10, R15, R17). -/

namespace Sys2Proof

/-- R10: a byte is 8 bits. -/
abbrev Byte := BitVec 8

/-- R15: every length, budget, index and size value is an unsigned number of LENW = 64 bits. -/
abbrev Len := BitVec 64

/-- R80: a command is one 32-bit word. -/
abbrev CmdWord := BitVec 32

/-- R17: a name is a byte sequence holding characters. -/
abbrev Name := List Byte

end Sys2Proof
end

