-- ==== Sys2Proof/Syntax.lean ====
section
/-! DEFINITION. The eleven operations of the opcode map (30_encoding.md R90), one constructor per row of spec/opcode_table.json, and this spec's assembly text for them (R102). -/

namespace Sys2Proof

/-- The operations with the fields they use (R89): `le` is `LE`, `lim` is `LIM`, `dup` is `DUP`, `n` is `FRAGCOUNT`. -/
inductive Instr where
  | dec16 (le lim : Bool)
  | dec32 (le lim : Bool)
  | dec8 (le lim : Bool)
  | enc16 (le dup : Bool)
  | enc32 (le dup : Bool)
  | enc8 (le dup : Bool)
  | splitDec16 (le : Bool) (n : BitVec 8)
  | splitDec32 (le : Bool) (n : BitVec 8)
  | splitDec8 (le : Bool) (n : BitVec 8)
  | fname
  | chunk
  deriving DecidableEq, Repr

/-- The row of spec/opcode_table.json an instruction belongs to. -/
def Instr.mnemonic : Instr → String
  | .dec16 _ _ => "DEC16"
  | .dec32 _ _ => "DEC32"
  | .dec8 _ _ => "DEC8"
  | .enc16 _ _ => "ENC16"
  | .enc32 _ _ => "ENC32"
  | .enc8 _ _ => "ENC8"
  | .splitDec16 _ _ => "SPLITDEC16"
  | .splitDec32 _ _ => "SPLITDEC32"
  | .splitDec8 _ _ => "SPLITDEC8"
  | .fname => "FNAME"
  | .chunk => "CHUNK"

/-- R102: a suffix stands for a field that is 1; an absent suffix is the field value 0. -/
def suffixIf (b : Bool) (suffix : String) : String := if b then suffix else ""

/-- R102: `MNEMONIC[.LE][.DUP][.LIM] [n=<FRAGCOUNT>]`. -/
def Instr.asm (i : Instr) : String :=
  match i with
  | .dec16 le lim | .dec32 le lim | .dec8 le lim => i.mnemonic ++ suffixIf le ".LE" ++ suffixIf lim ".LIM"
  | .enc16 le dup | .enc32 le dup | .enc8 le dup => i.mnemonic ++ suffixIf le ".LE" ++ suffixIf dup ".DUP"
  | .splitDec16 le n | .splitDec32 le n | .splitDec8 le n =>
      i.mnemonic ++ suffixIf le ".LE" ++ " n=" ++ toString n.toNat
  | .fname | .chunk => i.mnemonic

end Sys2Proof
end

