-- ==== Sys2Proof/WellFormed.lean ====
section
/-! DEFINITION. Well-formed instructions (30_encoding.md R88): the one check is that a `SPLITDEC` has a `FRAGCOUNT` other than 0. -/

namespace Sys2Proof

/-- R88: `FRAGCOUNT` 0 is illegal in a `SPLITDEC`; every other field value of R89 is legal. -/
def Instr.wf : Instr → Bool
  | .dec16 _ _ | .dec32 _ _ | .dec8 _ _ => true
  | .enc16 _ _ | .enc32 _ _ | .enc8 _ _ => true
  | .splitDec16 _ n | .splitDec32 _ n | .splitDec8 _ n => n != 0
  | .fname | .chunk => true

end Sys2Proof
end

