-- ==== Sys2Proof/Decode.lean ====
section
/-! DEFINITION. Decoding of a command word, total on all 2^32 words (30_encoding.md R95), with a name for every rejection; the encoder; the opcode map as rows of mask and match (R90). -/

namespace Sys2Proof

/-! The fields of format C (R87). -/

/-- R81: `OPC` = `CMD[3:0]`. -/
def fieldOpc (c : CmdWord) : BitVec 4 := c.extractLsb' 0 4
/-- R82: `MODE` = `CMD[5:4]`. -/
def fieldMode (c : CmdWord) : BitVec 2 := c.extractLsb' 4 2
/-- R83: `LE` = `CMD[6]`. -/
def fieldLe (c : CmdWord) : Bool := c.getLsbD 6
/-- R84: `DUP` = `CMD[7]`. -/
def fieldDup (c : CmdWord) : Bool := c.getLsbD 7
/-- R85: `LIM` = `CMD[8]`. -/
def fieldLim (c : CmdWord) : Bool := c.getLsbD 8
/-- R86: `CMD[15:9]`, reserved. -/
def fieldRsv0 (c : CmdWord) : BitVec 7 := c.extractLsb' 9 7
/-- R88: `FRAGCOUNT` = `CMD[23:16]`. -/
def fieldFragcount (c : CmdWord) : BitVec 8 := c.extractLsb' 16 8
/-- R86: `CMD[31:24]`, reserved. -/
def fieldRsv1 (c : CmdWord) : BitVec 8 := c.extractLsb' 24 8

/-- Why R95 calls a word illegal (the rows V84 to V96 of 95_test_vectors.md name the same causes). -/
inductive Illegal where
  /-- R86: a bit of `CMD[31:24]` or `CMD[15:9]` is set. -/
  | reservedBits
  /-- R81: `OPC` is 0 or 6 to 15. -/
  | reservedOpc
  /-- R82: `MODE` is 3. -/
  | reservedMode
  /-- R89: a field the operation does not use is not 0. -/
  | unusedField
  /-- R88: `FRAGCOUNT` is 0 in a `SPLITDEC`. -/
  | zeroFragcount
  deriving DecidableEq, Repr

/-- R95 (4): `OPC` 1. -/
def decodeDec (c : CmdWord) : Except Illegal Instr :=
  if fieldMode c = 3 then .error .reservedMode
  else if fieldDup c || fieldFragcount c != 0 then .error .unusedField
  else if fieldMode c = 0 then .ok (.dec16 (fieldLe c) (fieldLim c))
  else if fieldMode c = 1 then .ok (.dec32 (fieldLe c) (fieldLim c))
  else .ok (.dec8 (fieldLe c) (fieldLim c))

/-- R95 (5): `OPC` 2. -/
def decodeEnc (c : CmdWord) : Except Illegal Instr :=
  if fieldMode c = 3 then .error .reservedMode
  else if fieldLim c || fieldFragcount c != 0 then .error .unusedField
  else if fieldMode c = 0 then .ok (.enc16 (fieldLe c) (fieldDup c))
  else if fieldMode c = 1 then .ok (.enc32 (fieldLe c) (fieldDup c))
  else .ok (.enc8 (fieldLe c) (fieldDup c))

/-- R95 (6): `OPC` 3. -/
def decodeSplit (c : CmdWord) : Except Illegal Instr :=
  if fieldMode c = 3 then .error .reservedMode
  else if fieldDup c || fieldLim c then .error .unusedField
  else if fieldFragcount c = 0 then .error .zeroFragcount
  else if fieldMode c = 0 then .ok (.splitDec16 (fieldLe c) (fieldFragcount c))
  else if fieldMode c = 1 then .ok (.splitDec32 (fieldLe c) (fieldFragcount c))
  else .ok (.splitDec8 (fieldLe c) (fieldFragcount c))

/-- R95 (7): `OPC` 4 or 5, whose only legal word is `whole`. -/
def decodeWhole (c whole : CmdWord) (i : Instr) : Except Illegal Instr :=
  if fieldMode c = 3 then .error .reservedMode
  else if c = whole then .ok i
  else .error .unusedField

/-- R95: decoding, total on all 2^32 command words. -/
def decode (c : CmdWord) : Except Illegal Instr :=
  if fieldRsv1 c != 0 || fieldRsv0 c != 0 then .error .reservedBits
  else if fieldOpc c = 1 then decodeDec c
  else if fieldOpc c = 2 then decodeEnc c
  else if fieldOpc c = 3 then decodeSplit c
  else if fieldOpc c = 4 then decodeWhole c 0x00000004 .fname
  else if fieldOpc c = 5 then decodeWhole c 0x00000005 .chunk
  else .error .reservedOpc

/-- The instruction a word of spec/opcode_table.json decodes to: every bit above `nbits` is 0. -/
def decodeTableWord (nbits w : Nat) : Option Instr :=
  match decode (BitVec.ofNat 32 (w % 2 ^ nbits)) with
  | .ok i => some i
  | .error _ => none

/-- R87: a command word laid out from its fields, bit 31 on the left. -/
def packWord (fragcount : BitVec 8) (lim dup le : Bool) (mode : BitVec 2) (opc : BitVec 4) : CmdWord :=
  0#8 ++ fragcount ++ 0#7 ++ BitVec.ofBool lim ++ BitVec.ofBool dup ++ BitVec.ofBool le ++ mode ++ opc

/-- R90: the word of an instruction. -/
def encode : Instr → CmdWord
  | .dec16 le lim => packWord 0 lim false le 0 1
  | .dec32 le lim => packWord 0 lim false le 1 1
  | .dec8 le lim => packWord 0 lim false le 2 1
  | .enc16 le dup => packWord 0 false dup le 0 2
  | .enc32 le dup => packWord 0 false dup le 1 2
  | .enc8 le dup => packWord 0 false dup le 2 2
  | .splitDec16 le n => packWord n false false le 0 3
  | .splitDec32 le n => packWord n false false le 1 3
  | .splitDec8 le n => packWord n false false le 2 3
  | .fname => packWord 0 false false false 0 4
  | .chunk => packWord 0 false false false 0 5

/-- One row of the opcode map (R90). -/
structure OpcodeRow where
  mnemonic : String
  matchBits : CmdWord
  mask : CmdWord
  /-- The three `SPLITDEC` rows also ask for `CMD[23:16]` ≠ 0. -/
  needsCount : Bool
  deriving DecidableEq, Repr

/-- R90: an operation is selected when `CMD & mask` = `match`, for `SPLITDEC` also `FRAGCOUNT` ≠ 0. -/
def OpcodeRow.selects (r : OpcodeRow) (c : CmdWord) : Bool :=
  c &&& r.mask == r.matchBits && (!r.needsCount || fieldFragcount c != 0)

/-- The eleven rows of R90. -/
def opcodeRows : List OpcodeRow :=
  [⟨"DEC16", 0x00000001, 0xFFFFFEBF, false⟩,
   ⟨"DEC32", 0x00000011, 0xFFFFFEBF, false⟩,
   ⟨"DEC8", 0x00000021, 0xFFFFFEBF, false⟩,
   ⟨"ENC16", 0x00000002, 0xFFFFFF3F, false⟩,
   ⟨"ENC32", 0x00000012, 0xFFFFFF3F, false⟩,
   ⟨"ENC8", 0x00000022, 0xFFFFFF3F, false⟩] ++
  [⟨"SPLITDEC16", 0x00000003, 0xFF00FFBF, true⟩,
   ⟨"SPLITDEC32", 0x00000013, 0xFF00FFBF, true⟩,
   ⟨"SPLITDEC8", 0x00000023, 0xFF00FFBF, true⟩,
   ⟨"FNAME", 0x00000004, 0xFFFFFFFF, false⟩,
   ⟨"CHUNK", 0x00000005, 0xFFFFFFFF, false⟩]

end Sys2Proof
end

