-- ==== Sys2Proof/Config.lean ====
section
/-! DEFINITION. The fixed constants of the ILT (00_scope.md R13), its open parameter NAMEMAX (R15), and the free values, which have no body (40_decode.md R122, 70_reset_and_hazards.md R236 and R237, 91_not_in_source.md N9). -/

namespace Sys2Proof.Config

/-- R13, R184: MAX_FRAGMENTS, with "no configuration override". -/
def maxFragments : Nat := 128

/-- R13, R181: MIN_CHUNK_SIZE. -/
def minChunkSize : Nat := 8192

/-- R15, R235 LengthsFit: every stream is shorter than 2^63 bytes. -/
def lengthBound : Nat := 2 ^ 63

/-- R15: NAMEMAX is at least 24. -/
def nameMaxFloor : Nat := 24

/-- R15, U15: how far NAMEMAX lies above 24; open, so it has no body (log 12). -/
opaque nameMaxExtra : Nat

/-- R15: the longest name `BASE` may hold. -/
def nameMax : Nat := nameMaxFloor + nameMaxExtra

/-- U4: the unspecified part of a cursor after a decode run that ended by exhaustion (log 10). -/
opaque freeCursor : Nat → Nat

/-- U6: what a host read of an unwritten 64-bit register returns, whatever the register holds (log 11). -/
opaque freeWord : Nat → Len → Len

/-- U6: what a host read of an unwritten `BASE` returns, whatever it holds (log 11). -/
opaque freeName : Nat → Name → Name

/-- U12: which of the moments the run has passed through a host read while `BUSY` = 1 shows (log 11). -/
opaque freeMoment : Nat → Nat

/-- N9: whether the decode tool treats `--split 1` as a split into one fragment (log 25). -/
opaque splitOneIsSplit : Bool

end Sys2Proof.Config
end

