-- ==== Sys2Proof/Machine/State.lean ====
section
/-! DEFINITION. The state of the ILT (10_state.md), the host's moves, the environment's I/O faults, the reasons a step can stop, and the state after reset (70_reset_and_hazards.md R231). -/

namespace Sys2Proof.Machine

/-- R26: the sequencer's phase. -/
inductive Phase where
  | idle | check | run | done | fail
  deriving DecidableEq, Repr

/-- R21, R236: an operand register always holds a value, and is unwritten from reset until the host's first write to it (log 1). -/
inductive Operand (α : Type) where
  /-- Not written since reset; `v` stands in it. -/
  | unwritten (v : α)
  | written (v : α)
  deriving DecidableEq, Repr

/-- The host has written the operand register since reset (R236). -/
def Operand.isWritten {α : Type} : Operand α → Bool
  | .unwritten _ => false
  | .written _ => true

/-- R33: an input stream: the bytes, the cursor, the `SEEK` attribute, and the name of the resource it stands for (R69, log 8). -/
structure InStream where
  res : Name
  data : List Byte
  pos : Nat
  seek : Bool
  deriving DecidableEq, Repr

/-- R34: an output stream: the bytes written so far, and the name of the resource it stands for (R69, log 8). -/
structure OutStream where
  res : Name
  out : List Byte
  deriving DecidableEq, Repr

/-- R36: a port is unbound, bound for the coming or running operation, or released at an operation's end (log 6, log 7). -/
inductive Port (α : Type) where
  | unbound
  | bound (v : α)
  | released (v : α)
  deriving DecidableEq, Repr

/-- R35: one entry of the fragment store. -/
structure Fragment where
  index : Nat
  name : Name
  bytes : List Byte
  deriving DecidableEq, Repr

/-- R35: the partial map from fragment index to (name, bytes), listed by rising index (log 20). -/
abbrev FragStore := List Fragment

/-- What the environment does at a stream access it does not serve (R209, U10, U16; log 4, log 14). -/
inductive IoKind where
  /-- The access fails. Of a write, `landed` bytes are in the output (fewer than the write holds), and `created` says whether a fragment that did not exist is there with no byte. -/
  | fail (landed : Nat) (created : Bool)
  /-- The access is never answered. -/
  | silent
  deriving DecidableEq, Repr

/-- R39: the environment serves `after` more accesses and then does `kind`. -/
structure IoFault where
  after : Nat
  kind : IoKind
  deriving DecidableEq, Repr

/-- R21: the fourteen registers. -/
inductive Reg where
  | cmd | status | errcode | limit | maxsize | index | base | nameout
  | fidx | rem | total | fraglim | portattr | nfrag
  deriving DecidableEq, Repr

/-- R21: the read-only registers. -/
inductive RoReg where
  | status | errcode | nameout | fidx | rem | total | fraglim | portattr | nfrag
  deriving DecidableEq, Repr

/-- What a register read returns: a number, or a name (`BASE`, `NAMEOUT`). -/
inductive RegVal where
  | num (v : Nat)
  | name (b : Name)
  deriving DecidableEq, Repr

/-- R32: the input ports that take one stream. -/
inductive InPort where
  | src | low | high
  deriving DecidableEq, Repr

/-- R32: the output ports the host binds. -/
inductive OutPort where
  | tgt | lowo | higho
  deriving DecidableEq, Repr

/-- R36: the ports the host binds. -/
inductive HostPort where
  | src | low | high | files | tgt | lowo | higho
  deriving DecidableEq, Repr

/-- R36: what the host gives for an input at binding. -/
structure Source where
  res : Name
  data : List Byte
  seek : Bool
  deriving DecidableEq, Repr

/-- The host's moves: the whole system interface of the ILT (R217), reset (R230), and when the transcoder gets to step (log 3). -/
inductive HostMove where
  | writeCmd (w : CmdWord)
  | writeLimit (v : Len)
  | writeMaxsize (v : Len)
  | writeIndex (v : Len)
  | writeBase (b : Name)
  /-- R21: a write to a read-only register is ignored. -/
  | writeReadOnly (r : RoReg)
  | bindIn (p : InPort) (x : Source)
  | bindFiles (xs : List Source)
  | bindOut (p : OutPort) (res : Name)
  /-- R209: a binding that the environment answers with a fault; the port is then unbound (log 27). -/
  | bindFails (p : HostPort)
  | read (r : Reg)
  | reset
  /-- R232: a reset inside the transcoder's coming step, when `served` of its accesses are made and the next has written `landed` bytes (log 17). -/
  | resetInside (served landed : Nat) (created : Bool)
  /-- R234 (5): the host waits until `BUSY` = 0. -/
  | wait
  /-- The host lets the transcoder take one step; one that waits for an unanswered access passes with nothing done (log 14). -/
  | tick
  deriving DecidableEq, Repr

/-- The stream an input access goes to (R32, R62). -/
inductive InSel where
  | src | low | high
  | file (j : Nat)
  deriving DecidableEq, Repr

/-- The stream an output access goes to (R32, R62); a fragment carries the `BASE` its name is made from (R52). -/
inductive OutSel where
  | tgt | lowo | higho
  | frag (k : Nat) (base : Name)
  deriving DecidableEq, Repr

/-- Which ports an operation uses (R89); the fragment store is not bound by the host. -/
structure Used where
  src : Bool
  low : Bool
  high : Bool
  files : Bool
  tgt : Bool
  lowo : Bool
  higho : Bool
  deriving DecidableEq, Repr

/-- R201: the errors that end an operation. -/
inductive Err where
  | illcmd | noseek | minsize | lanelen | divis | io
  deriving DecidableEq, Repr

/-- R237, U12: the registers a host may read a past value of, at one moment of a run. -/
structure Progress where
  fidx : Len
  rem : Len
  total : Len
  fraglim : Len
  nfrag : Len
  deriving DecidableEq, Repr

/-- Why the machine takes no further step. -/
inductive Fault where
  /-- U16: the environment never answers a stream access and `BUSY` stays 1 for ever; raised by every operation that touches a stream, when no coming move of the host lets time pass; safe. -/
  | environmentSilent
  deriving DecidableEq, Repr

/-- The spec's `refuse(reason)`: the spec gives the case no meaning (93_implementation_defined.md). -/
inductive Refusal where
  /-- No meaning written yet; raised by no arm of `exec`; safe. -/
  | notModelled (mnemonic : String)
  /-- U1, R61: a budget that is not a multiple of the flat unit; raised by `DEC` in CHECK, by `SPLITDEC` in RUN; safe. -/
  | limitNotUnitMultiple
  /-- U2, R120: an unsplit dual-lane decode with a lane whose `SEEK` = 0; raised by `DEC32`, `DEC8`; safe. -/
  | dualLaneLengthUnknown
  /-- U3, R142: `DUP` = 1 with a file whose `SEEK` = 0; raised by `ENC`; safe. -/
  | duplicateNeedsRewind
  /-- U6, R236: an operation reads an operand register the host never wrote; raised by `DEC` with `LIM`, `SPLITDEC`, `FNAME`, `CHUNK`; safe. -/
  | unwrittenRegister
  /-- U7, R237: a host write or rebinding while `BUSY` = 1; raised by the host's moves; safe. -/
  | writeWhileBusy
  /-- U8, R69, R240: one resource on two ports of one operation, or one named like a fragment; raised by every operation that uses a port; safe. -/
  | portAlias
  /-- U15, R235 LengthsFit: an input stream of 2^63 bytes or more; raised by every operation that reads a stream; safe. -/
  | lengthsFit
  /-- U15: a `BASE` longer than NAMEMAX; raised by the host's write; safe. -/
  | nameTooLong
  deriving DecidableEq, Repr

/-- Everything the spec gives the machine, and the model's own six fields at the end. -/
structure State where
  /-- R22: `CMD`, the last command word written. -/
  cmd : CmdWord
  /-- R24: `ERRCODE`. -/
  errcode : BitVec 8
  /-- R25: `LIMIT`, the byte budget of a `DEC` with `LIM` = 1. -/
  limit : Operand Len
  /-- R25: `MAXSIZE`, the fragment size of `CHUNK`. -/
  maxsize : Operand Len
  /-- R25: `INDEX`, the number `FNAME` renders. -/
  index : Operand Len
  /-- R25: `BASE`, the base name of the fragments. -/
  base : Operand Name
  /-- R25: `NAMEOUT`, the result of `FNAME`. -/
  nameout : Name
  /-- R26: `FIDX`, the index of the fragment now being filled. -/
  fidx : Len
  /-- R26: `REM`, the budget left in the current decode run. -/
  rem : Len
  /-- R28: `TOTAL`, the total length of a split decode. -/
  total : Len
  /-- R28: `FRAGLIM`, the budget of each fragment of a split decode. -/
  fraglim : Len
  /-- R35: `NFRAG`, the number of fragments that exist. -/
  nfrag : Len
  /-- R23: `STATUS.WARN`; the other flags of `STATUS` are views of `phase`. -/
  warn : Bool
  /-- R26: `PHASE`. -/
  phase : Phase
  /-- R26: `SRCI`, the index in `FILES` of the file now being encoded. -/
  srci : Nat
  /-- R26: `PASS`, true in the second pass over that file. -/
  pass : Bool
  /-- R26: `FCNT`, the bytes already written to the current `CHUNK` fragment. -/
  fcnt : Nat
  /-- R32: input port `SRC`. -/
  src : Port InStream
  /-- R32: input port `LOW`. -/
  low : Port InStream
  /-- R32: input port `HIGH`. -/
  high : Port InStream
  /-- R37: input list port `FILES`. -/
  files : Port (List InStream)
  /-- R32: output port `TGT`. -/
  tgt : Port OutStream
  /-- R32: output port `LOWO`. -/
  lowo : Port OutStream
  /-- R32: output port `HIGHO`. -/
  higho : Port OutStream
  /-- R35: the fragment store `FRAG`. -/
  frags : FragStore
  /-- R38: the unit latch; it holds nothing between steps. -/
  latch : List Byte
  /-- The model's own: the host's coming moves (log 3). -/
  host : List HostMove
  /-- The model's own: the environment's coming I/O faults (R39, log 4). -/
  ioFaults : List IoFault
  /-- The model's own: what the host's last register read returned (log 11). -/
  lastRead : Option RegVal
  /-- The model's own: what a reset during an operation left in the output resources (R232, log 17). -/
  leftBehind : List (Name × List Byte)
  /-- The model's own: numbers the free values (log 10). -/
  freeCtr : Nat
  /-- The model's own: the moments the running operation has passed through, the latest first (R237, log 11). -/
  passed : List Progress
  deriving DecidableEq, Repr

/-- R231: the state right after reset; the four operand registers are unwritten and hold 0 or the empty name (log 1), and the model's own fields start empty (log 3, 4, 10, 11, 17). -/
def State.reset : State where
  cmd := 0
  errcode := 0
  limit := .unwritten 0
  maxsize := .unwritten 0
  index := .unwritten 0
  base := .unwritten []
  nameout := []
  fidx := 0
  rem := 0
  total := 0
  fraglim := 0
  nfrag := 0
  warn := false
  phase := .idle
  srci := 0
  pass := false
  fcnt := 0
  src := .unbound
  low := .unbound
  high := .unbound
  files := .unbound
  tgt := .unbound
  lowo := .unbound
  higho := .unbound
  frags := []
  latch := []
  host := []
  ioFaults := []
  lastRead := none
  leftBehind := []
  freeCtr := 0
  passed := []

/-! One setter per field; `@[simps]` gives each its lemma for every field, true by rfl. -/

@[simps] def State.setCmd (v : CmdWord) (s : State) : State := { s with cmd := v }
@[simps] def State.setErrcode (v : BitVec 8) (s : State) : State := { s with errcode := v }
@[simps] def State.setLimit (v : Operand Len) (s : State) : State := { s with limit := v }
@[simps] def State.setMaxsize (v : Operand Len) (s : State) : State := { s with maxsize := v }
@[simps] def State.setIndex (v : Operand Len) (s : State) : State := { s with index := v }
@[simps] def State.setBase (v : Operand Name) (s : State) : State := { s with base := v }
@[simps] def State.setNameout (v : Name) (s : State) : State := { s with nameout := v }
@[simps] def State.setFidx (v : Len) (s : State) : State := { s with fidx := v }
@[simps] def State.setRem (v : Len) (s : State) : State := { s with rem := v }
@[simps] def State.setTotal (v : Len) (s : State) : State := { s with total := v }
@[simps] def State.setFraglim (v : Len) (s : State) : State := { s with fraglim := v }
@[simps] def State.setNfrag (v : Len) (s : State) : State := { s with nfrag := v }
@[simps] def State.setWarn (v : Bool) (s : State) : State := { s with warn := v }
@[simps] def State.setPhase (v : Phase) (s : State) : State := { s with phase := v }
@[simps] def State.setSrci (v : Nat) (s : State) : State := { s with srci := v }
@[simps] def State.setPass (v : Bool) (s : State) : State := { s with pass := v }
@[simps] def State.setFcnt (v : Nat) (s : State) : State := { s with fcnt := v }
@[simps] def State.setSrc (v : Port InStream) (s : State) : State := { s with src := v }
@[simps] def State.setLow (v : Port InStream) (s : State) : State := { s with low := v }
@[simps] def State.setHigh (v : Port InStream) (s : State) : State := { s with high := v }
@[simps] def State.setFiles (v : Port (List InStream)) (s : State) : State := { s with files := v }
@[simps] def State.setTgt (v : Port OutStream) (s : State) : State := { s with tgt := v }
@[simps] def State.setLowo (v : Port OutStream) (s : State) : State := { s with lowo := v }
@[simps] def State.setHigho (v : Port OutStream) (s : State) : State := { s with higho := v }
@[simps] def State.setFrags (v : FragStore) (s : State) : State := { s with frags := v }
@[simps] def State.setLatch (v : List Byte) (s : State) : State := { s with latch := v }
@[simps] def State.setHost (v : List HostMove) (s : State) : State := { s with host := v }
@[simps] def State.setIoFaults (v : List IoFault) (s : State) : State := { s with ioFaults := v }
@[simps] def State.setLastRead (v : Option RegVal) (s : State) : State := { s with lastRead := v }
@[simps] def State.setLeftBehind (v : List (Name × List Byte)) (s : State) : State := { s with leftBehind := v }
@[simps] def State.setFreeCtr (v : Nat) (s : State) : State := { s with freeCtr := v }
@[simps] def State.setPassed (v : List Progress) (s : State) : State := { s with passed := v }

end Sys2Proof.Machine
end

