-- ==== Sys2Proof/Machine/Operands.lean ====
section
/-! DEFINITION. The operand forms: word modes and units (00_scope.md R11), byte order and lane roles (20_memory.md R55, R56), the byte routing (R57), the ports an operation uses (30_encoding.md R89), operand registers (R91), and the name function (42_fragment.md R170, R173). -/

namespace Sys2Proof.Machine

/-- R11: the three word modes. -/
inductive Mode where
  | w16 | w32 | w8
  deriving DecidableEq, Repr

/-- R11: `LU`, the bytes moved on one lane per step. -/
def Mode.laneUnit : Mode → Nat
  | .w16 => 2
  | .w32 => 2
  | .w8 => 1

/-- R11: `U`, the bytes moved on the flat side per step, by which a budget drops. -/
def Mode.flatUnit : Mode → Nat
  | .w16 => 2
  | .w32 => 4
  | .w8 => 2

/-- R55: the order correction of one lane unit. -/
def corr (le : Bool) (u : List Byte) : List Byte :=
  match le, u with
  | false, [a, b] => [b, a]
  | _, u => u

/-- R56: the input lane whose unit stands first in the flat word (D5). -/
def firstIn (le : Bool) : InSel := if le then .low else .high
/-- R56: the input lane whose unit stands second. -/
def secondIn (le : Bool) : InSel := if le then .high else .low
/-- R56: the output lane that receives the first half of the flat word. -/
def firstOut (le : Bool) : OutSel := if le then .lowo else .higho
/-- R56: the output lane that receives the second half. -/
def secondOut (le : Bool) : OutSel := if le then .higho else .lowo

/-- R57, encode: the half of a flat unit for the first-role lane, corrected. -/
def firstHalf (m : Mode) (le : Bool) (u : List Byte) : List Byte := corr le (u.take m.laneUnit)
/-- R57, encode: the half of a flat unit for the second-role lane, corrected. -/
def secondHalf (m : Mode) (le : Bool) (u : List Byte) : List Byte := corr le (u.drop m.laneUnit)

/-! The ports an operation uses (R89). -/

def Used.none : Used := ⟨false, false, false, false, false, false, false⟩
/-- `DEC`: `SRC` → `TGT`, or `LOW`, `HIGH` → `TGT`. -/
def decUsed : Mode → Used
  | .w16 => { Used.none with src := true, tgt := true }
  | .w32 | .w8 => { Used.none with low := true, high := true, tgt := true }
/-- `ENC`: `FILES` → `TGT`, or `FILES` → `LOWO`, `HIGHO`. -/
def encUsed : Mode → Used
  | .w16 => { Used.none with files := true, tgt := true }
  | .w32 | .w8 => { Used.none with files := true, lowo := true, higho := true }
/-- `SPLITDEC`: `SRC`, or `LOW`, `HIGH`; the fragment store needs no binding (log 24). -/
def splitUsed : Mode → Used
  | .w16 => { Used.none with src := true }
  | .w32 | .w8 => { Used.none with low := true, high := true }
/-- `CHUNK`: `SRC`. -/
def chunkUsed : Used := { Used.none with src := true }

/-! Ports (R36). -/

def Port.active {α : Type} : Port α → Option α
  | .bound v => some v
  | _ => none

def Port.isBound {α : Type} : Port α → Bool
  | .bound _ => true
  | _ => false

/-- The end of an operation closes the stream; its cursor, attribute and bytes stay readable (log 6, log 7). -/
def Port.release {α : Type} : Port α → Port α
  | .bound v => .released v
  | p => p

def Port.releaseIf {α : Type} (b : Bool) (p : Port α) : Port α := if b then p.release else p

def Port.map {α : Type} (f : α → α) : Port α → Port α
  | .unbound => .unbound
  | .bound v => .bound (f v)
  | .released v => .released (f v)

/-- Apply `f` to a bound stream only (R27: "every bound input cursor"). -/
def Port.mapBound {α : Type} (f : α → α) : Port α → Port α
  | .bound v => .bound (f v)
  | p => p

/-- The stream a port shows: bound, or released at the last operation's end (log 7). -/
def Port.shown {α : Type} : Port α → Option α
  | .unbound => none
  | .bound v => some v
  | .released v => some v

/-! Streams (R33, R51). -/

/-- R51: the bytes a read of `n` returns. -/
def InStream.window (st : InStream) (n : Nat) : List Byte := (st.data.drop st.pos).take n
/-- R51: the stream after a read of `n`. -/
def InStream.advance (st : InStream) (n : Nat) : InStream := { st with pos := st.pos + (st.window n).length }
/-- R18: `MemRewind` sets the cursor to 0. -/
def InStream.rewind (st : InStream) : InStream := { st with pos := 0 }
/-- R52: a write appends. -/
def OutStream.append (o : OutStream) (v : List Byte) : OutStream := { o with out := o.out ++ v }
/-- R36: a freshly bound input stands at its start. -/
def Source.open (x : Source) : InStream := ⟨x.res, x.data, 0, x.seek⟩

/-! The name function (R170, R173). -/

/-- R173: the digits of `n` in front of `acc`; `fuel` bounds their number. -/
def decDigits : Nat → Nat → List Byte → List Byte
  | 0, _, acc => acc
  | fuel + 1, n, acc =>
    let acc' := BitVec.ofNat 8 (0x30 + n % 10) :: acc
    if n / 10 = 0 then acc' else decDigits fuel (n / 10) acc'

/-- R173: `dec(n)`, the shortest decimal numeral (a number has at most one decimal digit for each binary one). -/
def dec (n : Nat) : List Byte := decDigits (n.log2 + 1) n []

/-- R170: the index of the last byte 0x2E. -/
def lastDot : Name → Option Nat
  | [] => none
  | c :: b =>
    match lastDot b with
    | some p => some (p + 1)
    | none => if c = 0x2E then some 0 else none

/-- R170: `FragName(b, n)`. -/
def fragName (b : Name) (n : Nat) : Name :=
  match lastDot b with
  | some p => b.take p ++ 0x2D :: dec n ++ b.drop p
  | none => b ++ 0x2D :: dec n

/-! The fragment store (R35, R52). -/

def FragStore.has (fs : FragStore) (k : Nat) : Bool := fs.any (fun f => f.index == k)

/-- The entry of index `k`. -/
def FragStore.get? (fs : FragStore) (k : Nat) : Option Fragment := fs.find? (fun f => f.index == k)

/-- R52: create entry `k` if it does not exist, then append. -/
def FragStore.append (k : Nat) (name : Name) (v : List Byte) : FragStore → FragStore
  | [] => [⟨k, name, v⟩]
  | f :: fs =>
    if f.index = k then { f with bytes := f.bytes ++ v } :: fs
    else if k < f.index then ⟨k, name, v⟩ :: f :: fs
    else f :: FragStore.append k name v fs

/-- The canonical form: strictly rising indices (log 20). -/
def FragStore.wf (fs : FragStore) : Bool := decide ((fs.map Fragment.index).Pairwise (· < ·))

/-- R15: `BASE` holds at most NAMEMAX bytes; the floor of NAMEMAX is tested first so that short names evaluate (log 12). -/
def nameFits (b : Name) : Bool := decide (b.length ≤ Config.nameMaxFloor) || decide (b.length ≤ Config.nameMax)

end Sys2Proof.Machine
end

