-- ==== Sys2Proof/Machine/Flags.lean ====
section
/-! DEFINITION. The flags and codes the host reads: `STATUS` (10_state.md R23), the error codes (60_exceptions.md R201), `PORTATTR` (R29), and the value of every register read (R21, R236, R237). The ILT has no arithmetic flags (R30). -/

namespace Sys2Proof.Machine

/-- R201: the code of an error. -/
def Err.code : Err → BitVec 8
  | .illcmd => 1
  | .noseek => 2
  | .minsize => 3
  | .lanelen => 4
  | .divis => 5
  | .io => 6

/-- R23: `BUSY` is 1 while `PHASE` is `CHECK` or `RUN`. -/
def State.busy (s : State) : Bool := s.phase == .check || s.phase == .run
/-- R23: `DONE` is 1 while `PHASE` is `DONE`. -/
def State.doneFlag (s : State) : Bool := s.phase == .done
/-- R23: `ERR` is 1 while `PHASE` is `FAIL`. -/
def State.errFlag (s : State) : Bool := s.phase == .fail

/-- R23: `STATUS`, with bits 31:4 reading 0. -/
def State.status (s : State) : BitVec 32 :=
  0#28 ++ BitVec.ofBool s.warn ++ BitVec.ofBool s.errFlag ++ BitVec.ofBool s.doneFlag ++ BitVec.ofBool s.busy

/-- R29: the `SEEK` attribute a port shows; 0 for an unbound port (log 7). -/
def Port.seekBit (p : Port InStream) : Bool := match p.shown with
  | some st => st.seek
  | none => false

/-- R29: `PORTATTR`. -/
def State.portattr (s : State) : BitVec 3 :=
  BitVec.ofBool s.high.seekBit ++ BitVec.ofBool s.low.seekBit ++ BitVec.ofBool s.src.seekBit

/-- R21: the number of a register. -/
def Reg.no : Reg → Fin 14
  | .cmd => 0
  | .status => 1
  | .errcode => 2
  | .limit => 3
  | .maxsize => 4
  | .index => 5
  | .base => 6
  | .nameout => 7
  | .fidx => 8
  | .rem => 9
  | .total => 10
  | .fraglim => 11
  | .portattr => 12
  | .nfrag => 13

/-- R236, U6: a host read of an unwritten register returns an unspecified value, a free value (log 11). -/
def Operand.readWord (ctr : Nat) : Operand Len → RegVal
  | .written v => .num v.toNat
  | .unwritten v => .num (Config.freeWord ctr v).toNat

/-- R236, U6, for `BASE`; the free name has at most NAMEMAX bytes (R21). -/
def Operand.readName (ctr : Nat) : Operand Name → RegVal
  | .written b => .name b
  | .unwritten b => .name ((Config.freeName ctr b).take Config.nameMax)

/-- The registers of `Progress` as they stand. -/
def State.progress (s : State) : Progress := ⟨s.fidx, s.rem, s.total, s.fraglim, s.nfrag⟩

/-- R237, U12: the moment a host read shows: now, or while `BUSY` = 1 any the run has passed through (log 11). -/
def State.glimpse (s : State) : Progress :=
  if s.busy then (s.passed[Config.freeMoment s.freeCtr % s.passed.length]?).getD s.progress else s.progress

/-- R21: what a host read of a register returns. -/
def State.readReg (s : State) : Reg → RegVal
  | .cmd => .num s.cmd.toNat
  | .status => .num s.status.toNat
  | .errcode => .num s.errcode.toNat
  | .limit => s.limit.readWord s.freeCtr
  | .maxsize => s.maxsize.readWord s.freeCtr
  | .index => s.index.readWord s.freeCtr
  | .base => s.base.readName s.freeCtr
  | .nameout => .name s.nameout
  | .fidx => .num s.glimpse.fidx.toNat
  | .rem => .num s.glimpse.rem.toNat
  | .total => .num s.glimpse.total.toNat
  | .fraglim => .num s.glimpse.fraglim.toNat
  | .portattr => .num s.portattr.toNat
  | .nfrag => .num s.glimpse.nfrag.toNat

end Sys2Proof.Machine
end

