-- ==== Sys2Proof/Machine/Ops.lean ====
section
/-! DEFINITION. The named operations every meaning is made of: stream accesses under the environment's answers (20_memory.md R51 to R53, 60_exceptions.md R209), the fragment store, port release, the one error entry (R210), the normal end, the start of an operation by a `CMD` write (10_state.md R27), and the checks shared by the operations (R205). -/

namespace Sys2Proof.Machine

/-- The outcome of a step. -/
abbrev Result := Host.Outcome State Fault Refusal

/-- The environment's answer to one stream access (R209). -/
inductive Answer where
  | serve (s : State)
  | fail (landed : Nat) (created : Bool) (s : State)
  | silent
  deriving DecidableEq, Repr

/-- A stream access: it gives a value, or the environment fails it, or never answers. -/
inductive Access (α : Type) where
  | ok (a : α) (s : State)
  | ioFault (s : State)
  | silent
  deriving DecidableEq, Repr

def Access.bind {α β : Type} : Access α → (α → State → Access β) → Access β
  | .ok a s, k => k a s
  | .ioFault s, _ => .ioFault s
  | .silent, _ => .silent

/-- R39, R209: the environment's answer to the next access, from its schedule (log 4). -/
def ioAnswer (s : State) : Answer :=
  match s.ioFaults with
  | [] => .serve s
  | ⟨n + 1, k⟩ :: fs => .serve (s.setIoFaults (⟨n, k⟩ :: fs))
  | ⟨0, .fail landed created⟩ :: fs => .fail landed created (s.setIoFaults fs)
  | ⟨0, .silent⟩ :: _ => .silent

/-! Input streams. -/

/-- The bound stream an input access goes to. -/
def State.input (s : State) : InSel → Option InStream
  | .src => s.src.active
  | .low => s.low.active
  | .high => s.high.active
  | .file j => s.files.active.bind (fun fs => fs[j]?)

/-- Replace that stream. -/
def State.setInput (s : State) (p : InSel) (st : InStream) : State :=
  match p with
  | .src => s.setSrc (.bound st)
  | .low => s.setLow (.bound st)
  | .high => s.setHigh (.bound st)
  | .file j => s.setFiles (s.files.mapBound (fun fs => fs.set j st))

/-- R51: `MemRead(p, n)`; a port that is not bound is a failed access (R201, log 22). -/
def memRead (p : InSel) (n : Nat) (s : State) : Access (List Byte) :=
  match ioAnswer s with
  | .serve s1 =>
    match s1.input p with
    | some st => .ok (st.window n) (s1.setInput p (st.advance n))
    | none => .ioFault s1
  | .fail _ _ s1 => .ioFault s1
  | .silent => .silent

/-- R53: `MemLen(p)`, defined only when `SEEK` = 1; the callers have checked that (log 22). -/
def memLen (p : InSel) (s : State) : Access Nat :=
  match ioAnswer s with
  | .serve s1 =>
    match s1.input p with
    | some st => if st.seek then .ok st.data.length s1 else .ioFault s1
    | none => .ioFault s1
  | .fail _ _ s1 => .ioFault s1
  | .silent => .silent

/-- R18: `MemRewind(p)`. -/
def memRewind (p : InSel) (s : State) : Access Unit :=
  match ioAnswer s with
  | .serve s1 =>
    match s1.input p with
    | some st => .ok () (s1.setInput p st.rewind)
    | none => .ioFault s1
  | .fail _ _ s1 => .ioFault s1
  | .silent => .silent

/-! Output streams and the fragment store. -/

/-- R52: append to fragment `k`, which comes to exist with name `FragName(BASE, k)` and counts in `NFRAG`. -/
def State.fragWrite (s : State) (k : Nat) (base : Name) (v : List Byte) : State :=
  (s.setNfrag (if s.frags.has k then s.nfrag else s.nfrag + 1)).setFrags (s.frags.append k (fragName base k) v)

/-- R52: append `v` to an output; none when its port is not bound. -/
def State.output (s : State) (p : OutSel) (v : List Byte) : Option State :=
  match p with
  | .tgt => s.tgt.active.map (fun o => s.setTgt (.bound (o.append v)))
  | .lowo => s.lowo.active.map (fun o => s.setLowo (.bound (o.append v)))
  | .higho => s.higho.active.map (fun o => s.setHigho (.bound (o.append v)))
  | .frag k base => some (s.fragWrite k base v)

/-- R209, V107: what a failed write of `v` leaves: a proper prefix of `v`, and possibly an empty new fragment. -/
def State.partialWrite (s : State) (p : OutSel) (v : List Byte) (landed : Nat) (created : Bool) : State :=
  if min landed (v.length - 1) = 0 && !created then s
  else (s.output p (v.take (min landed (v.length - 1)))).getD s

/-- R52: `MemWrite(p, len(v), v)`. -/
def memWrite (p : OutSel) (v : List Byte) (s : State) : Access Unit :=
  match ioAnswer s with
  | .serve s1 =>
    match s1.output p v with
    | some s2 => .ok () s2
    | none => .ioFault s1
  | .fail landed created s1 => .ioFault (s1.partialWrite p v landed created)
  | .silent => .silent

/-! The end of an operation. -/

/-- R36, R210, R122: the streams the operation used are released (log 6). -/
@[simps] def State.release (u : Used) (s : State) : State :=
  { s with
    src := s.src.releaseIf u.src
    low := s.low.releaseIf u.low
    high := s.high.releaseIf u.high
    files := s.files.releaseIf u.files
    tgt := s.tgt.releaseIf u.tgt
    lowo := s.lowo.releaseIf u.lowo
    higho := s.higho.releaseIf u.higho }

/-- R210: `raise e`, the one error entry; the unit latch holds nothing afterwards (R38). -/
def raise (e : Err) (u : Used) (s : State) : State :=
  (((s.release u).setLatch []).setErrcode e.code).setPhase .fail

/-- R122, R151, R164, R182: the operation ends with success. -/
def finish (u : Used) (s : State) : State := ((s.release u).setLatch []).setPhase .done

/-- Go on after a stream access; a failed one raises `ERR_IO` (R209), an unanswered one is stuck (U16). -/
def Access.andThen {α : Type} (r : Access α) (u : Used) (k : α → State → Result) : Result :=
  match r with
  | .ok a s => k a s
  | .ioFault s => .next (raise .io u s)
  | .silent => .fault .environmentSilent

/-! The start of an operation. -/

/-- R27: what a host write of `w` to `CMD` does when `BUSY` = 0, the return from an error included (R212). -/
@[simps] def State.start (w : CmdWord) (s : State) : State :=
  { s with
    cmd := w
    errcode := 0
    warn := false
    fidx := 0
    rem := 0
    nfrag := 0
    srci := 0
    pass := false
    fcnt := 0
    frags := []
    latch := []
    src := s.src.mapBound InStream.rewind
    low := s.low.mapBound InStream.rewind
    high := s.high.mapBound InStream.rewind
    files := s.files.mapBound (fun fs => fs.map InStream.rewind)
    tgt := s.tgt.map (fun o => { o with out := [] })
    lowo := s.lowo.map (fun o => { o with out := [] })
    higho := s.higho.map (fun o => { o with out := [] })
    passed := [⟨0, 0, s.total, s.fraglim, 0⟩]
    phase := .check }

/-! The checks shared by the operations (R205). -/

/-- R205 (2): every used port is bound. -/
def State.portsBound (s : State) (u : Used) : Bool :=
  (!u.src || s.src.isBound) && (!u.low || s.low.isBound) && (!u.high || s.high.isBound) &&
  (!u.files || s.files.isBound) && (!u.tgt || s.tgt.isBound) && (!u.lowo || s.lowo.isBound) &&
  (!u.higho || s.higho.isBound)

/-- A used port's bound stream, as a list. -/
def pick {α : Type} (b : Bool) (p : Port α) : List α := if b then p.active.toList else []

/-- The bound input streams of the used ports, port by port. -/
def State.usedInputs (s : State) (u : Used) : List (List InStream) :=
  [pick u.src s.src, pick u.low s.low, pick u.high s.high, (pick u.files s.files).flatten]

/-- The names of the resources on the used ports, port by port. -/
def State.usedNames (s : State) (u : Used) : List (List Name) :=
  (s.usedInputs u).map (fun l => l.map InStream.res) ++
  [(pick u.tgt s.tgt).map OutStream.res, (pick u.lowo s.lowo).map OutStream.res,
   (pick u.higho s.higho).map OutStream.res]

/-- Some name stands on two ports (the two lists of one port may hold a name twice, log 8). -/
def sharedName : List (List Name) → Bool
  | [] => false
  | l :: ls => l.any (fun n => ls.any (fun l' => l'.contains n)) || sharedName ls

/-- R69, R240: one resource is bound to two ports of the operation. -/
def State.portAlias (s : State) (u : Used) : Bool := sharedName (s.usedNames u)

/-- R69, R240: a fragment of index below `count` would be named like an input of the operation or like a bound output (log 8). -/
def State.fragAlias (s : State) (u : Used) (base : Name) (count : Nat) : Bool :=
  (List.range count).any fun k =>
    ((s.usedNames u).flatten ++ (pick true s.tgt ++ pick true s.lowo ++ pick true s.higho).map OutStream.res).contains
      (fragName base k)

/-- R235 LengthsFit: every input stream of the operation is shorter than 2^63 bytes. -/
def State.lengthsFit (s : State) (u : Used) : Bool :=
  (s.usedInputs u).flatten.all (fun st => decide (st.data.length < Config.lengthBound))

/-- The refusal conditions every operation with ports shares; they hold "whatever the checks would say" (R205, log 5). Which is named when both hold is the model's choice (log 28). -/
def State.portRefusal (s : State) (u : Used) : Option Refusal :=
  if s.portAlias u then some .portAlias
  else if !s.lengthsFit u then some .lengthsFit
  else none

/-- The shared part of a `CHECK` step: a refusal condition first, then R205 (2), then the operation's own checks. -/
def checkPorts (refusal : Option Refusal) (u : Used) (s : State) (k : Result) : Result :=
  match refusal with
  | some r => .refused r
  | none => if s.portsBound u then k else .next (raise .io u s)

/-- Whether every bound input stream of the used ports has `SEEK` = 1. -/
def State.seekable (s : State) (u : Used) : Bool := (s.usedInputs u).flatten.all InStream.seek

end Sys2Proof.Machine
end

