-- ==== Sys2Proof/Machine/DecodeFamily.lean ====
section
/-! DEFINITION. The decode family (40_decode.md): the shared run procedure (R110), the checks (R120, R121), the end of a run (R122), and the meanings of `DEC16` (R111), `DEC32` (R114), `DEC8` (R117). -/

namespace Sys2Proof.Machine

/-- R110: what one iteration of `DecodeRun` came to. -/
inductive DecodeEvent where
  /-- The budget is used up. -/
  | budget
  /-- A short read: the stream is exhausted. -/
  | exhausted
  /-- One unit was transcoded. -/
  | moved
  deriving DecidableEq, Repr

/-- R110, R62: read the lane units of one step into the unit latch, corrected and in flat order; false on a short read (R60). -/
def readUnit (m : Mode) (le : Bool) (s : State) : Access Bool :=
  match m with
  | .w16 => (memRead .src 2 s).bind fun u s1 =>
      .ok (decide (2 ≤ u.length)) (s1.setLatch (corr le u))
  | .w32 | .w8 => (memRead (firstIn le) m.laneUnit s).bind fun a s1 =>
      (memRead (secondIn le) m.laneUnit s1).bind fun b s2 =>
        .ok (decide (m.laneUnit ≤ a.length) && decide (m.laneUnit ≤ b.length)) (s2.setLatch (corr le a ++ corr le b))

/-- R110: the budget drops by `U` after a unit. -/
def State.spend (s : State) (m : Mode) (hasBudget : Bool) : State :=
  if hasBudget then s.setRem (s.rem - BitVec.ofNat 64 m.flatUnit) else s

/-- R110: one iteration of `DecodeRun(m, le, hasBudget, REM, out)`; the latch holds nothing afterwards (R38). -/
def decodeIter (m : Mode) (le hasBudget : Bool) (out : OutSel) (s : State) : Access DecodeEvent :=
  if hasBudget && s.rem == 0 then .ok .budget s
  else (readUnit m le s).bind fun full s1 =>
    if full then
      (memWrite out s1.latch s1).bind fun _ s2 => .ok .moved ((s2.setLatch []).spend m hasBudget)
    else .ok .exhausted (s1.setLatch [])

/-- R122: a cursor after exhaustion, anywhere from the end of the last whole unit (where `old` stands) to the end of the stream (log 10). -/
def unspecCursor (ctr : Nat) (st : InStream) : InStream :=
  { st with pos := st.pos + Config.freeCursor ctr % (st.data.length - st.pos + 1) }

/-- R122: the cursors of the lanes after a run that ended by exhaustion; `s0` is the state before the short step. -/
def State.freeCursors (s : State) (m : Mode) (s0 : State) : State :=
  match m with
  | .w16 => (s.setSrc (s0.src.map (unspecCursor s0.freeCtr))).setFreeCtr (s0.freeCtr + 1)
  | .w32 | .w8 =>
    ((s.setLow (s0.low.map (unspecCursor s0.freeCtr))).setHigh
      (s0.high.map (unspecCursor (s0.freeCtr + 1)))).setFreeCtr (s0.freeCtr + 2)

/-- R121: the budget operand; none when `LIM` = 0. -/
def State.budgetRefusal (s : State) (m : Mode) (lim : Bool) : Option Refusal :=
  if lim then
    match s.limit with
    | .unwritten _ => some .unwrittenRegister
    | .written v => if v.toNat % m.flatUnit = 0 then none else some .limitNotUnitMultiple
  else none

/-- R110: the value of `REM` when the run begins. -/
def State.budget (s : State) (lim : Bool) : Len :=
  match lim, s.limit with
  | true, .written v => v
  | _, _ => 0

/-- The checks passed: the run begins with its budget (log 15). -/
def State.beginDecode (s : State) (lim : Bool) : State := (s.setRem (s.budget lim)).setPhase .run

/-- R120: the lane-length check of a dual-lane decode. -/
def checkLanes (u : Used) (s : State) (k : Nat → State → Result) : Result :=
  (memLen .low s).andThen u fun a s1 =>
    (memLen .high s1).andThen u fun b s2 =>
      if a = b then k (a + b) s2 else .next (raise .lanelen u s2)

/-- R120: a dual-lane decode with a bound lane of `SEEK` = 0; an unbound lane is R205 (2)'s. -/
def State.laneRefusal (s : State) (m : Mode) : Option Refusal :=
  match m with
  | .w16 => none
  | .w32 | .w8 => if s.seekable (decUsed m) then none else some .dualLaneLengthUnknown

/-- R205, last sentence: the refusal conditions of a decode, before its checks (log 5); the one named when several hold is the first in this order, the model's choice (log 28). -/
def State.decRefusal (s : State) (m : Mode) (lim : Bool) : Option Refusal :=
  ((s.budgetRefusal m lim).or (s.portRefusal (decUsed m))).or (s.laneRefusal m)

/-- R111, R114, R117: the `CHECK` step. -/
def checkDec (m : Mode) (lim : Bool) (s : State) : Result :=
  checkPorts (s.decRefusal m lim) (decUsed m) s <|
    match m with
    | .w16 => .next (s.beginDecode lim)
    | .w32 | .w8 =>
      checkLanes (decUsed m) s fun _ s1 => .next (s1.beginDecode lim)

/-- R111, R114, R117: one `RUN` step. -/
def runDec (m : Mode) (le lim : Bool) (s : State) : Result :=
  (decodeIter m le lim .tgt s).andThen (decUsed m) fun ev s1 =>
    match ev with
    | .budget => .next (finish (decUsed m) s1)
    | .exhausted => .next (finish (decUsed m) (s1.freeCursors m s))
    | .moved => .next s1

/-- One step of a decode operation; in IDLE, DONE and FAIL the transcoder has no step (R27, log 21). -/
def stepDec (m : Mode) (le lim : Bool) (s : State) : Result :=
  match s.phase with
  | .check => checkDec m lim s
  | .run => runDec m le lim s
  | .idle | .done | .fail => .next s

/-- R111: `DEC16`. -/
def execDec16 (le lim : Bool) (s : State) : Result := stepDec .w16 le lim s
/-- R114: `DEC32`. -/
def execDec32 (le lim : Bool) (s : State) : Result := stepDec .w32 le lim s
/-- R117: `DEC8`. -/
def execDec8 (le lim : Bool) (s : State) : Result := stepDec .w8 le lim s

end Sys2Proof.Machine
end

