-- ==== Sys2Proof/Machine/EncodeFamily.lean ====
section
/-! DEFINITION. The encode family (41_encode.md): the shared run procedure (R143), the checks (R151), and the meanings of `ENC16` (R144), `ENC32` (R146), `ENC8` (R148). -/

namespace Sys2Proof.Machine

/-- R143, R62: write one flat unit, corrected, to the output or to the two lanes, the first-role lane first (R65). -/
def writeUnit (m : Mode) (le : Bool) (u : List Byte) (s : State) : Access Unit :=
  match m with
  | .w16 => memWrite .tgt (corr le u) s
  | .w32 | .w8 => (memWrite (firstOut le) (firstHalf m le u) s).bind fun _ s1 =>
      memWrite (secondOut le) (secondHalf m le u) s1

/-- R143: a pass over file `j` begins with a rewind; past the last file there is nothing to rewind. -/
def enterFile (j : Nat) (s : State) : Access Unit :=
  match s.input (.file j) with
  | some _ => memRewind (.file j) s
  | none => .ok () s

/-- R142, R143: the pass over the current file ended; with `DUP` the second pass follows, else the next file (log 16). After the last pass of the last file `SRCI` = NSRC and `PASS` = 0, which no rule says and the model chooses (log 29). -/
def nextPass (dup : Bool) (s : State) : Access Unit :=
  if dup && !s.pass then enterFile s.srci (s.setPass true)
  else enterFile (s.srci + 1) ((s.setPass false).setSrci (s.srci + 1))

/-- R143: one iteration of `EncodeRun`: one unit, or the end of a pass; the latch holds nothing afterwards (R38). -/
def encodeIter (m : Mode) (le dup : Bool) (s : State) : Access Unit :=
  (memRead (.file s.srci) m.flatUnit s).bind fun u s1 =>
    if m.flatUnit ≤ u.length then
      (writeUnit m le u (s1.setLatch u)).bind fun _ s2 => .ok () (s2.setLatch [])
    else nextPass dup (s1.setLatch [])

/-- R142: `DUP` = 1 needs every file to have `SEEK` = 1. -/
def State.dupRefusal (s : State) (m : Mode) (dup : Bool) : Option Refusal :=
  if dup && !s.seekable (encUsed m) then some .duplicateNeedsRewind else none

/-- R205, last sentence: the refusal conditions of an encode (log 5), the first in this order named (log 28). -/
def State.encRefusal (s : State) (m : Mode) (dup : Bool) : Option Refusal :=
  (s.dupRefusal m dup).or (s.portRefusal (encUsed m))

/-- R151: the `CHECK` step. -/
def checkEnc (m : Mode) (dup : Bool) (s : State) : Result :=
  checkPorts (s.encRefusal m dup) (encUsed m) s <|
    (enterFile 0 s).andThen (encUsed m) fun _ s1 => .next (s1.setPhase .run)

/-- R143: one `RUN` step; past the last file the operation ends (R151). -/
def runEnc (m : Mode) (le dup : Bool) (s : State) : Result :=
  match s.files with
  | .bound fs =>
    if s.srci < fs.length then (encodeIter m le dup s).andThen (encUsed m) fun _ s1 => .next s1
    else .next (finish (encUsed m) s)
  | .unbound | .released _ => .next (raise .io (encUsed m) s)

/-- One step of an encode operation; in IDLE, DONE and FAIL the transcoder has no step (R27, log 21). -/
def stepEnc (m : Mode) (le dup : Bool) (s : State) : Result :=
  match s.phase with
  | .check => checkEnc m dup s
  | .run => runEnc m le dup s
  | .idle | .done | .fail => .next s

/-- R144: `ENC16`. -/
def execEnc16 (le dup : Bool) (s : State) : Result := stepEnc .w16 le dup s
/-- R146: `ENC32`. -/
def execEnc32 (le dup : Bool) (s : State) : Result := stepEnc .w32 le dup s
/-- R148: `ENC8`. -/
def execEnc8 (le dup : Bool) (s : State) : Result := stepEnc .w8 le dup s

end Sys2Proof.Machine
end

