-- ==== Sys2Proof/Machine/FragmentFamily.lean ====
section
/-! DEFINITION. The fragment family (42_fragment.md): the checks and the run of the split decode (R162 to R164), and the meanings of `SPLITDEC16` (R165), `SPLITDEC32` (R166), `SPLITDEC8` (R167), `FNAME` (R171) and `CHUNK` (R180 to R182). -/

namespace Sys2Proof.Machine

/-! Split decode. -/

/-- R162 (4), R163: the total length, both lanes counted; unequal lanes raise `ERR_LANELEN`. -/
def splitTotal (m : Mode) (s : State) (k : Nat → State → Result) : Result :=
  match m with
  | .w16 => (memLen .src s).andThen (splitUsed m) k
  | .w32 | .w8 => checkLanes (splitUsed m) s k

/-- Whether the run will create fragments named like a resource of the operation (R69, R240, log 8). -/
def State.splitAlias (s : State) (m : Mode) (n : BitVec 8) (base : Name) : Bool :=
  s.fraglim != 0 && s.fraglim.toNat % m.flatUnit == 0 && s.fragAlias (splitUsed m) base n.toNat

/-- R163: the checks passed: `FRAGLIM` is written and the run of fragment 0 begins (log 9, log 15). -/
def State.beginSplit (s : State) (m : Mode) (n : BitVec 8) (base : Name) : Result :=
  if s.splitAlias m n base then .refused .portAlias
  else .next ((s.setRem s.fraglim).setPhase .run)

/-- R162 (5), R163: `TOTAL` is written; it must be divisible by `FRAGCOUNT`. -/
def splitDivide (m : Mode) (n : BitVec 8) (base : Name) (total : Nat) (s : State) : Result :=
  if total % n.toNat = 0 then
    ((s.setTotal (BitVec.ofNat 64 total)).setFraglim (BitVec.ofNat 64 (total / n.toNat))).beginSplit m n base
  else .next (raise .divis (splitUsed m) (s.setTotal (BitVec.ofNat 64 total)))

/-- R162: the `CHECK` step; `FRAGCOUNT` = 0 is an illegal command. An unwritten `BASE` is named before the other refusals (log 28). -/
def checkSplit (m : Mode) (n : BitVec 8) (s : State) : Result :=
  if n = 0 then .next (raise .illcmd .none s)
  else match s.base with
  | .unwritten _ => .refused .unwrittenRegister
  | .written b => checkPorts (s.portRefusal (splitUsed m)) (splitUsed m) s <|
    if s.seekable (splitUsed m) then splitTotal m s (splitDivide m n b)
    else .next (raise .noseek (splitUsed m) s)

/-- R164: the run of fragment `FIDX` ended: the next fragment begins, or the operation ends. -/
def splitBoundary (m : Mode) (n : BitVec 8) (s : State) : State :=
  if s.fidx.toNat + 1 < n.toNat then (s.setFidx (s.fidx + 1)).setRem s.fraglim
  else finish (splitUsed m) s

/-- R164: one `RUN` step; the budget must be a multiple of the unit (R61, R162 (6), log 9). -/
def runSplit (m : Mode) (le : Bool) (n : BitVec 8) (s : State) : Result :=
  match s.base with
  | .unwritten _ => .refused .unwrittenRegister
  | .written b =>
    if s.fraglim.toNat % m.flatUnit = 0 then
      (decodeIter m le true (.frag s.fidx.toNat b) s).andThen (splitUsed m) fun ev s1 =>
        match ev with
        | .budget | .exhausted => .next (splitBoundary m n s1)
        | .moved => .next s1
    else .refused .limitNotUnitMultiple

/-- One step of a split decode; in IDLE, DONE and FAIL the transcoder has no step (R27, log 21). -/
def stepSplit (m : Mode) (le : Bool) (n : BitVec 8) (s : State) : Result :=
  match s.phase with
  | .check => checkSplit m n s
  | .run => runSplit m le n s
  | .idle | .done | .fail => .next s

/-- R165: `SPLITDEC16`. -/
def execSplitDec16 (le : Bool) (n : BitVec 8) (s : State) : Result := stepSplit .w16 le n s
/-- R166: `SPLITDEC32`. -/
def execSplitDec32 (le : Bool) (n : BitVec 8) (s : State) : Result := stepSplit .w32 le n s
/-- R167: `SPLITDEC8`. -/
def execSplitDec8 (le : Bool) (n : BitVec 8) (s : State) : Result := stepSplit .w8 le n s

/-! FNAME. -/

/-- R171: the `CHECK` step, which is the whole operation. -/
def checkFname (s : State) : Result :=
  match s.base, s.index with
  | .written b, .written n => .next (finish .none (s.setNameout (fragName b n.toNat)))
  | _, _ => .refused .unwrittenRegister

/-- R171: `FNAME`; it has no `RUN` step (R40), so a `RUN` phase, which no run reaches, just ends (log 21). -/
def execFname (s : State) : Result :=
  match s.phase with
  | .check => checkFname s
  | .run => .next (finish .none s)
  | .idle | .done | .fail => .next s

/-! CHUNK. -/

/-- R183: how many fragments a chunk of `n` bytes into pieces of `size` creates. -/
def chunkCount (n size : Nat) : Nat := min ((n + size - 1) / size) Config.maxFragments

/-- Whether the run will create fragments named like a resource of the operation (R69, R240, log 8). -/
def State.chunkAlias (s : State) (base : Name) (size : Nat) : Bool :=
  decide (Config.minChunkSize ≤ size) &&
  match s.src.active with
  | some st => s.fragAlias chunkUsed base (chunkCount st.data.length size)
  | none => false

/-- R181: the `CHECK` step; an unwritten register, then a fragment's name, then a port's refusal is named (log 28). -/
def checkChunk (s : State) : Result :=
  match s.base, s.maxsize with
  | .written b, .written size =>
    if s.chunkAlias b size.toNat then .refused .portAlias
    else checkPorts (s.portRefusal chunkUsed) chunkUsed s <|
      if size.toNat < Config.minChunkSize then .next (raise .minsize chunkUsed s)
      else .next (((s.setFidx 0).setFcnt 0).setPhase .run)
  | _, _ => .refused .unwrittenRegister

/-- R182: count the byte just written; a full fragment is followed by the next. -/
def State.countByte (s : State) (size : Nat) : State :=
  if s.fcnt + 1 = size then (s.setFidx (s.fidx + 1)).setFcnt 0 else s.setFcnt (s.fcnt + 1)

/-- R182, R184: the end of the run after the 128th fragment; a byte `b` still there sets `WARN` and is discarded. -/
def chunkCeiling (b : List Byte) (s : State) : State :=
  finish chunkUsed (if b.length = 1 then s.setWarn true else s)

/-- R182: one `RUN` step. -/
def runChunk (s : State) : Result :=
  match s.base, s.maxsize with
  | .written base, .written size =>
    (memRead .src 1 s).andThen chunkUsed fun b s1 =>
      if s1.fidx.toNat = Config.maxFragments then .next (chunkCeiling b s1)
      else if b.length < 1 then .next (finish chunkUsed s1)
      else (memWrite (.frag s1.fidx.toNat base) b (s1.setLatch b)).andThen chunkUsed fun _ s2 =>
        .next ((s2.setLatch []).countByte size.toNat)
  | _, _ => .refused .unwrittenRegister

/-- R180: `CHUNK`. -/
def execChunk (s : State) : Result :=
  match s.phase with
  | .check => checkChunk s
  | .run => runChunk s
  | .idle | .done | .fail => .next s

end Sys2Proof.Machine
end

