-- ==== Sys2Proof/Machine/Dispatch.lean ====
section
/-! DEFINITION. The dispatch of a decoded command to its meaning, one arm per constructor. -/

namespace Sys2Proof.Machine

def exec (i : Instr) (s : State) : Host.Outcome State Fault Refusal :=
  match i with
  | .dec16 le lim => Sys2Proof.Machine.execDec16 le lim s
  | .dec32 le lim => Sys2Proof.Machine.execDec32 le lim s
  | .dec8 le lim => Sys2Proof.Machine.execDec8 le lim s
  | .enc16 le dup => Sys2Proof.Machine.execEnc16 le dup s
  | .enc32 le dup => Sys2Proof.Machine.execEnc32 le dup s
  | .enc8 le dup => Sys2Proof.Machine.execEnc8 le dup s
  | .splitDec16 le n => Sys2Proof.Machine.execSplitDec16 le n s
  | .splitDec32 le n => Sys2Proof.Machine.execSplitDec32 le n s
  | .splitDec8 le n => Sys2Proof.Machine.execSplitDec8 le n s
  | .fname => Sys2Proof.Machine.execFname s
  | .chunk => Sys2Proof.Machine.execChunk s

end Sys2Proof.Machine
end

