-- ==== Sys2Proof/Machine/HostInterface.lean ====
section
/-! DEFINITION. The host's moves (10_state.md R21, R22, R25, R36; 60_exceptions.md R209; 70_reset_and_hazards.md R230, R232, R237), the transcoder's step (R27, R92), and which of the two comes next (log 3). -/

namespace Sys2Proof.Machine

/-- R237, R40: a register write or a rebinding has a meaning only while `BUSY` = 0. -/
def whenIdle (s : State) (t : State) : Result := if s.busy then .refused .writeWhileBusy else .next t

/-- R36: bind an input stream; its cursor starts at 0 (log 23). -/
def State.bindIn (s : State) (p : InPort) (x : Source) : State :=
  match p with
  | .src => s.setSrc (.bound x.open)
  | .low => s.setLow (.bound x.open)
  | .high => s.setHigh (.bound x.open)

/-- R36: bind an output stream; nothing has been written to it (log 23). -/
def State.bindOut (s : State) (p : OutPort) (res : Name) : State :=
  match p with
  | .tgt => s.setTgt (.bound ⟨res, []⟩)
  | .lowo => s.setLowo (.bound ⟨res, []⟩)
  | .higho => s.setHigho (.bound ⟨res, []⟩)

/-- R209: the environment faults the binding of a port, and nothing is bound there (log 27). -/
def State.unbind (s : State) (p : HostPort) : State :=
  match p with
  | .src => s.setSrc .unbound
  | .low => s.setLow .unbound
  | .high => s.setHigh .unbound
  | .files => s.setFiles .unbound
  | .tgt => s.setTgt .unbound
  | .lowo => s.setLowo .unbound
  | .higho => s.setHigho .unbound

/-- R236, R237: whether a host read of `r` returns an unspecified value now. -/
def State.readIsFree (s : State) : Reg → Bool
  | .limit => !s.limit.isWritten
  | .maxsize => !s.maxsize.isWritten
  | .index => !s.index.isWritten
  | .base => !s.base.isWritten
  | .fidx | .rem | .total | .fraglim | .nfrag => s.busy
  | .cmd | .status | .errcode | .nameout | .portattr => false

/-- A host read changes nothing of the ILT; the model notes what it returned and uses up a free value (log 11). -/
def State.hostRead (s : State) (r : Reg) : State :=
  (s.setLastRead (some (s.readReg r))).setFreeCtr (if s.readIsFree r then s.freeCtr + 1 else s.freeCtr)

/-- R237: the run has passed through one more moment; when it ends, what it passed through is no longer read (log 11). -/
@[simps] def State.note (s : State) : State := { s with passed := if s.busy then s.progress :: s.passed else [] }

/-- The next state, with its moment noted. -/
def noted (r : Result) : Result :=
  match r with
  | .next t => .next t.note
  | .fault f => .fault f
  | .refused x => .refused x

/-- R27, R92: one step of the transcoder: the command in `CMD` is decoded and run; an illegal one raises `ERR_ILLCMD`. -/
def transcoderStep (s : State) : Result :=
  if s.busy then
    noted <|
      match decode s.cmd with
      | .ok i => exec i s
      | .error _ => .next (raise .illcmd .none s)
  else .next s

/-- R232: what the output bound to `p` holds, of which `q` is the port after part of a step. -/
def leftOf (p q : Port OutStream) : List OutStream := if p.isBound then q.shown.toList else []

/-- R232: the resources bound as outputs in `s`, and the fragments, with what had been written to them in `t`. -/
def writtenOutputs (s t : State) : List (Name × List Byte) :=
  (leftOf s.tgt t.tgt ++ leftOf s.lowo t.lowo ++ leftOf s.higho t.higho).map (fun o => (o.res, o.out)) ++
  t.frags.map (fun f => (f.name, f.bytes))

/-- R232, R209: the state a reset strikes inside the coming step, as an I/O fault at that access would leave it (log 17). -/
def State.struck (s : State) (served landed : Nat) (created : Bool) : State :=
  match transcoderStep (s.setIoFaults [⟨served, .fail landed created⟩]) with
  | .next t => t
  | .fault _ | .refused _ => s

/-- R230 to R232: reset, with the outputs as they stand in `t`; the host's and the environment's own data go on (log 17). -/
@[simps] def State.resetLeaving (s t : State) : State :=
  { State.reset with
    host := s.host
    ioFaults := s.ioFaults
    lastRead := s.lastRead
    freeCtr := s.freeCtr
    leftBehind := if s.busy then writtenOutputs s t else s.leftBehind }

/-- One move of the host; `wait` and `tick` are `nextMove`'s. -/
def hostMove (m : HostMove) (s : State) : Result :=
  match m with
  | .writeCmd w => whenIdle s (s.start w)
  | .writeLimit v => whenIdle s (s.setLimit (.written v))
  | .writeMaxsize v => whenIdle s (s.setMaxsize (.written v))
  | .writeIndex v => whenIdle s (s.setIndex (.written v))
  | .writeBase b =>
      if s.busy then .refused .writeWhileBusy
      else if nameFits b then .next (s.setBase (.written b)) else .refused .nameTooLong
  | .writeReadOnly _ => whenIdle s s
  | .bindIn p x => whenIdle s (s.bindIn p x)
  | .bindFiles xs => whenIdle s (s.setFiles (.bound (xs.map Source.open)))
  | .bindOut p res => whenIdle s (s.bindOut p res)
  | .bindFails p => whenIdle s (s.unbind p)
  | .read r => .next (s.hostRead r)
  | .reset => .next (s.resetLeaving s)
  | .resetInside served landed created => .next (s.resetLeaving (s.struck served landed created))
  | .wait => .next s
  | .tick => .next s

/-- A tick at an access the environment has not answered passes with nothing done, and `BUSY` stays 1 (U16, log 14). -/
def passTick (s : State) (r : Result) : Result :=
  match r with
  | .fault _ => .next s
  | .next t => .next t
  | .refused x => .refused x

/-- Which agent moves next: the host's coming moves say (log 3); with none, the transcoder. -/
def nextMove (s : State) : Result :=
  match s.host with
  | [] => transcoderStep s
  | .tick :: rest => passTick (s.setHost rest) (transcoderStep (s.setHost rest))
  | .wait :: rest => if s.busy then transcoderStep s else .next (s.setHost rest)
  | m :: rest => hostMove m (s.setHost rest)

/-- A command word stored where the next step takes its command: the host's `CMD` write of R27 has just been made, and the transcoder is next (log 2). -/
def State.placeCommand (s : State) (w : CmdWord) : State := (s.start w).setHost (.tick :: s.host)

end Sys2Proof.Machine
end

