-- ==== Sys2Proof/Machine/Toolchain.lean ====
section
/-! DEFINITION. The three command-line tools as a host: each parsed command line expands to bindings, register writes and one `CMD` write (30_encoding.md R100, R101), and the outcome becomes an exit code (60_exceptions.md R214). No step of the ILT depends on this file. -/

namespace Sys2Proof.Machine

/-- R100: the parsed flags of the decode tool. -/
structure DecodeArgs where
  target : Name
  fromArg : Option Source
  lowArg : Option Source
  highArg : Option Source
  split : Option Nat
  eight : Bool
  little : Bool
  deriving DecidableEq, Repr

/-- R100: the parsed flags of the encode tool. -/
structure EncodeArgs where
  sources : List Source
  toArg : Option Name
  lowArg : Option Name
  highArg : Option Name
  duplicate : Bool
  eight : Bool
  little : Bool
  deriving DecidableEq, Repr

/-- R100: the parsed flags of the chunk tool; the size string is already a number (R7). -/
structure ChunkArgs where
  file : Source
  size : Len
  deriving DecidableEq, Repr

/-- R100: the bindings of the decode tool's inputs and the word mode; none for a combination the table forbids. -/
def DecodeArgs.inputs (a : DecodeArgs) : Option (Mode × List HostMove) :=
  match a.fromArg, a.lowArg, a.highArg with
  | some x, none, none => if a.eight then none else some (.w16, [.bindIn .src x])
  | none, some l, some h => some (if a.eight then .w8 else .w32, [.bindIn .low l, .bindIn .high h])
  | _, _, _ => none

/-- The decode operation of a mode without a budget. -/
def decOf (m : Mode) (le : Bool) : Instr :=
  match m with
  | .w16 => .dec16 le false
  | .w32 => .dec32 le false
  | .w8 => .dec8 le false

/-- The split decode of a mode. -/
def splitOf (m : Mode) (le : Bool) (n : BitVec 8) : Instr :=
  match m with
  | .w16 => .splitDec16 le n
  | .w32 => .splitDec32 le n
  | .w8 => .splitDec8 le n

/-- The encode operation of a mode. -/
def encOf (m : Mode) (le dup : Bool) : Instr :=
  match m with
  | .w16 => .enc16 le dup
  | .w32 => .enc32 le dup
  | .w8 => .enc8 le dup

/-- R101, N9: a decode without `--split`, or with `--split 1` where the tool takes that as no split (log 25). -/
def DecodeArgs.unsplit (a : DecodeArgs) : Bool :=
  match a.split with
  | none => true
  | some n => n == 1 && !Config.splitOneIsSplit

/-- R101: the decode tool; none where R100 forbids the flags. -/
def DecodeArgs.expand (a : DecodeArgs) : Option (List HostMove) :=
  match a.inputs with
  | none => none
  | some (m, binds) =>
    if a.split.all (fun n => n == 1 || n == 2 || n == 4 || n == 8) then
      if a.unsplit then
        some (binds ++ [.bindOut .tgt a.target, .writeCmd (encode (decOf m a.little)), .wait])
      else
        some (binds ++ [.writeBase a.target,
          .writeCmd (encode (splitOf m a.little (BitVec.ofNat 8 (a.split.getD 1)))), .wait])
    else none

/-- R101: the encode tool; none where R100 forbids the flags. -/
def EncodeArgs.expand (a : EncodeArgs) : Option (List HostMove) :=
  if a.sources.isEmpty then none
  else match a.toArg, a.lowArg, a.highArg with
  | some t, none, none =>
    if a.eight then none
    else some [.bindFiles a.sources, .bindOut .tgt t, .writeCmd (encode (encOf .w16 a.little a.duplicate)), .wait]
  | none, some l, some h =>
    some [.bindFiles a.sources, .bindOut .lowo l, .bindOut .higho h,
      .writeCmd (encode (encOf (if a.eight then .w8 else .w32) a.little a.duplicate)), .wait]
  | _, _, _ => none

/-- R101: the chunk tool; a size below 8192 is expanded like any other and left to the ILT's `ERR_MINSIZE` (R204), the model's choice (log 30). -/
def ChunkArgs.expand (a : ChunkArgs) : List HostMove :=
  [.bindIn .src a.file, .writeBase a.file.res, .writeMaxsize a.size, .writeCmd (encode .chunk), .wait]

/-- R214: the exit code of a host that wants the tools' behaviour; none where the spec gives no code (an I/O error, or no outcome yet). -/
def State.exitCode (s : State) : Option Nat :=
  match s.phase with
  | .done => some 0
  | .fail => if s.errcode = Err.io.code then none else some 1
  | .idle | .check | .run => none

end Sys2Proof.Machine
end

