-- ==== Sys2Proof/Safety.lean ====
section
/-! DEFINITION. The terms claims are made in: runs of the machine, the nine launch premises (70_reset_and_hazards.md R235), the closed forms of the operations (40_decode.md R112, R115, R118; 41_encode.md R145, R147, R149), and the invariant of the machine. -/

namespace Sys2Proof.Machine

/-! Runs. -/

/-- `t` is reached from `s` by steps. -/
def Steps (s t : State) : Prop := Relation.ReflTransGen (fun a b => step a = .next b) s t

/-- A run from `s` comes to `t`, where no operation is running. -/
def EndsAt (s t : State) : Prop := Steps s t ∧ t.busy = false

/-! The launch premises (R235). -/

/-- R89: the ports an operation uses. -/
def usedPorts : Instr → Used
  | .dec16 _ _ => decUsed .w16
  | .dec32 _ _ => decUsed .w32
  | .dec8 _ _ => decUsed .w8
  | .enc16 _ _ => encUsed .w16
  | .enc32 _ _ => encUsed .w32
  | .enc8 _ _ => encUsed .w8
  | .splitDec16 _ _ => splitUsed .w16
  | .splitDec32 _ _ => splitUsed .w32
  | .splitDec8 _ _ => splitUsed .w8
  | .fname => Used.none
  | .chunk => chunkUsed

/-- R235 OperandsWritten: the host has written every operand register the operation reads (R25). -/
def OperandsWritten (i : Instr) (s : State) : Prop :=
  match i with
  | .dec16 _ lim | .dec32 _ lim | .dec8 _ lim => lim = true → s.limit.isWritten = true
  | .enc16 _ _ | .enc32 _ _ | .enc8 _ _ => True
  | .splitDec16 _ _ | .splitDec32 _ _ | .splitDec8 _ _ => s.base.isWritten = true
  | .fname => s.base.isWritten = true ∧ s.index.isWritten = true
  | .chunk => s.base.isWritten = true ∧ s.maxsize.isWritten = true

/-- The decode operation of a mode. -/
def decodeOp (m : Mode) (le lim : Bool) : Instr :=
  match m with
  | .w16 => .dec16 le lim
  | .w32 => .dec32 le lim
  | .w8 => .dec8 le lim

/-- R163: the total length of a split decode, both lanes counted. -/
def splitLength (m : Mode) (s : State) : Nat :=
  (((s.usedInputs (splitUsed m)).flatten).map (fun st => st.data.length)).sum

/-- No fragment the operation may create is named like a resource of the operation (R69, R240). -/
def NoFragAlias (i : Instr) (s : State) : Prop :=
  match i with
  | .splitDec16 _ n => ∀ b, s.base = .written b → s.fragAlias (splitUsed .w16) b n.toNat = false
  | .splitDec32 _ n => ∀ b, s.base = .written b → s.fragAlias (splitUsed .w32) b n.toNat = false
  | .splitDec8 _ n => ∀ b, s.base = .written b → s.fragAlias (splitUsed .w8) b n.toNat = false
  | .chunk => ∀ b size, s.base = .written b → s.maxsize = .written size → s.chunkAlias b size.toNat = false
  | _ => True

/-- R61: the budget of a split decode, when the total is divisible, is a multiple of the flat unit. -/
def SplitAligned (m : Mode) (n : BitVec 8) (s : State) : Prop :=
  splitLength m s % n.toNat = 0 → splitLength m s / n.toNat % m.flatUnit = 0

/-- R61: the budget `LIMIT` of a decode with `LIM` is a multiple of the flat unit. -/
def LimitAligned (m : Mode) (lim : Bool) (s : State) : Prop :=
  lim = true → ∀ v, s.limit = .written v → v.toNat % m.flatUnit = 0

/-- R235 BudgetAligned, for the operations whose budget is `LIMIT`; a split decode's budget is known only after its checks (R61). -/
def LimitFits (i : Instr) (s : State) : Prop :=
  match i with
  | .dec16 _ lim => LimitAligned .w16 lim s
  | .dec32 _ lim => LimitAligned .w32 lim s
  | .dec8 _ lim => LimitAligned .w8 lim s
  | _ => True

/-- R235 BudgetAligned. -/
def BudgetAligned (i : Instr) (s : State) : Prop :=
  match i with
  | .splitDec16 _ n => SplitAligned .w16 n s
  | .splitDec32 _ n => SplitAligned .w32 n s
  | .splitDec8 _ n => SplitAligned .w8 n s
  | i => LimitFits i s

/-- R235 LanesSeekable: both lanes of an unsplit dual-lane decode have `SEEK` = 1. -/
def LanesSeekable (i : Instr) (s : State) : Prop :=
  match i with
  | .dec32 _ _ | .dec8 _ _ => s.seekable (usedPorts i) = true
  | _ => True

/-- R235 DupRewindable: every file of an encode with `DUP` = 1 has `SEEK` = 1. -/
def DupRewindable (i : Instr) (s : State) : Prop :=
  match i with
  | .enc16 _ dup | .enc32 _ dup | .enc8 _ dup => dup = true → s.seekable (usedPorts i) = true
  | _ => True

/-- R235: the nine launch premises of an operation, and a host that makes no further move. -/
structure Launch (i : Instr) (s : State) : Prop where
  notBusy : s.busy = false
  portsBound : s.portsBound (usedPorts i) = true
  operandsWritten : OperandsWritten i s
  noPortAlias : s.portAlias (usedPorts i) = false
  noFragAlias : NoFragAlias i s
  noIOFault : s.ioFaults = []
  lengthsFit : s.lengthsFit (usedPorts i) = true
  budgetAligned : BudgetAligned i s
  lanesSeekable : LanesSeekable i s
  dupRewindable : DupRewindable i s
  hostQuiet : s.host = []

/-! The closed forms. -/

/-- The bytes bound to an input port. -/
def bytesOf (p : Port InStream) : List Byte :=
  match p.active with
  | some st => st.data
  | none => []

/-- The bytes written to an output port. -/
def writtenTo (p : Port OutStream) : List Byte :=
  match p.shown with
  | some o => o.out
  | none => []

/-- R115: the data of the first-role lane, R112: of the single stream. -/
def firstData (m : Mode) (le : Bool) (s : State) : List Byte :=
  match m with
  | .w16 => bytesOf s.src
  | .w32 | .w8 => if le then bytesOf s.low else bytesOf s.high

/-- R115: the data of the second-role lane. -/
def secondData (m : Mode) (le : Bool) (s : State) : List Byte :=
  match m with
  | .w16 => []
  | .w32 | .w8 => if le then bytesOf s.high else bytesOf s.low

/-- R57, decode: the flat bytes of unit `i` from the lane bytes at that place. -/
def flatUnitAt (m : Mode) (le : Bool) (f g : List Byte) (i : Nat) : List Byte :=
  match m with
  | .w16 => corr le [f.getD (2 * i) 0, f.getD (2 * i + 1) 0]
  | .w32 => corr le [f.getD (2 * i) 0, f.getD (2 * i + 1) 0] ++ corr le [g.getD (2 * i) 0, g.getD (2 * i + 1) 0]
  | .w8 => [f.getD i 0, g.getD i 0]

/-- R112, R115, R118: the first `n` units, decoded. -/
def decoded (m : Mode) (le : Bool) (f g : List Byte) (n : Nat) : List Byte :=
  (List.range n).flatMap (flatUnitAt m le f g)

/-- R112, R115, R118: the number of whole units a decode without a budget moves. -/
def unitsOf (m : Mode) (f : List Byte) : Nat := f.length / m.laneUnit

/-- R112, R115, R118: `n`, the number of units a decode moves. -/
def decUnits (m : Mode) (lim : Bool) (f : List Byte) (budget : Len) : Nat :=
  if lim then min (unitsOf m f) (budget.toNat / m.flatUnit) else unitsOf m f

/-- R145, R147, R149: what the first-role lane (the single output in `W16`) receives of unit `i` of a file. -/
def firstAt (m : Mode) (le : Bool) (d : List Byte) (i : Nat) : List Byte :=
  match m with
  | .w16 => corr le [d.getD (2 * i) 0, d.getD (2 * i + 1) 0]
  | .w32 => corr le [d.getD (4 * i) 0, d.getD (4 * i + 1) 0]
  | .w8 => [d.getD (2 * i) 0]

/-- R147, R149: what the second-role lane receives of unit `i` of a file; nothing in `W16`. -/
def secondAt (m : Mode) (le : Bool) (d : List Byte) (i : Nat) : List Byte :=
  match m with
  | .w16 => []
  | .w32 => corr le [d.getD (4 * i + 2) 0, d.getD (4 * i + 3) 0]
  | .w8 => [d.getD (2 * i + 1) 0]

/-! One step's unit. -/

/-- R89, R62: the input ports a decode of mode `m` has, which is also the number of reads before its write. -/
def inputCount : Mode → Nat
  | .w16 => 1
  | .w32 | .w8 => 2

/-- R33: what an input port has still to give. -/
def restOf (p : Port InStream) : List Byte :=
  match p.active with
  | some st => st.data.drop st.pos
  | none => []

/-- R60: every input of a decode of mode `m` has a whole unit left. -/
def unitThere (m : Mode) (s : State) : Prop :=
  match m with
  | .w16 => 2 ≤ (restOf s.src).length
  | .w32 | .w8 => m.laneUnit ≤ (restOf s.low).length ∧ m.laneUnit ≤ (restOf s.high).length

/-- R57, decode: the flat bytes of the unit that comes next. -/
def nextUnit (m : Mode) (le : Bool) (s : State) : List Byte :=
  match m with
  | .w16 => flatUnitAt .w16 le (restOf s.src) [] 0
  | .w32 | .w8 =>
    if le then flatUnitAt m le (restOf s.low) (restOf s.high) 0 else flatUnitAt m le (restOf s.high) (restOf s.low) 0

/-- R145: `rep(DUP, s)`. -/
def rep (dup : Bool) (x : List Byte) : List Byte := if dup then x ++ x else x

/-- R145, R147, R149: what the files yield on the first-role lane. -/
def encodedFirst (m : Mode) (le dup : Bool) (files : List (List Byte)) : List Byte :=
  files.flatMap fun d => rep dup ((List.range (d.length / m.flatUnit)).flatMap (firstAt m le d))

/-- R147, R149: what the files yield on the second-role lane. -/
def encodedSecond (m : Mode) (le dup : Bool) (files : List (List Byte)) : List Byte :=
  files.flatMap fun d => rep dup ((List.range (d.length / m.flatUnit)).flatMap (secondAt m le d))

/-- The data of the files bound to `FILES`, in order. -/
def fileData (s : State) : List (List Byte) :=
  match s.files.active with
  | some fs => fs.map InStream.data
  | none => []

/-- The output port of the first-role lane, `TGT` in `W16` (R56). -/
def firstPort (m : Mode) (le : Bool) (s : State) : Port OutStream :=
  match m with
  | .w16 => s.tgt
  | .w32 | .w8 => if le then s.lowo else s.higho

/-- The output port of the second-role lane (R56); in `W16` there is none and `LOWO` stands in, unused. -/
def secondPort (m : Mode) (le : Bool) (s : State) : Port OutStream :=
  match m with
  | .w16 => s.lowo
  | .w32 | .w8 => if le then s.higho else s.lowo

/-- The `RUN` step of the operation begins with a stream read (R110, R143, R164, R182). -/
def readsNext (i : Instr) (s : State) : Prop :=
  match i with
  | .dec16 _ lim | .dec32 _ lim | .dec8 _ lim => lim = true → s.rem ≠ 0
  | .enc16 _ _ | .enc32 _ _ | .enc8 _ _ => ∃ fs, s.files = .bound fs ∧ s.srci < fs.length
  | .splitDec16 _ _ | .splitDec8 _ _ => s.base.isWritten = true ∧ s.fraglim.toNat % 2 = 0 ∧ s.rem ≠ 0
  | .splitDec32 _ _ => s.base.isWritten = true ∧ s.fraglim.toNat % 4 = 0 ∧ s.rem ≠ 0
  | .fname => False
  | .chunk => s.base.isWritten = true ∧ s.maxsize.isWritten = true

/-- What a host binds an input to, without the cursor: the resource, the bytes, the `SEEK` attribute (R33). -/
def sourceOf (p : Port InStream) : Option (Name × List Byte × Bool) :=
  p.shown.map fun st => (st.res, st.data, st.seek)

/-- The same of every file bound to `FILES`. -/
def fileSources (p : Port (List InStream)) : Option (List (Name × List Byte × Bool)) :=
  p.shown.map fun fs => fs.map fun st => (st.res, st.data, st.seek)

/-! The invariant. -/

/-- R33: a cursor stands inside its stream. -/
def InStream.inside (st : InStream) : Prop := st.pos ≤ st.data.length

/-- R33, for a port's stream. -/
def cursorInside (p : Port InStream) : Prop := ∀ st, p.shown = some st → st.inside

/-- R26: an index bound: 0 in `CHECK`, at most 128 while `CHUNK` runs, and at most 254 always. -/
def indexBounded (s : State) : Prop :=
  s.fidx.toNat ≤ 254 ∧ (s.phase = .check → s.fidx = 0) ∧
  (s.phase = .run → decode s.cmd = .ok .chunk → s.fidx.toNat ≤ 128)

/-- What every state of the machine keeps: canonical fragments counted by `NFRAG` (R35), cursors inside their streams (R33), `ERRCODE` and `ERR` together (R24), `WARN` only with `DONE` (R23), an empty unit latch between steps (R38), names within their widths (R21), a bounded index (R26), and the moment of now among those a host read may show while `BUSY` = 1 (R237, log 11). -/
structure Inv (s : State) : Prop where
  fragsCanonical : s.frags.wf = true
  nfragCounts : s.nfrag = BitVec.ofNat 64 s.frags.length
  srcInside : cursorInside s.src
  lowInside : cursorInside s.low
  highInside : cursorInside s.high
  filesInside : ∀ fs, s.files.shown = some fs → ∀ st ∈ fs, st.inside
  errcodeWithErr : s.errcode = 0 ↔ s.phase ≠ .fail
  errcodeKnown : s.errcode.toNat ≤ 6
  warnWithDone : s.warn = true → s.phase = .done
  latchEmpty : s.latch = []
  baseFits : ∀ b, s.base = .written b ∨ s.base = .unwritten b → b.length ≤ Config.nameMax
  nameoutFits : s.nameout.length ≤ Config.nameMax + 21
  fidxBounded : indexBounded s
  passedNow : if s.busy then s.passed.head? = some s.progress else s.passed = []

/-- R40: the phase movements of a transcoder step on the operation in `CMD`. -/
def phaseMoves (s t : State) : Prop :=
  match s.phase with
  | .check => t.phase = .fail ∨ (t.phase = .done ∧ decode s.cmd = .ok .fname) ∨
      (t.phase = .run ∧ decode s.cmd ≠ .ok .fname)
  | .run => t.phase = .run ∨ t.phase = .done ∨ t.phase = .fail
  | .idle | .done | .fail => t = s

end Sys2Proof.Machine
end

