-- ==== Sys2Proof/Certificates/Slice0/Obligations.lean ====
section
/-! DEFINITION. The statements about the model, one `def Obligations.<Name> : Prop` each; OBLIGATIONS.json lists them. -/

open Sys2Proof Sys2Proof.Machine

/-! Encoding. -/

/-- 95_test_vectors.md V80 to V83 and S2 to S9: legal words written out, one for each row of R90. -/
def Obligations.WrittenWordsDecode : Prop :=
  decode 0b00000000000000000000000101000001#32 = .ok (.dec16 true true) ∧
  decode 0b00000000000000000000000100010001#32 = .ok (.dec32 false true) ∧
  decode 0b00000000000000000000000001100001#32 = .ok (.dec8 true false) ∧
  decode 0b00000000000000000000000010000010#32 = .ok (.enc16 false true) ∧
  decode 0b00000000000000000000000011010010#32 = .ok (.enc32 true true) ∧
  decode 0b00000000000000000000000001100010#32 = .ok (.enc8 true false) ∧
  decode 0b00000000000001000000000000000011#32 = .ok (.splitDec16 false 4) ∧
  decode 0b00000000000000010000000000010011#32 = .ok (.splitDec32 false 1) ∧
  decode 0b00000000111111110000000001100011#32 = .ok (.splitDec8 true 255) ∧
  decode 0b00000000000000000000000000000100#32 = .ok .fname ∧
  decode 0b00000000000000000000000000000101#32 = .ok .chunk

/-- R87 to R95: no bit of an encoding is dropped. -/
def Obligations.DecodeOfEncodeGivesBack : Prop :=
  ∀ i : Instr, i.wf = true → decode (encode i) = .ok i

/-- R95: a legal word is the encoding of the one well-formed instruction it decodes to. -/
def Obligations.LegalWordsAreEncodings : Prop :=
  ∀ (c : CmdWord) (i : Instr), decode c = .ok i → i.wf = true ∧ encode i = c

/-- R90: the rows of the opcode map select exactly the words that decode to their operation. -/
def Obligations.OpcodeMapSelectsWhatDecodes : Prop :=
  ∀ (c : CmdWord), ∀ r ∈ opcodeRows,
    (r.selects c = true ↔ ∃ i, decode c = .ok i ∧ i.mnemonic = r.mnemonic)

/-- R95: the legal words number 1556. -/
def Obligations.LegalWordsNumber1556 : Prop :=
  ∃ l : List CmdWord, l.Nodup ∧ l.length = 1556 ∧ ∀ c, c ∈ l ↔ ∃ i, decode c = .ok i

/-- R92: an illegal command ends the CHECK step with ERR_ILLCMD and changes nothing else: no stream is released, the model's reading of R92 against R210 (log 6), and `passed` is the model's note of the run that ended (log 11). -/
def Obligations.IllegalCommandRaisesIllcmd : Prop :=
  ∀ (s : State) (e : Illegal), s.host = [] → s.phase = .check → decode s.cmd = .error e →
    step s = .next { s with errcode := 1, phase := .fail, latch := [], passed := [] }

/-! The host's moves. -/

/-- R27: what a host write to CMD does while BUSY = 0; `passed` is the model's note of the run's first moment (log 11). -/
def Obligations.CmdWriteStartsOperation : Prop :=
  ∀ (s : State) (w : CmdWord) (rest : List HostMove), s.host = .writeCmd w :: rest → s.busy = false →
    ∃ t, step s = .next t ∧ t.host = rest ∧ t.cmd = w ∧ t.phase = .check ∧ t.errcode = 0 ∧ t.warn = false ∧
      t.fidx = 0 ∧ t.rem = 0 ∧ t.nfrag = 0 ∧ t.srci = 0 ∧ t.pass = false ∧ t.fcnt = 0 ∧ t.frags = [] ∧
      writtenTo t.tgt = [] ∧ writtenTo t.lowo = [] ∧ writtenTo t.higho = [] ∧
      (∀ st, s.src = .bound st → t.src = .bound { st with pos := 0 }) ∧
      (∀ st, s.low = .bound st → t.low = .bound { st with pos := 0 }) ∧
      (∀ st, s.high = .bound st → t.high = .bound { st with pos := 0 }) ∧
      (∀ fs, s.files = .bound fs → t.files = .bound (fs.map fun st => { st with pos := 0 })) ∧
      t.limit = s.limit ∧ t.maxsize = s.maxsize ∧ t.index = s.index ∧ t.base = s.base ∧
      t.nameout = s.nameout ∧ t.total = s.total ∧ t.fraglim = s.fraglim ∧ t.passed = [t.progress]

/-- R237, U7: a host write or rebinding while BUSY = 1 is refused; waiting, reading, reset and letting the transcoder step are not. -/
def Obligations.WritesWhileBusyRefused : Prop :=
  ∀ (s : State) (m : HostMove) (rest : List HostMove), s.host = m :: rest → s.busy = true →
    m ≠ .wait → m ≠ .tick → m ≠ .reset → (∀ k l c, m ≠ .resetInside k l c) → (∀ r, m ≠ .read r) →
    step s = .refused .writeWhileBusy

/-- R237, R21, R22, R236, U12: a register read is allowed in every phase and changes no register; it returns what the register holds, some value from an unwritten register, and while BUSY = 1 a value FIDX, REM, TOTAL, FRAGLIM or NFRAG has had in this run; the note of what it returned and the list of moments are the model's (log 11). -/
def Obligations.ReadsAllowedInEveryPhase : Prop :=
  (∀ (s : State) (r : Reg) (rest : List HostMove), s.host = .read r :: rest →
    ∃ n, (n = s.freeCtr ∨ n = s.freeCtr + 1) ∧
      step s = .next { s with host := rest, lastRead := some (s.readReg r), freeCtr := n }) ∧
  ∀ s : State,
    s.readReg .cmd = .num s.cmd.toNat ∧ s.readReg .status = .num s.status.toNat ∧
    s.readReg .errcode = .num s.errcode.toNat ∧ s.readReg .nameout = .name s.nameout ∧
    s.readReg .portattr = .num s.portattr.toNat ∧
    (∀ v, s.limit = .written v → s.readReg .limit = .num v.toNat) ∧
    (∀ v, s.maxsize = .written v → s.readReg .maxsize = .num v.toNat) ∧
    (∀ v, s.index = .written v → s.readReg .index = .num v.toNat) ∧
    (∀ b, s.base = .written b → s.readReg .base = .name b) ∧
    (s.limit.isWritten = false → ∃ v : Len, s.readReg .limit = .num v.toNat) ∧
    (s.maxsize.isWritten = false → ∃ v : Len, s.readReg .maxsize = .num v.toNat) ∧
    (s.index.isWritten = false → ∃ v : Len, s.readReg .index = .num v.toNat) ∧
    (s.base.isWritten = false → ∃ b : Name, b.length ≤ Config.nameMax ∧ s.readReg .base = .name b) ∧
    (s.busy = false →
      s.readReg .fidx = .num s.fidx.toNat ∧ s.readReg .rem = .num s.rem.toNat ∧
      s.readReg .total = .num s.total.toNat ∧ s.readReg .fraglim = .num s.fraglim.toNat ∧
      s.readReg .nfrag = .num s.nfrag.toNat) ∧
    (s.busy = true → s.passed ≠ [] →
      (∃ p ∈ s.passed, s.readReg .fidx = .num p.fidx.toNat) ∧ (∃ p ∈ s.passed, s.readReg .rem = .num p.rem.toNat) ∧
      (∃ p ∈ s.passed, s.readReg .total = .num p.total.toNat) ∧
      (∃ p ∈ s.passed, s.readReg .fraglim = .num p.fraglim.toNat) ∧
      (∃ p ∈ s.passed, s.readReg .nfrag = .num p.nfrag.toNat))

/-- R25, R36, R33, R34: a host write to an operand register while BUSY = 0 gives it the value written, a binding gives a port its stream with the cursor at 0 or the output empty (log 23), a binding the environment faults leaves the port unbound (R209, log 27), and each changes nothing else: PHASE and every register are kept. -/
def Obligations.OperandWritesAreKept : Prop :=
  ∀ (s : State) (rest : List HostMove), s.busy = false →
    (∀ v, step { s with host := .writeLimit v :: rest } = .next { s with host := rest, limit := .written v }) ∧
    (∀ v, step { s with host := .writeMaxsize v :: rest } = .next { s with host := rest, maxsize := .written v }) ∧
    (∀ v, step { s with host := .writeIndex v :: rest } = .next { s with host := rest, index := .written v }) ∧
    (∀ b : Name, b.length ≤ Config.nameMax →
      step { s with host := .writeBase b :: rest } = .next { s with host := rest, base := .written b }) ∧
    (∀ r, step { s with host := .writeReadOnly r :: rest } = .next { s with host := rest }) ∧
    (∀ x, step { s with host := .bindIn .src x :: rest } =
      .next { s with host := rest, src := .bound ⟨x.res, x.data, 0, x.seek⟩ }) ∧
    (∀ x, step { s with host := .bindIn .low x :: rest } =
      .next { s with host := rest, low := .bound ⟨x.res, x.data, 0, x.seek⟩ }) ∧
    (∀ x, step { s with host := .bindIn .high x :: rest } =
      .next { s with host := rest, high := .bound ⟨x.res, x.data, 0, x.seek⟩ }) ∧
    (∀ xs, step { s with host := .bindFiles xs :: rest } =
      .next { s with host := rest, files := .bound (xs.map fun x => ⟨x.res, x.data, 0, x.seek⟩) }) ∧
    (∀ n, step { s with host := .bindOut .tgt n :: rest } = .next { s with host := rest, tgt := .bound ⟨n, []⟩ }) ∧
    (∀ n, step { s with host := .bindOut .lowo n :: rest } = .next { s with host := rest, lowo := .bound ⟨n, []⟩ }) ∧
    (∀ n, step { s with host := .bindOut .higho n :: rest } = .next { s with host := rest, higho := .bound ⟨n, []⟩ }) ∧
    step { s with host := .bindFails .src :: rest } = .next { s with host := rest, src := .unbound } ∧
    step { s with host := .bindFails .low :: rest } = .next { s with host := rest, low := .unbound } ∧
    step { s with host := .bindFails .high :: rest } = .next { s with host := rest, high := .unbound } ∧
    step { s with host := .bindFails .files :: rest } = .next { s with host := rest, files := .unbound } ∧
    step { s with host := .bindFails .tgt :: rest } = .next { s with host := rest, tgt := .unbound } ∧
    step { s with host := .bindFails .lowo :: rest } = .next { s with host := rest, lowo := .unbound } ∧
    step { s with host := .bindFails .higho :: rest } = .next { s with host := rest, higho := .unbound }

/-- R231: the values reset leaves, from any state and in any phase, be it between steps or inside one (log 17); what stands in an unwritten register (log 1) is not stated. -/
def Obligations.ResetLeavesResetValues : Prop :=
  ∀ (s : State) (m : HostMove) (rest : List HostMove), s.host = m :: rest →
    (m = .reset ∨ ∃ k l c, m = .resetInside k l c) →
    ∃ t, step s = .next t ∧ t.cmd = 0 ∧ t.status = 0 ∧ t.errcode = 0 ∧ t.warn = false ∧
      t.limit.isWritten = false ∧ t.maxsize.isWritten = false ∧ t.index.isWritten = false ∧
      t.base.isWritten = false ∧
      t.nameout = [] ∧ t.fidx = 0 ∧ t.rem = 0 ∧ t.total = 0 ∧ t.fraglim = 0 ∧ t.nfrag = 0 ∧ t.portattr = 0 ∧
      t.phase = .idle ∧ t.srci = 0 ∧ t.pass = false ∧ t.fcnt = 0 ∧
      t.src = .unbound ∧ t.low = .unbound ∧ t.high = .unbound ∧ t.files = .unbound ∧
      t.tgt = .unbound ∧ t.lowo = .unbound ∧ t.higho = .unbound ∧ t.frags = [] ∧ t.latch = []

/-- R23, R29: the bits of STATUS (at most one of BUSY, DONE, ERR is 1, bits 31:4 read 0), and the bits of PORTATTR (0 for an unbound port). -/
def Obligations.StatusAndPortattrBits : Prop :=
  ∀ s : State,
    (s.status.getLsbD 0 = true ↔ s.phase = .check ∨ s.phase = .run) ∧
    (s.status.getLsbD 1 = true ↔ s.phase = .done) ∧
    (s.status.getLsbD 2 = true ↔ s.phase = .fail) ∧
    s.status.getLsbD 3 = s.warn ∧
    s.status.toNat < 16 ∧
    (∀ st, s.src = .bound st → s.portattr.getLsbD 0 = st.seek) ∧
    (∀ st, s.low = .bound st → s.portattr.getLsbD 1 = st.seek) ∧
    (∀ st, s.high = .bound st → s.portattr.getLsbD 2 = st.seek) ∧
    (s.src = .unbound → s.portattr.getLsbD 0 = false) ∧
    (s.low = .unbound → s.portattr.getLsbD 1 = false) ∧
    (s.high = .unbound → s.portattr.getLsbD 2 = false)

/-- R27: with no host move to make, a step in CHECK or RUN is the meaning of the command in CMD, with the moment noted (log 11); the same of a word placed for the next step (log 2), where an access that is never answered lets the tick pass (log 14). -/
def Obligations.StepRunsDecodedCommand : Prop :=
  (∀ (s : State) (i : Instr), s.host = [] → s.busy = true → decode s.cmd = .ok i →
    (∀ t, exec i s = .next t →
      step s = .next { t with passed := if t.busy then t.progress :: t.passed else [] }) ∧
    (∀ f, exec i s = .fault f → step s = .fault f) ∧ (∀ r, exec i s = .refused r → step s = .refused r)) ∧
  (∀ (s : State) (i : Instr), i.wf = true →
    (∀ t, exec i (s.start (encode i)) = .next t → step (s.withFetchWord 32 (encode i).toNat) =
      .next { t with passed := if t.busy then t.progress :: t.passed else [] }) ∧
    (∀ f, exec i (s.start (encode i)) = .fault f →
      step (s.withFetchWord 32 (encode i).toNat) = .next (s.start (encode i))) ∧
    (∀ r, exec i (s.start (encode i)) = .refused r → step (s.withFetchWord 32 (encode i).toNat) = .refused r)) ∧
  (∀ s : State, s.host = [] → s.busy = false → step s = .next s)

/-- R40: with no host move to make, PHASE moves only as the table lists, and IDLE, DONE, FAIL are quiescent. -/
def Obligations.PhaseMovesOnlyAsListed : Prop :=
  ∀ s t : State, s.host = [] → step s = .next t → phaseMoves s t

/-- R210: what raising an error writes; every other register, the sequencer's indices, the inputs' bytes and cursors, the outputs' bytes, the fragments, the ports the operation does not use and the model's own data keep their values, and the operation's streams are released (log 6). -/
def Obligations.RaiseEndsInFail : Prop :=
  ∀ (e : Err) (u : Used) (s : State),
    (raise e u s).errcode = e.code ∧ (raise e u s).phase = .fail ∧
    (raise e u s).status.getLsbD 2 = true ∧ (raise e u s).status.getLsbD 0 = false ∧
    (raise e u s).status.getLsbD 1 = false ∧
    (raise e u s).cmd = s.cmd ∧ (raise e u s).limit = s.limit ∧ (raise e u s).maxsize = s.maxsize ∧
    (raise e u s).index = s.index ∧ (raise e u s).base = s.base ∧ (raise e u s).nameout = s.nameout ∧
    (raise e u s).total = s.total ∧ (raise e u s).fraglim = s.fraglim ∧ (raise e u s).fidx = s.fidx ∧
    (raise e u s).rem = s.rem ∧ (raise e u s).nfrag = s.nfrag ∧ (raise e u s).frags = s.frags ∧
    writtenTo (raise e u s).tgt = writtenTo s.tgt ∧ writtenTo (raise e u s).lowo = writtenTo s.lowo ∧
    writtenTo (raise e u s).higho = writtenTo s.higho ∧
    (u.src = true → (raise e u s).src.isBound = false) ∧ (u.low = true → (raise e u s).low.isBound = false) ∧
    (u.high = true → (raise e u s).high.isBound = false) ∧ (u.files = true → (raise e u s).files.isBound = false) ∧
    (u.tgt = true → (raise e u s).tgt.isBound = false) ∧ (u.lowo = true → (raise e u s).lowo.isBound = false) ∧
    (u.higho = true → (raise e u s).higho.isBound = false) ∧
    (raise e u s).warn = s.warn ∧ (raise e u s).srci = s.srci ∧ (raise e u s).pass = s.pass ∧
    (raise e u s).fcnt = s.fcnt ∧ (raise e u s).latch = [] ∧
    (raise e u s).src.shown = s.src.shown ∧ (raise e u s).low.shown = s.low.shown ∧
    (raise e u s).high.shown = s.high.shown ∧ (raise e u s).files.shown = s.files.shown ∧
    (raise e u s).tgt.shown = s.tgt.shown ∧ (raise e u s).lowo.shown = s.lowo.shown ∧
    (raise e u s).higho.shown = s.higho.shown ∧
    (u.src = false → (raise e u s).src = s.src) ∧ (u.low = false → (raise e u s).low = s.low) ∧
    (u.high = false → (raise e u s).high = s.high) ∧ (u.files = false → (raise e u s).files = s.files) ∧
    (u.tgt = false → (raise e u s).tgt = s.tgt) ∧ (u.lowo = false → (raise e u s).lowo = s.lowo) ∧
    (u.higho = false → (raise e u s).higho = s.higho) ∧
    (raise e u s).host = s.host ∧ (raise e u s).ioFaults = s.ioFaults ∧ (raise e u s).lastRead = s.lastRead ∧
    (raise e u s).leftBehind = s.leftBehind ∧ (raise e u s).freeCtr = s.freeCtr ∧ (raise e u s).passed = s.passed

/-- R36, R205 (2): a used port left unbound (a failed binding, R209, log 27) raises ERR_IO in the CHECK step, where no refusal condition holds (log 5). -/
def Obligations.UnboundPortRaisesIo : Prop :=
  ∀ (i : Instr) (s : State), i.wf = true → s.phase = .check → OperandsWritten i s → LimitFits i s →
    LanesSeekable i s → DupRewindable i s → s.portAlias (usedPorts i) = false →
    s.lengthsFit (usedPorts i) = true → s.portsBound (usedPorts i) = false →
    ∃ t, exec i s = .next t ∧ t.phase = .fail ∧ t.errcode = 6 ∧ t.frags = s.frags ∧
      writtenTo t.tgt = writtenTo s.tgt ∧ writtenTo t.lowo = writtenTo s.lowo ∧ writtenTo t.higho = writtenTo s.higho

/-- R236, U6: an operation that reads an operand register the host never wrote is refused; that the refusal comes before the errors of the same CHECK step, ERR_IO of an unbound port included, is the model's reading of R205's last sentence (log 5), and that it is the refusal named is the model's choice (log 28). -/
def Obligations.UnwrittenOperandRefused : Prop :=
  ∀ (i : Instr) (s : State), i.wf = true → s.phase = .check → ¬ OperandsWritten i s →
    exec i s = .refused .unwrittenRegister

/-- R69, R240, U8: one resource on two ports of one operation is refused, and so is a chunk or a split decode that would make a fragment named like a bound resource; a file listed twice in FILES is on one port (log 8). That the refusal comes before the errors of the same CHECK step is the model's reading of R205's last sentence (log 5), and which refusal is named is its choice (log 28). -/
def Obligations.SharedResourceRefused : Prop :=
  (∀ (i : Instr) (s : State), i.wf = true → s.phase = .check → OperandsWritten i s → LimitFits i s →
    DupRewindable i s → s.portAlias (usedPorts i) = true → exec i s = .refused .portAlias) ∧
  (∀ (s : State) (b : Name) (size : Len), s.phase = .check → s.base = .written b → s.maxsize = .written size →
    s.chunkAlias b size.toNat = true → exec .chunk s = .refused .portAlias) ∧
  (∀ (m : Mode) (le : Bool) (n : BitVec 8) (s : State) (b : Name), n ≠ 0 → s.phase = .check → s.ioFaults = [] →
    s.base = .written b → s.lengthsFit (splitUsed m) = true → s.portsBound (splitUsed m) = true →
    s.seekable (splitUsed m) = true → (m ≠ .w16 → (bytesOf s.low).length = (bytesOf s.high).length) →
    0 < splitLength m s → splitLength m s % n.toNat = 0 → splitLength m s / n.toNat % m.flatUnit = 0 →
    s.fragAlias (splitUsed m) b n.toNat = true → exec (splitOf m le n) s = .refused .portAlias)

/-! The decode family. -/

/-- R111, R57: one unit of DEC16; the whole next state. -/
def Obligations.Dec16TranscodesOneUnit : Prop :=
  ∀ (le lim : Bool) (s : State) (st : InStream) (o : OutStream),
    s.phase = .run → s.ioFaults = [] → s.src = .bound st → s.tgt = .bound o →
    st.pos + 2 ≤ st.data.length → (lim = true → s.rem ≠ 0) →
    exec (.dec16 le lim) s = .next { s with
      src := .bound { st with pos := st.pos + 2 }
      tgt := .bound { o with out := o.out ++
        (if le then [st.data.getD st.pos 0, st.data.getD (st.pos + 1) 0]
          else [st.data.getD (st.pos + 1) 0, st.data.getD st.pos 0]) }
      rem := if lim then s.rem - 2 else s.rem
      latch := [] }

/-- R114, R57: one word of DEC32; the whole next state. -/
def Obligations.Dec32TranscodesOneWord : Prop :=
  ∀ (le lim : Bool) (s : State) (l h : InStream) (o : OutStream),
    s.phase = .run → s.ioFaults = [] → s.low = .bound l → s.high = .bound h → s.tgt = .bound o →
    l.pos + 2 ≤ l.data.length → h.pos + 2 ≤ h.data.length → (lim = true → s.rem ≠ 0) →
    exec (.dec32 le lim) s = .next { s with
      low := .bound { l with pos := l.pos + 2 }
      high := .bound { h with pos := h.pos + 2 }
      tgt := .bound { o with out := o.out ++
        (if le then [l.data.getD l.pos 0, l.data.getD (l.pos + 1) 0, h.data.getD h.pos 0, h.data.getD (h.pos + 1) 0]
          else [h.data.getD (h.pos + 1) 0, h.data.getD h.pos 0, l.data.getD (l.pos + 1) 0, l.data.getD l.pos 0]) }
      rem := if lim then s.rem - 4 else s.rem
      latch := [] }

/-- R117, R57: one pair of DEC8; the whole next state. -/
def Obligations.Dec8TranscodesOnePair : Prop :=
  ∀ (le lim : Bool) (s : State) (l h : InStream) (o : OutStream),
    s.phase = .run → s.ioFaults = [] → s.low = .bound l → s.high = .bound h → s.tgt = .bound o →
    l.pos + 1 ≤ l.data.length → h.pos + 1 ≤ h.data.length → (lim = true → s.rem ≠ 0) →
    exec (.dec8 le lim) s = .next { s with
      low := .bound { l with pos := l.pos + 1 }
      high := .bound { h with pos := h.pos + 1 }
      tgt := .bound { o with out := o.out ++
        (if le then [l.data.getD l.pos 0, h.data.getD h.pos 0] else [h.data.getD h.pos 0, l.data.getD l.pos 0]) }
      rem := if lim then s.rem - 2 else s.rem
      latch := [] }

/-- R121, R120: where the premises of R235 hold and the lanes are equally long, the CHECK step of a decode begins the run (REM is set there, log 15); R110, R122: a used-up budget ends it with DONE before anything is read. -/
def Obligations.DecodeBeginsAndEnds : Prop :=
  (∀ (m : Mode) (le lim : Bool) (s : State), s.phase = .check → s.ioFaults = [] →
    OperandsWritten (decodeOp m le lim) s → BudgetAligned (decodeOp m le lim) s →
    s.portAlias (decUsed m) = false → s.lengthsFit (decUsed m) = true → s.portsBound (decUsed m) = true →
    LanesSeekable (decodeOp m le lim) s → (m ≠ .w16 → (bytesOf s.low).length = (bytesOf s.high).length) →
    exec (decodeOp m le lim) s = .next { s with phase := .run, rem := s.budget lim }) ∧
  (∀ (m : Mode) (le : Bool) (s : State), s.phase = .run → s.rem = 0 →
    exec (decodeOp m le true) s = .next { (s.release (decUsed m)) with phase := .done, latch := [] })

/-- R120, R162 (4), R206: lanes of different length end DEC32, DEC8, SPLITDEC32 and SPLITDEC8 with ERR_LANELEN, before any byte is read or written; TOTAL is not written; the streams the operation used are released (log 6). -/
def Obligations.UnequalLanesRaiseLanelen : Prop :=
  ∀ (i : Instr) (s : State) (l h : InStream),
    ((∃ le lim, i = .dec32 le lim) ∨ (∃ le lim, i = .dec8 le lim) ∨
      (∃ le n, i = .splitDec32 le n) ∨ (∃ le n, i = .splitDec8 le n)) →
    i.wf = true → s.phase = .check → s.ioFaults = [] → OperandsWritten i s → LimitFits i s →
    s.portAlias (usedPorts i) = false → s.lengthsFit (usedPorts i) = true → s.portsBound (usedPorts i) = true →
    s.low = .bound l → s.high = .bound h → l.seek = true → h.seek = true → l.data.length ≠ h.data.length →
    exec i s = .next { (s.release (usedPorts i)) with errcode := 4, phase := .fail, latch := [] }

/-- R120, U2 and R142, U3: an unsplit dual-lane decode with a bound sequential-only lane, and an encode with DUP = 1 of a sequential-only file, are refused, a port left unbound notwithstanding: the model's reading of R205's last sentence (log 5); which refusal is named is its choice (log 28). -/
def Obligations.SequentialStreamsRefused : Prop :=
  (∀ (m : Mode) (le lim : Bool) (s : State), m ≠ .w16 → s.phase = .check →
    OperandsWritten (decodeOp m le lim) s → BudgetAligned (decodeOp m le lim) s → s.portAlias (decUsed m) = false →
    s.lengthsFit (decUsed m) = true → s.seekable (decUsed m) = false →
    exec (decodeOp m le lim) s = .refused .dualLaneLengthUnknown) ∧
  (∀ (m : Mode) (le : Bool) (s : State) (fs : List InStream), s.phase = .check → s.files = .bound fs →
    (∃ st ∈ fs, st.seek = false) → exec (encOf m le true) s = .refused .duplicateNeedsRewind)

/-- R61, R121, R162 (6), U1: a budget that is not a multiple of the unit: a decode is refused in CHECK, before the errors of that step (the model's reading of R205's last sentence, log 5; which refusal is named is its choice, log 28), a split decode in its run (log 9). -/
def Obligations.MisalignedBudgetRefused : Prop :=
  (∀ (m : Mode) (le : Bool) (s : State) (v : Len), s.phase = .check → s.limit = .written v →
    v.toNat % m.flatUnit ≠ 0 → exec (decodeOp m le true) s = .refused .limitNotUnitMultiple) ∧
  (∀ (m : Mode) (le : Bool) (n : BitVec 8) (s : State) (b : Name), s.phase = .run → s.base = .written b →
    s.fraglim.toNat % m.flatUnit ≠ 0 → exec (splitOf m le n) s = .refused .limitNotUnitMultiple)

/-- R60, R122, U4: a short read ends a decode with DONE; nothing is written, and each lane's cursor stands somewhere from the end of the last whole unit to the end of the stream (a free value, log 10). -/
def Obligations.ShortReadEndsDecode : Prop :=
  (∀ (le lim : Bool) (s : State) (st : InStream), s.phase = .run → s.ioFaults = [] → s.src = .bound st →
    (lim = true → s.rem ≠ 0) → st.pos ≤ st.data.length → st.data.length < st.pos + 2 →
    ∃ t p, exec (.dec16 le lim) s = .next t ∧ t.phase = .done ∧ t.errcode = s.errcode ∧ t.rem = s.rem ∧
      writtenTo t.tgt = writtenTo s.tgt ∧ t.src = .released { st with pos := p } ∧
      st.pos ≤ p ∧ p ≤ st.data.length) ∧
  (∀ (m : Mode) (le lim : Bool) (s : State) (l h : InStream), m ≠ .w16 → s.phase = .run → s.ioFaults = [] →
    s.low = .bound l → s.high = .bound h → (lim = true → s.rem ≠ 0) →
    l.pos ≤ l.data.length → h.pos ≤ h.data.length →
    (l.data.length < l.pos + m.laneUnit ∨ h.data.length < h.pos + m.laneUnit) →
    ∃ t p q, exec (decodeOp m le lim) s = .next t ∧ t.phase = .done ∧ t.errcode = s.errcode ∧ t.rem = s.rem ∧
      writtenTo t.tgt = writtenTo s.tgt ∧
      t.low = .released { l with pos := p } ∧ l.pos ≤ p ∧ p ≤ l.data.length ∧
      t.high = .released { h with pos := q } ∧ h.pos ≤ q ∧ q ≤ h.data.length)

/-- R112, R115, R118: what a whole decode writes. -/
def Obligations.DecodeWritesTheClosedForm : Prop :=
  ∀ (m : Mode) (le lim : Bool) (s : State), Launch (decodeOp m le lim) s →
    (m ≠ .w16 → (bytesOf s.low).length = (bytesOf s.high).length) →
    ∃ t, EndsAt (s.start (encode (decodeOp m le lim))) t ∧ t.phase = .done ∧ t.errcode = 0 ∧
      writtenTo t.tgt = decoded m le (firstData m le s) (secondData m le s)
        (decUnits m lim (firstData m le s) (s.budget lim))

/-- R122: after a budget within the input is used up, the cursors stand exactly after the units consumed, and REM is 0. -/
def Obligations.BudgetedDecodeLeavesCursors : Prop :=
  ∀ (m : Mode) (le : Bool) (s : State) (v : Len), Launch (decodeOp m le true) s → s.limit = .written v →
    (m ≠ .w16 → (bytesOf s.low).length = (bytesOf s.high).length) →
    v.toNat ≤ unitsOf m (firstData m le s) * m.flatUnit →
    ∃ t, EndsAt (s.start (encode (decodeOp m le true))) t ∧ t.phase = .done ∧ t.rem = 0 ∧
      (m = .w16 → ∀ st, t.src.shown = some st → st.pos = v.toNat) ∧
      (m ≠ .w16 → (∀ st, t.low.shown = some st → st.pos = v.toNat / 2) ∧
        (∀ st, t.high.shown = some st → st.pos = v.toNat / 2))

/-- R123: decoding with LE = 1 differs from decoding with LE = 0 exactly by reversing the bytes of every flat word. -/
def Obligations.LittleEndianReversesEveryWord : Prop :=
  ∀ (m : Mode) (lim : Bool) (s t0 t1 : State),
    Launch (decodeOp m false lim) s → (m ≠ .w16 → (bytesOf s.low).length = (bytesOf s.high).length) →
    EndsAt (s.start (encode (decodeOp m false lim))) t0 → EndsAt (s.start (encode (decodeOp m true lim))) t1 →
    writtenTo t1.tgt = (List.range ((writtenTo t0.tgt).length / m.flatUnit)).flatMap fun i =>
      (((writtenTo t0.tgt).drop (m.flatUnit * i)).take m.flatUnit).reverse

/-! The encode family. -/

/-- R144, R57: one unit of ENC16; the whole next state. -/
def Obligations.Enc16TranscodesOneUnit : Prop :=
  ∀ (le dup : Bool) (s : State) (fs : List InStream) (st : InStream) (o : OutStream),
    s.phase = .run → s.ioFaults = [] → s.files = .bound fs → fs[s.srci]? = some st → s.tgt = .bound o →
    st.pos + 2 ≤ st.data.length →
    exec (.enc16 le dup) s = .next { s with
      files := .bound (fs.set s.srci { st with pos := st.pos + 2 })
      tgt := .bound { o with out := o.out ++
        (if le then [st.data.getD st.pos 0, st.data.getD (st.pos + 1) 0]
          else [st.data.getD (st.pos + 1) 0, st.data.getD st.pos 0]) }
      latch := [] }

/-- R146, R57: one word of ENC32; the whole next state. -/
def Obligations.Enc32TranscodesOneWord : Prop :=
  ∀ (le dup : Bool) (s : State) (fs : List InStream) (st : InStream) (l h : OutStream),
    s.phase = .run → s.ioFaults = [] → s.files = .bound fs → fs[s.srci]? = some st →
    s.lowo = .bound l → s.higho = .bound h → st.pos + 4 ≤ st.data.length →
    exec (.enc32 le dup) s = .next { s with
      files := .bound (fs.set s.srci { st with pos := st.pos + 4 })
      lowo := .bound { l with out := l.out ++
        (if le then [st.data.getD st.pos 0, st.data.getD (st.pos + 1) 0]
          else [st.data.getD (st.pos + 3) 0, st.data.getD (st.pos + 2) 0]) }
      higho := .bound { h with out := h.out ++
        (if le then [st.data.getD (st.pos + 2) 0, st.data.getD (st.pos + 3) 0]
          else [st.data.getD (st.pos + 1) 0, st.data.getD st.pos 0]) }
      latch := [] }

/-- R148, R57: one pair of ENC8; the whole next state. -/
def Obligations.Enc8TranscodesOnePair : Prop :=
  ∀ (le dup : Bool) (s : State) (fs : List InStream) (st : InStream) (l h : OutStream),
    s.phase = .run → s.ioFaults = [] → s.files = .bound fs → fs[s.srci]? = some st →
    s.lowo = .bound l → s.higho = .bound h → st.pos + 2 ≤ st.data.length →
    exec (.enc8 le dup) s = .next { s with
      files := .bound (fs.set s.srci { st with pos := st.pos + 2 })
      lowo := .bound { l with out := l.out ++ [st.data.getD (if le then st.pos else st.pos + 1) 0] }
      higho := .bound { h with out := h.out ++ [st.data.getD (if le then st.pos + 1 else st.pos) 0] }
      latch := [] }

/-- R141, R142, R143: a short read ends the pass over a file and drops its last bytes: with DUP the second pass over the same file follows, else the next file is begun at its first byte; that this is one step is the model's reading (log 16), and that SRCI and PASS move on so after the last file too is its choice (log 29). -/
def Obligations.FileEndMovesToNextPass : Prop :=
  ∀ (m : Mode) (le dup : Bool) (s : State) (fs : List InStream) (st : InStream),
    s.phase = .run → s.ioFaults = [] → s.files = .bound fs → fs[s.srci]? = some st →
    st.data.length < st.pos + m.flatUnit →
    ∃ t, exec (encOf m le dup) s = .next t ∧ t.phase = .run ∧
      t.tgt = s.tgt ∧ t.lowo = s.lowo ∧ t.higho = s.higho ∧
      (dup = true → s.pass = false → t.srci = s.srci ∧ t.pass = true ∧
        ∃ gs, t.files = .bound gs ∧ gs[s.srci]? = some { st with pos := 0 }) ∧
      (dup = false ∨ s.pass = true → t.srci = s.srci + 1 ∧ t.pass = false ∧
        ∀ st', fs[s.srci + 1]? = some st' → ∃ gs, t.files = .bound gs ∧ gs[s.srci + 1]? = some { st' with pos := 0 })

/-- R151: the CHECK step of an encode begins the run with no length probed, and past the last file the operation ends with DONE. -/
def Obligations.EncodeBeginsAndEnds : Prop :=
  (∀ (m : Mode) (le dup : Bool) (s : State) (fs : List InStream), s.phase = .check → s.ioFaults = [] →
    s.files = .bound fs → (∀ st ∈ fs, st.pos = 0) → DupRewindable (encOf m le dup) s →
    s.portAlias (encUsed m) = false → s.lengthsFit (encUsed m) = true → s.portsBound (encUsed m) = true →
    exec (encOf m le dup) s = .next { s with phase := .run }) ∧
  (∀ (m : Mode) (le dup : Bool) (s : State) (fs : List InStream), s.phase = .run → s.files = .bound fs →
    fs.length ≤ s.srci →
    exec (encOf m le dup) s = .next { (s.release (encUsed m)) with phase := .done, latch := [] })

/-- R145, R147, R149: what a whole encode writes on each output. -/
def Obligations.EncodeWritesTheClosedForm : Prop :=
  ∀ (m : Mode) (le dup : Bool) (s : State), Launch (encOf m le dup) s →
    ∃ t, EndsAt (s.start (encode (encOf m le dup))) t ∧ t.phase = .done ∧ t.errcode = 0 ∧
      writtenTo (firstPort m le t) = encodedFirst m le dup (fileData s) ∧
      (m ≠ .w16 → writtenTo (secondPort m le t) = encodedSecond m le dup (fileData s))

/-- R152: decode undoes encode of whole-unit files, with each file doubled when DUP = 1. -/
def Obligations.DecodeUndoesEncode : Prop :=
  ∀ (m : Mode) (le dup : Bool) (s1 : State), Launch (encOf m le dup) s1 →
    (∀ d ∈ fileData s1, d.length % m.flatUnit = 0) →
    ∃ t1, EndsAt (s1.start (encode (encOf m le dup))) t1 ∧ t1.phase = .done ∧
      ∀ s2 : State, Launch (decodeOp m le false) s2 →
        (m = .w16 → bytesOf s2.src = writtenTo t1.tgt) →
        (m ≠ .w16 → bytesOf s2.low = writtenTo t1.lowo ∧ bytesOf s2.high = writtenTo t1.higho) →
        ∃ t2, EndsAt (s2.start (encode (decodeOp m le false))) t2 ∧ t2.phase = .done ∧
          writtenTo t2.tgt = (fileData s1).flatMap (rep dup)

/-- R153: encode undoes decode of whole-unit lanes. -/
def Obligations.EncodeUndoesDecode : Prop :=
  ∀ (m : Mode) (le : Bool) (s1 : State), Launch (decodeOp m le false) s1 →
    (firstData m le s1).length % m.laneUnit = 0 →
    (m ≠ .w16 → (bytesOf s1.low).length = (bytesOf s1.high).length) →
    ∃ t1, EndsAt (s1.start (encode (decodeOp m le false))) t1 ∧ t1.phase = .done ∧
      ∀ s2 : State, Launch (encOf m le false) s2 → fileData s2 = [writtenTo t1.tgt] →
        ∃ t2, EndsAt (s2.start (encode (encOf m le false))) t2 ∧ t2.phase = .done ∧
          (m = .w16 → writtenTo t2.tgt = bytesOf s1.src) ∧
          (m ≠ .w16 → writtenTo t2.lowo = bytesOf s1.low ∧ writtenTo t2.higho = bytesOf s1.high)

/-! The fragment family. -/

/-- R171: FNAME is the word 0x00000004; with BASE and INDEX written the whole next state, with one of them unwritten the refusal. -/
def Obligations.FnameWritesTheName : Prop :=
  decode 0x00000004#32 = .ok .fname ∧
  ∀ s : State, s.phase = .check →
    (∀ (b : Name) (n : Len), s.base = .written b → s.index = .written n →
      exec .fname s = .next { s with nameout := fragName b n.toNat, phase := .done, latch := [] }) ∧
    (s.base.isWritten = false ∨ s.index.isWritten = false → exec .fname s = .refused .unwrittenRegister)

/-- R170: the name function, on names with a dot (the last one stands before `e`) and without. -/
def Obligations.NameTakesIndexBeforeLastDot : Prop :=
  (∀ (p e : Name) (n : Nat), (0x2E : Byte) ∉ e →
    fragName (p ++ 0x2E :: e) n = p ++ [0x2D] ++ dec n ++ 0x2E :: e) ∧
  (∀ (b : Name) (n : Nat), (0x2E : Byte) ∉ b → fragName b n = b ++ [0x2D] ++ dec n)

/-- R173: dec(n) is the shortest decimal numeral of n. -/
def Obligations.DecIsTheShortestNumeral : Prop :=
  ∀ n : Nat,
    (∀ c ∈ dec n, 0x30 ≤ c.toNat ∧ c.toNat ≤ 0x39) ∧
    (dec n).foldl (fun v c => 10 * v + (c.toNat - 0x30)) 0 = n ∧
    dec 0 = [0x30] ∧ (0 < n → (dec n).head? ≠ some 0x30) ∧ dec n ≠ [] ∧
    (n < 2 ^ 64 → (dec n).length ≤ 20)

/-- R172: for one base name, different indices give different names, none is the base name, and the length grows by 1 + len(dec(n)). -/
def Obligations.FragmentNamesAreDistinct : Prop :=
  ∀ (b : Name) (i j : Nat),
    (fragName b i = fragName b j → i = j) ∧ fragName b i ≠ b ∧
    (fragName b i).length = b.length + 1 + (dec i).length

/-- R162, R163, R205: where its checks pass, the CHECK step of a split decode writes TOTAL and FRAGLIM and begins the run of fragment 0 (REM is set there, log 15); a misaligned budget is found only by the run (log 9). -/
def Obligations.SplitCheckWritesTotalAndLimit : Prop :=
  ∀ (m : Mode) (le : Bool) (n : BitVec 8) (s : State), n ≠ 0 → s.phase = .check → s.ioFaults = [] →
    OperandsWritten (splitOf m le n) s → NoFragAlias (splitOf m le n) s →
    s.portAlias (splitUsed m) = false → s.lengthsFit (splitUsed m) = true → s.portsBound (splitUsed m) = true →
    s.seekable (splitUsed m) = true → (m ≠ .w16 → (bytesOf s.low).length = (bytesOf s.high).length) →
    splitLength m s % n.toNat = 0 →
    exec (splitOf m le n) s = .next { s with
      total := BitVec.ofNat 64 (splitLength m s)
      fraglim := BitVec.ofNat 64 (splitLength m s / n.toNat)
      rem := BitVec.ofNat 64 (splitLength m s / n.toNat)
      phase := .run }

/-- R162 (3), R203: a split decode of a sequential-only stream raises ERR_NOSEEK before any length is probed; R163, R207: a total that is not divisible raises ERR_DIVIS with TOTAL written and FRAGLIM kept; the streams the operation used are released (log 6). -/
def Obligations.SplitChecksRaiseTheirErrors : Prop :=
  ∀ (m : Mode) (le : Bool) (n : BitVec 8) (s : State), n ≠ 0 → s.phase = .check →
    OperandsWritten (splitOf m le n) s → s.portAlias (splitUsed m) = false →
    s.lengthsFit (splitUsed m) = true → s.portsBound (splitUsed m) = true →
    (s.seekable (splitUsed m) = false →
      exec (splitOf m le n) s = .next { (s.release (splitUsed m)) with errcode := 2, phase := .fail, latch := [] }) ∧
    (s.seekable (splitUsed m) = true → s.ioFaults = [] →
      (m ≠ .w16 → (bytesOf s.low).length = (bytesOf s.high).length) → splitLength m s % n.toNat ≠ 0 →
      exec (splitOf m le n) s = .next { (s.release (splitUsed m)) with
        total := BitVec.ofNat 64 (splitLength m s), errcode := 5, phase := .fail, latch := [] })

/-- R164, R110, R52: one unit of SPLITDEC16 goes to the fragment FIDX; the whole next state. -/
def Obligations.SplitDec16TranscodesOneUnit : Prop :=
  ∀ (le : Bool) (n : BitVec 8) (s : State) (st : InStream) (b : Name),
    s.phase = .run → s.ioFaults = [] → s.base = .written b → s.src = .bound st → s.fraglim.toNat % 2 = 0 →
    s.rem ≠ 0 → st.pos + 2 ≤ st.data.length →
    exec (.splitDec16 le n) s = .next { s with
      src := .bound { st with pos := st.pos + 2 }
      nfrag := if s.frags.has s.fidx.toNat then s.nfrag else s.nfrag + 1
      frags := s.frags.append s.fidx.toNat (fragName b s.fidx.toNat)
        (if le then [st.data.getD st.pos 0, st.data.getD (st.pos + 1) 0]
          else [st.data.getD (st.pos + 1) 0, st.data.getD st.pos 0])
      rem := s.rem - 2
      latch := [] }

/-- R164, R110, R52: one unit of SPLITDEC32 or SPLITDEC8 goes to the fragment FIDX; the whole next state. -/
def Obligations.DualLaneSplitTranscodesOneUnit : Prop :=
  ∀ (m : Mode) (le : Bool) (n : BitVec 8) (s : State) (l h : InStream) (b : Name), m ≠ .w16 →
    s.phase = .run → s.ioFaults = [] → s.base = .written b → s.low = .bound l → s.high = .bound h →
    s.fraglim.toNat % m.flatUnit = 0 → s.rem ≠ 0 →
    l.pos + m.laneUnit ≤ l.data.length → h.pos + m.laneUnit ≤ h.data.length →
    exec (splitOf m le n) s = .next { s with
      low := .bound { l with pos := l.pos + m.laneUnit }
      high := .bound { h with pos := h.pos + m.laneUnit }
      nfrag := if s.frags.has s.fidx.toNat then s.nfrag else s.nfrag + 1
      frags := s.frags.append s.fidx.toNat (fragName b s.fidx.toNat)
        (if le then flatUnitAt m true (l.data.drop l.pos) (h.data.drop h.pos) 0
          else flatUnitAt m false (h.data.drop h.pos) (l.data.drop l.pos) 0)
      rem := s.rem - BitVec.ofNat 64 m.flatUnit
      latch := [] }

/-- R164, R160: when a fragment's budget is used up, FIDX moves by 1 and the next fragment begins where the cursors stand; after the last fragment the operation ends with DONE. -/
def Obligations.UsedUpBudgetMovesToNextFragment : Prop :=
  ∀ (m : Mode) (le : Bool) (n : BitVec 8) (s : State) (b : Name), s.phase = .run → s.base = .written b →
    s.fraglim.toNat % m.flatUnit = 0 → s.rem = 0 →
    (s.fidx.toNat + 1 < n.toNat →
      exec (splitOf m le n) s = .next { s with fidx := s.fidx + 1, rem := s.fraglim }) ∧
    (n.toNat ≤ s.fidx.toNat + 1 →
      exec (splitOf m le n) s = .next { (s.release (splitUsed m)) with phase := .done, latch := [] })

/-- R168: the fragments of a whole split decode, joined in index order, are the unsplit decode. -/
def Obligations.SplitWritesTheClosedForm : Prop :=
  ∀ (m : Mode) (le : Bool) (n : BitVec 8) (s : State) (b : Name), n ≠ 0 → Launch (splitOf m le n) s →
    s.base = .written b → s.seekable (splitUsed m) = true →
    (m ≠ .w16 → (bytesOf s.low).length = (bytesOf s.high).length) → splitLength m s % n.toNat = 0 →
    ∃ t, EndsAt (s.start (encode (splitOf m le n))) t ∧ t.phase = .done ∧ t.errcode = 0 ∧
      t.total = BitVec.ofNat 64 (splitLength m s) ∧ t.fraglim = BitVec.ofNat 64 (splitLength m s / n.toNat) ∧
      t.rem = 0 ∧ t.fidx.toNat = n.toNat - 1 ∧
      (splitLength m s = 0 → t.frags = [] ∧ t.nfrag = 0) ∧
      (0 < splitLength m s → t.nfrag.toNat = n.toNat ∧
        t.frags = (List.range n.toNat).map fun k => ⟨k, fragName b k,
          ((decoded m le (firstData m le s) (secondData m le s) (unitsOf m (firstData m le s))).drop
            (k * (splitLength m s / n.toNat))).take (splitLength m s / n.toNat)⟩)

/-- R181, R204: MAXSIZE below 8192 raises ERR_MINSIZE before anything is read, and the source is released (log 6); from 8192 on the run begins; that FIDX and FCNT are set to 0 in this step is the model's choice (log 15). -/
def Obligations.ChunkSizeFloorIs8192 : Prop :=
  ∀ (s : State) (b : Name) (size : Len), s.phase = .check → s.base = .written b → s.maxsize = .written size →
    s.chunkAlias b size.toNat = false → s.lengthsFit chunkUsed = true → s.src.isBound = true →
    (size.toNat < 8192 →
      exec .chunk s = .next { (s.release chunkUsed) with errcode := 3, phase := .fail, latch := [] }) ∧
    (8192 ≤ size.toNat → exec .chunk s = .next { s with fidx := 0, fcnt := 0, phase := .run })

/-- R182: one byte of CHUNK; the whole next state. -/
def Obligations.ChunkCopiesOneByte : Prop :=
  ∀ (s : State) (b : Name) (size : Len) (st : InStream), s.phase = .run → s.ioFaults = [] →
    s.base = .written b → s.maxsize = .written size → s.src = .bound st → st.pos < st.data.length →
    s.fidx.toNat ≠ 128 →
    exec .chunk s = .next { s with
      src := .bound { st with pos := st.pos + 1 }
      nfrag := if s.frags.has s.fidx.toNat then s.nfrag else s.nfrag + 1
      frags := s.frags.append s.fidx.toNat (fragName b s.fidx.toNat) [st.data.getD st.pos 0]
      fidx := if s.fcnt + 1 = size.toNat then s.fidx + 1 else s.fidx
      fcnt := if s.fcnt + 1 = size.toNat then 0 else s.fcnt + 1
      latch := [] }

/-- R182, R184: an exhausted source ends CHUNK with DONE; after 128 fragments a byte still there sets WARN, is discarded, and the operation still ends with DONE and its fragments kept. -/
def Obligations.ChunkEndsWithWarningAtCeiling : Prop :=
  ∀ (s : State) (b : Name) (size : Len) (st : InStream), s.phase = .run → s.ioFaults = [] →
    s.base = .written b → s.maxsize = .written size → s.src = .bound st →
    (s.fidx.toNat = 128 ∨ st.data.length ≤ st.pos) →
    exec .chunk s = .next { s with
      src := .released { st with pos := st.pos + (if st.pos < st.data.length then 1 else 0) }
      warn := s.warn || decide (s.fidx.toNat = 128 ∧ st.pos < st.data.length)
      phase := .done
      latch := [] }

/-- R183: what a whole chunk operation leaves. -/
def Obligations.ChunkWritesTheClosedForm : Prop :=
  ∀ (s : State) (b : Name) (size : Len), Launch .chunk s → s.base = .written b → s.maxsize = .written size →
    8192 ≤ size.toNat →
    ∃ t, EndsAt (s.start (encode .chunk)) t ∧ t.phase = .done ∧ t.errcode = 0 ∧
      t.frags = (List.range (min (((bytesOf s.src).length + size.toNat - 1) / size.toNat) 128)).map (fun k =>
        ⟨k, fragName b k, ((bytesOf s.src).drop (k * size.toNat)).take size.toNat⟩) ∧
      t.nfrag.toNat = min (((bytesOf s.src).length + size.toNat - 1) / size.toNat) 128 ∧
      t.fidx.toNat = min ((bytesOf s.src).length / size.toNat) 128 ∧
      (t.warn = true ↔ 128 * size.toNat < (bytesOf s.src).length)

/-! I/O faults. -/

/-- R209, V107: a failed write leaves a proper prefix of what it would have put there: of a decode's unit in the target, of a split decode's in the fragment, of an encode's half in its lane (the first-role lane's half stands whole when the second lane's write fails), and nothing of a chunk's byte; a fragment not yet there comes to be only with a byte or where the environment made it (log 4). R232: a reset leaves what had been written, and inside a decode's write such a prefix (log 17). -/
def Obligations.FailedWriteLeavesAPrefix : Prop :=
  (∀ (m : Mode) (le lim : Bool) (s : State) (o : OutStream) (landed : Nat) (created : Bool) (fs : List IoFault),
    s.phase = .run → unitThere m s → s.tgt = .bound o → (lim = true → s.rem ≠ 0) →
    s.ioFaults = ⟨inputCount m, .fail landed created⟩ :: fs →
    ∃ t, exec (decodeOp m le lim) s = .next t ∧ t.phase = .fail ∧ t.errcode = 6 ∧ t.rem = s.rem ∧ t.ioFaults = fs ∧
      writtenTo t.tgt = o.out ++ (nextUnit m le s).take (min landed (m.flatUnit - 1))) ∧
  (∀ (m : Mode) (le : Bool) (n : BitVec 8) (s : State) (b : Name) (landed : Nat) (created : Bool) (fs : List IoFault),
    s.phase = .run → s.base = .written b → unitThere m s → s.fraglim.toNat % m.flatUnit = 0 → s.rem ≠ 0 →
    s.ioFaults = ⟨inputCount m, .fail landed created⟩ :: fs →
    ∃ t, exec (splitOf m le n) s = .next t ∧ t.phase = .fail ∧ t.errcode = 6 ∧ t.rem = s.rem ∧ t.ioFaults = fs ∧
      t.fidx = s.fidx ∧ t.total = s.total ∧ t.fraglim = s.fraglim ∧
      t.frags = (if landed = 0 ∧ created = false then s.frags
        else s.frags.append s.fidx.toNat (fragName b s.fidx.toNat)
          ((nextUnit m le s).take (min landed (m.flatUnit - 1))))) ∧
  (∀ (m : Mode) (le dup : Bool) (s : State) (ins : List InStream) (st : InStream) (o : OutStream) (landed : Nat)
      (created : Bool) (fs : List IoFault),
    s.phase = .run → s.files = .bound ins → ins[s.srci]? = some st → st.pos + m.flatUnit ≤ st.data.length →
    firstPort m le s = .bound o → s.ioFaults = ⟨1, .fail landed created⟩ :: fs →
    ∃ t, exec (encOf m le dup) s = .next t ∧ t.phase = .fail ∧ t.errcode = 6 ∧ t.ioFaults = fs ∧
      writtenTo (firstPort m le t) = o.out ++ (firstAt m le (st.data.drop st.pos) 0).take (min landed (m.laneUnit - 1)) ∧
      writtenTo (secondPort m le t) = writtenTo (secondPort m le s)) ∧
  (∀ (m : Mode) (le dup : Bool) (s : State) (ins : List InStream) (st : InStream) (o1 o2 : OutStream) (landed : Nat)
      (created : Bool) (fs : List IoFault), m ≠ .w16 →
    s.phase = .run → s.files = .bound ins → ins[s.srci]? = some st → st.pos + m.flatUnit ≤ st.data.length →
    firstPort m le s = .bound o1 → secondPort m le s = .bound o2 → s.ioFaults = ⟨2, .fail landed created⟩ :: fs →
    ∃ t, exec (encOf m le dup) s = .next t ∧ t.phase = .fail ∧ t.errcode = 6 ∧ t.ioFaults = fs ∧
      writtenTo (firstPort m le t) = o1.out ++ firstAt m le (st.data.drop st.pos) 0 ∧
      writtenTo (secondPort m le t) =
        o2.out ++ (secondAt m le (st.data.drop st.pos) 0).take (min landed (m.laneUnit - 1))) ∧
  (∀ (s : State) (b : Name) (size : Len) (st : InStream) (landed : Nat) (created : Bool) (fs : List IoFault),
    s.phase = .run → s.base = .written b → s.maxsize = .written size → s.src = .bound st →
    st.pos < st.data.length → s.fidx.toNat ≠ 128 → s.ioFaults = ⟨1, .fail landed created⟩ :: fs →
    ∃ t, exec .chunk s = .next t ∧ t.phase = .fail ∧ t.errcode = 6 ∧ t.ioFaults = fs ∧
      t.fidx = s.fidx ∧ t.fcnt = s.fcnt ∧ t.warn = s.warn ∧
      t.frags = (if created then s.frags.append s.fidx.toNat (fragName b s.fidx.toNat) [] else s.frags)) ∧
  (∀ (s : State) (rest : List HostMove), s.host = .reset :: rest → s.busy = true →
    ∃ t, step s = .next t ∧ t.phase = .idle ∧
      (∀ o, s.tgt = .bound o ∨ s.lowo = .bound o ∨ s.higho = .bound o → (o.res, o.out) ∈ t.leftBehind) ∧
      (∀ f ∈ s.frags, (f.name, f.bytes) ∈ t.leftBehind)) ∧
  (∀ (m : Mode) (le lim : Bool) (s : State) (o : OutStream) (landed : Nat) (created : Bool) (rest : List HostMove),
    s.host = .resetInside (inputCount m) landed created :: rest → decode s.cmd = .ok (decodeOp m le lim) →
    s.phase = .run → unitThere m s → s.tgt = .bound o → (lim = true → s.rem ≠ 0) →
    ∃ t, step s = .next t ∧ t.phase = .idle ∧
      (o.res, o.out ++ (nextUnit m le s).take (min landed (m.flatUnit - 1))) ∈ t.leftBehind)

/-- R209: a failed read ends the operation with ERR_IO, and every output and fragment keeps what had been written; so does a failed read of the second-role lane, after which the first-role lane stands read on and the second where it was (log 26), a failed length probe in CHECK, and a failed rewind of an encode in CHECK or at the end of a pass; that the first file is rewound in CHECK is the model's choice (log 15), and that the short read which ends a pass and the rewind are one step is its reading (log 16). U16: a read that is never answered leaves the machine stuck, and a tick passes there with nothing done (log 14); the schedule of faults is the model's (log 4), so is which streams are released (log 6), and so is that the failed access moves no cursor (log 26). -/
def Obligations.UnservedReadStopsTheOperation : Prop :=
  (∀ (i : Instr) (s : State) (landed : Nat) (created : Bool) (fs : List IoFault), s.phase = .run → readsNext i s →
    s.ioFaults = ⟨0, .fail landed created⟩ :: fs →
    exec i s = .next { (s.release (usedPorts i)) with errcode := 6, phase := .fail, latch := [], ioFaults := fs }) ∧
  (∀ (i : Instr) (s : State) (fs : List IoFault), s.phase = .run → readsNext i s →
    s.ioFaults = ⟨0, .silent⟩ :: fs → exec i s = .fault .environmentSilent) ∧
  (∀ (i : Instr) (s : State) (fs : List IoFault) (rest : List HostMove), s.host = .tick :: rest →
    decode s.cmd = .ok i → s.phase = .run → readsNext i s → s.ioFaults = ⟨0, .silent⟩ :: fs →
    step s = .next { s with host := rest }) ∧
  (∀ (m : Mode) (i : Instr) (s : State) (le : Bool) (l h : InStream) (landed : Nat) (created : Bool)
      (fs : List IoFault), m ≠ .w16 → ((∃ lim, i = decodeOp m le lim) ∨ ∃ n, i = splitOf m le n) →
    s.phase = .run → readsNext i s → s.low = .bound l → s.high = .bound h →
    s.ioFaults = ⟨1, .fail landed created⟩ :: fs →
    exec i s = .next { (s.release (usedPorts i)) with
      low := .released { l with pos := l.pos + if le then min m.laneUnit (l.data.length - l.pos) else 0 }
      high := .released { h with pos := h.pos + if le then 0 else min m.laneUnit (h.data.length - h.pos) }
      errcode := 6, phase := .fail, latch := [], ioFaults := fs }) ∧
  (∀ (m : Mode) (i : Instr) (s : State) (k landed : Nat) (created : Bool) (fs : List IoFault),
    ((∃ le lim, m ≠ .w16 ∧ i = decodeOp m le lim) ∨ ∃ le n, i = splitOf m le n) → i.wf = true →
    s.phase = .check → OperandsWritten i s → LimitFits i s → s.portAlias (usedPorts i) = false →
    s.lengthsFit (usedPorts i) = true → s.portsBound (usedPorts i) = true → s.seekable (usedPorts i) = true →
    k < inputCount m → s.ioFaults = ⟨k, .fail landed created⟩ :: fs →
    exec i s = .next { (s.release (usedPorts i)) with errcode := 6, phase := .fail, latch := [], ioFaults := fs }) ∧
  (∀ (m : Mode) (le dup : Bool) (s : State) (st : InStream) (ins : List InStream) (landed : Nat) (created : Bool)
      (fs : List IoFault), s.phase = .check → s.files = .bound (st :: ins) → DupRewindable (encOf m le dup) s →
    s.portAlias (encUsed m) = false → s.lengthsFit (encUsed m) = true → s.portsBound (encUsed m) = true →
    s.ioFaults = ⟨0, .fail landed created⟩ :: fs →
    exec (encOf m le dup) s =
      .next { (s.release (encUsed m)) with errcode := 6, phase := .fail, latch := [], ioFaults := fs }) ∧
  (∀ (m : Mode) (le dup : Bool) (s : State) (ins : List InStream) (st : InStream) (landed : Nat) (created : Bool)
      (fs : List IoFault), s.phase = .run → s.files = .bound ins → ins[s.srci]? = some st →
    st.data.length < st.pos + m.flatUnit → ((dup = true ∧ s.pass = false) ∨ s.srci + 1 < ins.length) →
    s.ioFaults = ⟨1, .fail landed created⟩ :: fs →
    ∃ t, exec (encOf m le dup) s = .next t ∧ t.phase = .fail ∧ t.errcode = 6 ∧ t.ioFaults = fs ∧
      writtenTo t.tgt = writtenTo s.tgt ∧ writtenTo t.lowo = writtenTo s.lowo ∧
      writtenTo t.higho = writtenTo s.higho ∧ t.frags = s.frags)

/-! Frames: what an operation leaves unchanged. -/

/-- R25, R28, R30: in every step of every operation CMD and the operand registers keep their values; NAMEOUT is written only by FNAME, WARN only by CHUNK, TOTAL and FRAGLIM only by the CHECK step of a split decode. -/
def Obligations.RegistersWrittenOnlyByTheirOperations : Prop :=
  ∀ (i : Instr) (s t : State), exec i s = .next t →
    t.cmd = s.cmd ∧ t.limit = s.limit ∧ t.maxsize = s.maxsize ∧ t.index = s.index ∧ t.base = s.base ∧
    (i ≠ .fname → t.nameout = s.nameout) ∧
    (i ≠ .chunk → t.warn = s.warn) ∧
    ((s.phase ≠ .check ∨ ∀ m le n, i ≠ splitOf m le n) → t.total = s.total ∧ t.fraglim = s.fraglim)

/-- R36, R34, R33: a port the operation does not use is not touched, in a step that raises an error either (the model's reading of R36 against R210, log 6); an output only grows; no input's resource, bytes or attribute change. -/
def Obligations.PortsTouchedOnlyByTheirOperations : Prop :=
  ∀ (i : Instr) (s t : State), exec i s = .next t →
    ((usedPorts i).src = false → t.src = s.src) ∧ ((usedPorts i).low = false → t.low = s.low) ∧
    ((usedPorts i).high = false → t.high = s.high) ∧ ((usedPorts i).files = false → t.files = s.files) ∧
    ((usedPorts i).tgt = false → t.tgt = s.tgt) ∧ ((usedPorts i).lowo = false → t.lowo = s.lowo) ∧
    ((usedPorts i).higho = false → t.higho = s.higho) ∧
    writtenTo s.tgt <+: writtenTo t.tgt ∧ writtenTo s.lowo <+: writtenTo t.lowo ∧
    writtenTo s.higho <+: writtenTo t.higho ∧
    sourceOf t.src = sourceOf s.src ∧ sourceOf t.low = sourceOf s.low ∧ sourceOf t.high = sourceOf s.high ∧
    fileSources t.files = fileSources s.files

/-- R35, R160: fragments are never removed or renamed, only the fragment FIDX grows, FIDX moves by at most 1, and the decode and encode operations and FNAME touch no fragment. -/
def Obligations.FragmentsOnlyGrow : Prop :=
  ∀ (i : Instr) (s t : State), exec i s = .next t →
    (∀ f ∈ s.frags, ∃ f' ∈ t.frags, f'.index = f.index ∧ f'.name = f.name ∧ f.bytes <+: f'.bytes ∧
      (f.index ≠ s.fidx.toNat → f' = f)) ∧
    (t.fidx = s.fidx ∨ t.fidx = s.fidx + 1 ∨ (i = .chunk ∧ s.phase = .check ∧ t.fidx = 0)) ∧
    ((i ≠ .chunk ∧ ∀ m le n, i ≠ splitOf m le n) → t.frags = s.frags ∧ t.nfrag = s.nfrag ∧ t.fidx = s.fidx)

/-! Invariants and whole runs. -/

/-- The reset state meets the invariant. -/
def Obligations.ResetMeetsTheInvariant : Prop := Inv State.reset

/-- R21, R23, R24, R26, R33, R35, R38, R237: every step of the machine, the host's moves included, keeps the invariant. -/
def Obligations.EveryStepKeepsTheInvariant : Prop :=
  ∀ s t : State, Inv s → step s = .next t → Inv t

/-- R244: a running operation ends, whatever state it is in, unless the spec gives it no meaning or the environment never answers. -/
def Obligations.EveryOperationEnds : Prop :=
  ∀ s : State, s.host = [] → (∀ f ∈ s.ioFaults, f.kind ≠ .silent) →
    (∃ t, EndsAt s t) ∨ ∃ t r, Steps s t ∧ step t = .refused r

/-- R235: under the launch premises every operation ends in DONE or in one of the errors 1 to 5. -/
def Obligations.LaunchPremisesGiveAnOutcome : Prop :=
  ∀ (i : Instr) (s : State), i.wf = true → Launch i s →
    ∃ t, EndsAt (s.start (encode i)) t ∧
      (t.phase = .done ∨ (t.phase = .fail ∧ 1 ≤ t.errcode.toNat ∧ t.errcode.toNat ≤ 5))
end

