-- ==== Sys2Proof/Laws/Encoding.lean ====
section
/-! SUPPORT. The fields of a packed command word are the fields it was packed from, and a word with clear reserved fields is packed from its fields (30_encoding.md R87). -/

namespace Sys2Proof

variable (n : BitVec 8) (lim dup le : Bool) (mode : BitVec 2) (opc : BitVec 4)

@[simp] theorem fieldOpc_packWord : fieldOpc (packWord n lim dup le mode opc) = opc := by
  ext i hi
  simp only [fieldOpc, packWord, BitVec.getElem_extractLsb', BitVec.getLsbD_append]
  interval_cases i <;> simp [BitVec.getLsbD_eq_getElem]

@[simp] theorem fieldMode_packWord : fieldMode (packWord n lim dup le mode opc) = mode := by
  ext i hi
  simp only [fieldMode, packWord, BitVec.getElem_extractLsb', BitVec.getLsbD_append]
  interval_cases i <;> simp [BitVec.getLsbD_eq_getElem]

@[simp] theorem fieldLe_packWord : fieldLe (packWord n lim dup le mode opc) = le := by
  simp only [fieldLe, packWord, BitVec.getLsbD_append]
  simp

@[simp] theorem fieldDup_packWord : fieldDup (packWord n lim dup le mode opc) = dup := by
  simp only [fieldDup, packWord, BitVec.getLsbD_append]
  simp

@[simp] theorem fieldLim_packWord : fieldLim (packWord n lim dup le mode opc) = lim := by
  simp only [fieldLim, packWord, BitVec.getLsbD_append]
  simp

@[simp] theorem fieldRsv0_packWord : fieldRsv0 (packWord n lim dup le mode opc) = 0 := by
  ext i hi
  simp only [fieldRsv0, packWord, BitVec.getElem_extractLsb', BitVec.getLsbD_append]
  interval_cases i <;> simp

@[simp] theorem fieldFragcount_packWord : fieldFragcount (packWord n lim dup le mode opc) = n := by
  ext i hi
  simp only [fieldFragcount, packWord, BitVec.getElem_extractLsb', BitVec.getLsbD_append]
  interval_cases i <;> simp [BitVec.getLsbD_eq_getElem]

@[simp] theorem fieldRsv1_packWord : fieldRsv1 (packWord n lim dup le mode opc) = 0 := by
  ext i hi
  simp only [fieldRsv1, packWord, BitVec.getElem_extractLsb', BitVec.getLsbD_append]
  interval_cases i <;> simp

/-- R86, R87: with the reserved fields clear, a word is its fields. -/
theorem packWord_fields (c : CmdWord) (h1 : fieldRsv1 c = 0) (h0 : fieldRsv0 c = 0) :
    packWord (fieldFragcount c) (fieldLim c) (fieldDup c) (fieldLe c) (fieldMode c) (fieldOpc c) = c := by
  have a1 : ∀ k, k < 8 → c.getLsbD (24 + k) = false := fun k hk => by
    simpa [fieldRsv1, hk] using congrArg (fun v => v.getLsbD k) h1
  have a0 : ∀ k, k < 7 → c.getLsbD (9 + k) = false := fun k hk => by
    simpa [fieldRsv0, hk] using congrArg (fun v => v.getLsbD k) h0
  apply BitVec.eq_of_getLsbD_eq
  intro i hi
  simp only [packWord, BitVec.getLsbD_append, fieldFragcount, fieldLim, fieldDup, fieldLe, fieldMode, fieldOpc,
    BitVec.getLsbD_extractLsb', BitVec.getLsbD_ofBool]
  interval_cases i <;> simp
  · exact a0 0 (by decide)
  · exact a0 1 (by decide)
  · exact a0 2 (by decide)
  · exact a0 3 (by decide)
  · exact a0 4 (by decide)
  · exact a0 5 (by decide)
  · exact a0 6 (by decide)
  · exact a1 0 (by decide)
  · exact a1 1 (by decide)
  · exact a1 2 (by decide)
  · exact a1 3 (by decide)
  · exact a1 4 (by decide)
  · exact a1 5 (by decide)
  · exact a1 6 (by decide)
  · exact a1 7 (by decide)

end Sys2Proof
end

