-- ==== Sys2Proof/Laws/State.lean ====
section
/-! SUPPORT. The small lemmas of State: setting a field twice, setting a field to its own value, and the fields of an ended or raised state. The lemma for each field after each single setter is the setter's own (`@[simps]` in Machine/State.lean, by rfl). -/

namespace Sys2Proof.Machine

variable (s : State)

@[simp] theorem State.setSrc_setSrc (a b) : (s.setSrc a).setSrc b = s.setSrc b := rfl
@[simp] theorem State.setLow_setLow (a b) : (s.setLow a).setLow b = s.setLow b := rfl
@[simp] theorem State.setHigh_setHigh (a b) : (s.setHigh a).setHigh b = s.setHigh b := rfl
@[simp] theorem State.setFiles_setFiles (a b) : (s.setFiles a).setFiles b = s.setFiles b := rfl
@[simp] theorem State.setTgt_setTgt (a b) : (s.setTgt a).setTgt b = s.setTgt b := rfl
@[simp] theorem State.setLowo_setLowo (a b) : (s.setLowo a).setLowo b = s.setLowo b := rfl
@[simp] theorem State.setHigho_setHigho (a b) : (s.setHigho a).setHigho b = s.setHigho b := rfl
@[simp] theorem State.setLatch_setLatch (a b) : (s.setLatch a).setLatch b = s.setLatch b := rfl
@[simp] theorem State.setIoFaults_setIoFaults (a b) : (s.setIoFaults a).setIoFaults b = s.setIoFaults b := rfl

theorem State.setIoFaults_self : s.setIoFaults s.ioFaults = s := rfl
theorem State.setHost_self : s.setHost s.host = s := rfl
theorem State.setLatch_self : s.setLatch s.latch = s := rfl

@[simp] theorem Operand.isWritten_written {α : Type} (v : α) : (Operand.written v).isWritten = true := rfl
@[simp] theorem Operand.isWritten_unwritten {α : Type} (v : α) : (Operand.unwritten v).isWritten = false := rfl

/-- A written operand register holds what was written. -/
theorem Operand.eq_written {α : Type} {o : Operand α} (h : o.isWritten = true) : ∃ v, o = .written v := by
  cases o with
  | unwritten => cases h
  | written v => exact ⟨v, rfl⟩

@[simp] theorem State.start_busy (w : CmdWord) : (s.start w).busy = true := rfl
@[simp] theorem State.note_busy : s.note.busy = s.busy := rfl
@[simp] theorem State.note_progress : s.note.progress = s.progress := rfl

@[simp] theorem State.release_none : s.release .none = s := rfl

/-- The end of an operation as one record update. -/
theorem finish_eq (u : Used) : finish u s = { (s.release u) with phase := .done, latch := [] } := rfl

/-- R210: the error entry as one record update. -/
theorem raise_eq (e : Err) (u : Used) :
    raise e u s = { (s.release u) with errcode := e.code, phase := .fail, latch := [] } := rfl

@[simp] theorem finish_phase (u : Used) : (finish u s).phase = .done := rfl
@[simp] theorem finish_frags (u : Used) : (finish u s).frags = s.frags := rfl
@[simp] theorem finish_nfrag (u : Used) : (finish u s).nfrag = s.nfrag := rfl
@[simp] theorem finish_latch (u : Used) : (finish u s).latch = [] := rfl
@[simp] theorem finish_errcode (u : Used) : (finish u s).errcode = s.errcode := rfl
@[simp] theorem finish_fidx (u : Used) : (finish u s).fidx = s.fidx := rfl
@[simp] theorem finish_rem (u : Used) : (finish u s).rem = s.rem := rfl
@[simp] theorem finish_host (u : Used) : (finish u s).host = s.host := rfl
@[simp] theorem finish_src (u : Used) : (finish u s).src = s.src.releaseIf u.src := rfl
@[simp] theorem finish_low (u : Used) : (finish u s).low = s.low.releaseIf u.low := rfl
@[simp] theorem finish_high (u : Used) : (finish u s).high = s.high.releaseIf u.high := rfl
@[simp] theorem finish_tgt (u : Used) : (finish u s).tgt = s.tgt.releaseIf u.tgt := rfl
@[simp] theorem finish_lowo (u : Used) : (finish u s).lowo = s.lowo.releaseIf u.lowo := rfl
@[simp] theorem finish_higho (u : Used) : (finish u s).higho = s.higho.releaseIf u.higho := rfl

@[simp] theorem raise_phase (e : Err) (u : Used) : (raise e u s).phase = .fail := rfl
@[simp] theorem raise_errcode (e : Err) (u : Used) : (raise e u s).errcode = e.code := rfl
@[simp] theorem raise_latch (e : Err) (u : Used) : (raise e u s).latch = [] := rfl
@[simp] theorem raise_frags (e : Err) (u : Used) : (raise e u s).frags = s.frags := rfl
@[simp] theorem raise_nfrag (e : Err) (u : Used) : (raise e u s).nfrag = s.nfrag := rfl
@[simp] theorem raise_host (e : Err) (u : Used) : (raise e u s).host = s.host := rfl

end Sys2Proof.Machine
end

