-- ==== Sys2Proof/Laws/Ops.lean ====
section
/-! SUPPORT. One lemma for each shared operation of Machine/Ops.lean: what a served access does, and every way an access can come out. -/

namespace Sys2Proof.Machine

/-! Ports. -/

@[simp] theorem Port.active_bound {α : Type} (v : α) : (Port.bound v).active = some v := rfl
@[simp] theorem Port.shown_bound {α : Type} (v : α) : (Port.bound v).shown = some v := rfl
@[simp] theorem Port.shown_released {α : Type} (v : α) : (Port.released v).shown = some v := rfl
@[simp] theorem Port.releaseIf_true {α : Type} (p : Port α) : p.releaseIf true = p.release := rfl
@[simp] theorem Port.releaseIf_false {α : Type} (p : Port α) : p.releaseIf false = p := rfl
@[simp] theorem Port.release_bound {α : Type} (v : α) : (Port.bound v).release = .released v := rfl

/-- The release of a stream leaves it readable. -/
@[simp] theorem Port.shown_release {α : Type} (p : Port α) : p.release.shown = p.shown := by
  cases p <;> rfl

@[simp] theorem Port.shown_releaseIf {α : Type} (b : Bool) (p : Port α) : (p.releaseIf b).shown = p.shown := by
  cases b <;> simp

theorem Port.bound_of_active {α : Type} {p : Port α} {v : α} (h : p.active = some v) : p = .bound v := by
  cases p <;> simp_all [Port.active]

theorem Port.bound_of_isBound {α : Type} {p : Port α} (h : p.isBound = true) : ∃ v, p = .bound v := by
  cases p <;> simp_all [Port.isBound]

/-! Windows of an input stream (R51). -/

theorem InStream.window_length (st : InStream) (n : Nat) :
    (st.window n).length = min n (st.data.length - st.pos) := by
  simp [InStream.window]

theorem InStream.advance_full {st : InStream} {n : Nat} (h : st.pos + n ≤ st.data.length) :
    st.advance n = { st with pos := st.pos + n } := by
  simp only [InStream.advance, InStream.window_length]
  congr 1
  omega

theorem InStream.window_two {st : InStream} (h : st.pos + 2 ≤ st.data.length) :
    st.window 2 = [st.data.getD st.pos 0, st.data.getD (st.pos + 1) 0] := by
  apply List.ext_getElem
  · simp [InStream.window_length]
    omega
  · intro i h1 h2
    simp only [InStream.window_length] at h1
    have : i = 0 ∨ i = 1 := by omega
    rcases this with rfl | rfl <;> simp [InStream.window] <;> rw [List.getElem?_eq_getElem (by omega)] <;> rfl

theorem InStream.window_one {st : InStream} (h : st.pos + 1 ≤ st.data.length) :
    st.window 1 = [st.data.getD st.pos 0] := by
  apply List.ext_getElem
  · simp [InStream.window_length]
    omega
  · intro i h1 h2
    simp only [InStream.window_length] at h1
    have : i = 0 := by omega
    subst this
    simp [InStream.window]
    rw [List.getElem?_eq_getElem (by omega)]
    rfl

theorem InStream.window_four {st : InStream} (h : st.pos + 4 ≤ st.data.length) :
    st.window 4 = [st.data.getD st.pos 0, st.data.getD (st.pos + 1) 0, st.data.getD (st.pos + 2) 0,
      st.data.getD (st.pos + 3) 0] := by
  apply List.ext_getElem
  · simp [InStream.window_length]
    omega
  · intro i h1 h2
    simp only [InStream.window_length] at h1
    have : i = 0 ∨ i = 1 ∨ i = 2 ∨ i = 3 := by omega
    rcases this with rfl | rfl | rfl | rfl <;> simp [InStream.window] <;>
      rw [List.getElem?_eq_getElem (by omega)] <;> rfl

/-! The environment's answer. -/

theorem ioAnswer_served {s : State} (h : s.ioFaults = []) : ioAnswer s = .serve s := by
  simp [ioAnswer, h]

/-- Everything the environment can answer; only the schedule changes. -/
theorem ioAnswer_cases (s : State) :
    (∃ fs, ioAnswer s = .serve (s.setIoFaults fs)) ∨
    (∃ landed created fs, ioAnswer s = .fail landed created (s.setIoFaults fs)) ∨ ioAnswer s = .silent := by
  unfold ioAnswer
  split
  · exact .inl ⟨s.ioFaults, rfl⟩
  · exact .inl ⟨_, rfl⟩
  · exact .inr (.inl ⟨_, _, _, rfl⟩)
  · exact .inr (.inr rfl)

/-! Served accesses. -/

theorem memRead_served {s : State} {p : InSel} {st : InStream} (n : Nat) (h : s.ioFaults = [])
    (hp : s.input p = some st) : memRead p n s = .ok (st.window n) (s.setInput p (st.advance n)) := by
  simp [memRead, ioAnswer_served h, hp]

theorem memLen_served {s : State} {p : InSel} {st : InStream} (h : s.ioFaults = [])
    (hp : s.input p = some st) (hk : st.seek = true) : memLen p s = .ok st.data.length s := by
  simp [memLen, ioAnswer_served h, hp, hk]

theorem memRewind_served {s : State} {p : InSel} {st : InStream} (h : s.ioFaults = [])
    (hp : s.input p = some st) : memRewind p s = .ok () (s.setInput p st.rewind) := by
  simp [memRewind, ioAnswer_served h, hp]

theorem memWrite_served {s s2 : State} {p : OutSel} {v : List Byte} (h : s.ioFaults = [])
    (hp : s.output p v = some s2) : memWrite p v s = .ok () s2 := by
  simp [memWrite, ioAnswer_served h, hp]

/-! Every way an access can come out. -/

@[simp] theorem State.input_setIoFaults (s : State) (p : InSel) (fs) : (s.setIoFaults fs).input p = s.input p := by
  cases p <;> rfl

theorem memRead_cases (p : InSel) (n : Nat) (s : State) :
    (∃ fs st, s.input p = some st ∧
      memRead p n s = .ok (st.window n) ((s.setIoFaults fs).setInput p (st.advance n))) ∨
    (∃ fs, memRead p n s = .ioFault (s.setIoFaults fs)) ∨ memRead p n s = .silent := by
  unfold memRead
  obtain ⟨fs, h⟩ | ⟨l, c, fs, h⟩ | h := ioAnswer_cases s <;> simp only [h]
  · simp only [State.input_setIoFaults]
    cases hp : s.input p
    · exact .inr (.inl ⟨fs, rfl⟩)
    · exact .inl ⟨fs, _, rfl, rfl⟩
  · exact .inr (.inl ⟨fs, rfl⟩)
  · exact .inr (.inr trivial)

theorem memLen_cases (p : InSel) (s : State) :
    (∃ fs st, s.input p = some st ∧ st.seek = true ∧ memLen p s = .ok st.data.length (s.setIoFaults fs)) ∨
    (∃ fs, memLen p s = .ioFault (s.setIoFaults fs)) ∨ memLen p s = .silent := by
  unfold memLen
  obtain ⟨fs, h⟩ | ⟨l, c, fs, h⟩ | h := ioAnswer_cases s <;> simp only [h]
  · simp only [State.input_setIoFaults]
    cases hp : s.input p with
    | none => exact .inr (.inl ⟨fs, rfl⟩)
    | some st =>
      by_cases hk : st.seek = true
      · exact .inl ⟨fs, st, rfl, hk, by simp [hk]⟩
      · exact .inr (.inl ⟨fs, by simp [hk]⟩)
  · exact .inr (.inl ⟨fs, rfl⟩)
  · exact .inr (.inr trivial)

theorem memRewind_cases (p : InSel) (s : State) :
    (∃ fs st, s.input p = some st ∧ memRewind p s = .ok () ((s.setIoFaults fs).setInput p st.rewind)) ∨
    (∃ fs, memRewind p s = .ioFault (s.setIoFaults fs)) ∨ memRewind p s = .silent := by
  unfold memRewind
  obtain ⟨fs, h⟩ | ⟨l, c, fs, h⟩ | h := ioAnswer_cases s <;> simp only [h]
  · simp only [State.input_setIoFaults]
    cases hp : s.input p
    · exact .inr (.inl ⟨fs, rfl⟩)
    · exact .inl ⟨fs, _, rfl, rfl⟩
  · exact .inr (.inl ⟨fs, rfl⟩)
  · exact .inr (.inr trivial)

/-- A write appends all of `v`, or fails with a prefix of `v` (none of it, perhaps) in the output, or is never answered. -/
theorem memWrite_cases (p : OutSel) (v : List Byte) (s : State) :
    (∃ fs s2, (s.setIoFaults fs).output p v = some s2 ∧ memWrite p v s = .ok () s2) ∨
    (∃ fs, memWrite p v s = .ioFault (s.setIoFaults fs)) ∨
    (∃ fs k s2, (s.setIoFaults fs).output p (v.take k) = some s2 ∧ memWrite p v s = .ioFault s2) ∨
    memWrite p v s = .silent := by
  unfold memWrite
  obtain ⟨fs, h⟩ | ⟨l, c, fs, h⟩ | h := ioAnswer_cases s <;> simp only [h]
  · cases hp : (s.setIoFaults fs).output p v
    · exact .inr (.inl ⟨fs, rfl⟩)
    · exact .inl ⟨fs, _, hp, rfl⟩
  · unfold State.partialWrite
    split
    · exact .inr (.inl ⟨fs, rfl⟩)
    · cases hp : (s.setIoFaults fs).output p (v.take (min l (v.length - 1))) with
      | none => exact .inr (.inl ⟨fs, by simp⟩)
      | some s2 => exact .inr (.inr (.inl ⟨fs, _, s2, hp, by simp⟩))
  · exact .inr (.inr (.inr trivial))

/-! Going on after an access. -/

@[simp] theorem Access.bind_ok {α β : Type} (a : α) (s : State) (k : α → State → Access β) :
    (Access.ok a s).bind k = k a s := rfl
@[simp] theorem Access.bind_ioFault {α β : Type} (s : State) (k : α → State → Access β) :
    (Access.ioFault s : Access α).bind k = .ioFault s := rfl
@[simp] theorem Access.bind_silent {α β : Type} (k : α → State → Access β) :
    (Access.silent : Access α).bind k = .silent := rfl
@[simp] theorem Access.andThen_ok {α : Type} (a : α) (s : State) (u : Used) (k : α → State → Result) :
    (Access.ok a s).andThen u k = k a s := rfl
@[simp] theorem Access.andThen_ioFault {α : Type} (s : State) (u : Used) (k : α → State → Result) :
    (Access.ioFault s : Access α).andThen u k = .next (raise .io u s) := rfl
@[simp] theorem Access.andThen_silent {α : Type} (u : Used) (k : α → State → Result) :
    (Access.silent : Access α).andThen u k = .fault .environmentSilent := rfl

/-! The shared checks. -/

/-- No shared resource and fitting lengths leave nothing to refuse. -/
theorem State.portRefusal_none {s : State} {u : Used} (ha : s.portAlias u = false) (hl : s.lengthsFit u = true) :
    s.portRefusal u = none := by
  simp [State.portRefusal, ha, hl]

/-- With no refusal condition and every used port bound, the operation's own checks follow. -/
theorem checkPorts_passed {s : State} {u : Used} {refusal : Option Refusal} (k : Result) (hr : refusal = none)
    (hb : s.portsBound u = true) : checkPorts refusal u s k = k := by
  simp [checkPorts, hr, hb]

/-- Everything the shared part of a CHECK step can come to. -/
theorem checkPorts_cases (refusal : Option Refusal) (u : Used) (s : State) (k : Result) :
    (∃ r, refusal = some r ∧ checkPorts refusal u s k = .refused r) ∨
    (refusal = none ∧ s.portsBound u = true ∧ checkPorts refusal u s k = k) ∨
    (refusal = none ∧ s.portsBound u = false ∧ checkPorts refusal u s k = .next (raise .io u s)) := by
  unfold checkPorts
  cases refusal with
  | some r => exact .inl ⟨r, rfl, rfl⟩
  | none =>
    cases hb : s.portsBound u
    · exact .inr (.inr ⟨rfl, rfl, by simp⟩)
    · exact .inr (.inl ⟨rfl, rfl, by simp⟩)

end Sys2Proof.Machine
end

