-- ==== Sys2Proof/Laws/Streams.lean ====
section
/-! SUPPORT. One lemma for each shared run step of the three families when every access is served: what a unit, a short read, a used-up budget does. -/

namespace Sys2Proof.Machine

variable {s : State}

/-! Decoding (R110). -/

/-- R62: `DEC16` and `SPLITDEC16` read one unit of `SRC`. -/
theorem readUnit_w16 (le : Bool) {st : InStream} (h : s.ioFaults = []) (hs : s.src = .bound st) :
    readUnit .w16 le s = .ok (decide (2 ≤ (st.window 2).length))
      ((s.setSrc (.bound (st.advance 2))).setLatch (corr le (st.window 2))) := by
  have hi : s.input .src = some st := by simp [State.input, hs]
  simp [readUnit, memRead_served 2 h hi, State.setInput]

/-- R62, R65: a dual-lane decode reads one lane unit of each lane; `F` is the first-role lane. -/
theorem readUnit_dual {m : Mode} (hm : m ≠ .w16) (le : Bool) {l g : InStream} (h : s.ioFaults = [])
    (hl : s.low = .bound l) (hg : s.high = .bound g) :
    readUnit m le s = .ok
      (decide (m.laneUnit ≤ (l.window m.laneUnit).length) && decide (m.laneUnit ≤ (g.window m.laneUnit).length))
      (((s.setLow (.bound (l.advance m.laneUnit))).setHigh (.bound (g.advance m.laneUnit))).setLatch
        (if le then corr le (l.window m.laneUnit) ++ corr le (g.window m.laneUnit)
          else corr le (g.window m.laneUnit) ++ corr le (l.window m.laneUnit))) := by
  cases le
  · have e : readUnit m false s = (memRead .high m.laneUnit s).bind fun a s1 =>
        (memRead .low m.laneUnit s1).bind fun b s2 =>
          .ok (decide (m.laneUnit ≤ a.length) && decide (m.laneUnit ≤ b.length))
            (s2.setLatch (corr false a ++ corr false b)) := by
      cases m <;> first | exact absurd rfl hm | rfl
    rw [e, memRead_served (st := g) _ h (by simp [State.input, hg]), Access.bind_ok,
      memRead_served (st := l) _ (by simpa [State.setInput] using h) (by simp [State.input, State.setInput, hl]),
      Access.bind_ok, Bool.and_comm]
    rfl
  · have e : readUnit m true s = (memRead .low m.laneUnit s).bind fun a s1 =>
        (memRead .high m.laneUnit s1).bind fun b s2 =>
          .ok (decide (m.laneUnit ≤ a.length) && decide (m.laneUnit ≤ b.length))
            (s2.setLatch (corr true a ++ corr true b)) := by
      cases m <;> first | exact absurd rfl hm | rfl
    rw [e, memRead_served (st := l) _ h (by simp [State.input, hl]), Access.bind_ok,
      memRead_served (st := g) _ (by simpa [State.setInput] using h) (by simp [State.input, State.setInput, hg]),
      Access.bind_ok]
    rfl

theorem InStream.window_full {st : InStream} {n : Nat} (h : st.pos + n ≤ st.data.length) :
    n ≤ (st.window n).length := by
  rw [InStream.window_length]
  omega

theorem InStream.window_short {st : InStream} {n : Nat} (hn : 0 < n) (h : st.data.length < st.pos + n) :
    ¬ n ≤ (st.window n).length := by
  rw [InStream.window_length]
  omega

theorem Mode.laneUnit_pos (m : Mode) : 0 < m.laneUnit := by cases m <;> decide
theorem Mode.flatUnit_pos (m : Mode) : 0 < m.flatUnit := by cases m <;> decide

theorem readUnit_w16_full (le : Bool) {st : InStream} (h : s.ioFaults = []) (hs : s.src = .bound st)
    (hn : st.pos + 2 ≤ st.data.length) :
    readUnit .w16 le s = .ok true ((s.setSrc (.bound { st with pos := st.pos + 2 })).setLatch
      (corr le [st.data.getD st.pos 0, st.data.getD (st.pos + 1) 0])) := by
  rw [readUnit_w16 le h hs, decide_eq_true (InStream.window_full hn), InStream.window_two hn,
    InStream.advance_full hn]

theorem readUnit_w16_short (le : Bool) {st : InStream} (h : s.ioFaults = []) (hs : s.src = .bound st)
    (hn : st.data.length < st.pos + 2) :
    readUnit .w16 le s = .ok false ((s.setSrc (.bound (st.advance 2))).setLatch (corr le (st.window 2))) := by
  rw [readUnit_w16 le h hs, decide_eq_false (InStream.window_short (by decide) hn)]

/-- The flat unit of two lane units: the first-role lane is `LOW` when `LE` = 1 and `HIGH` when `LE` = 0 (R56). -/
def dualFlat (le : Bool) (l h : List Byte) : List Byte := if le then corr le l ++ corr le h else corr le h ++ corr le l

theorem readUnit_dual_full {m : Mode} (hm : m ≠ .w16) (le : Bool) {l g : InStream} (h : s.ioFaults = [])
    (hl : s.low = .bound l) (hg : s.high = .bound g)
    (hn : l.pos + m.laneUnit ≤ l.data.length) (hk : g.pos + m.laneUnit ≤ g.data.length) :
    readUnit m le s = .ok true
      (((s.setLow (.bound { l with pos := l.pos + m.laneUnit })).setHigh
        (.bound { g with pos := g.pos + m.laneUnit })).setLatch
          (dualFlat le (l.window m.laneUnit) (g.window m.laneUnit))) := by
  rw [readUnit_dual hm le h hl hg, decide_eq_true (InStream.window_full hn),
    decide_eq_true (InStream.window_full hk), InStream.advance_full hn, InStream.advance_full hk]
  rfl

theorem readUnit_dual_short {m : Mode} (hm : m ≠ .w16) (le : Bool) {l g : InStream} (h : s.ioFaults = [])
    (hl : s.low = .bound l) (hg : s.high = .bound g)
    (hn : l.data.length < l.pos + m.laneUnit ∨ g.data.length < g.pos + m.laneUnit) :
    readUnit m le s = .ok false
      (((s.setLow (.bound (l.advance m.laneUnit))).setHigh (.bound (g.advance m.laneUnit))).setLatch
          (dualFlat le (l.window m.laneUnit) (g.window m.laneUnit))) := by
  rw [readUnit_dual hm le h hl hg]
  rcases hn with hn | hn
  · rw [decide_eq_false (InStream.window_short m.laneUnit_pos hn)]
    rfl
  · rw [decide_eq_false (InStream.window_short m.laneUnit_pos hn), Bool.and_false]
    rfl

/-- R110: a used-up budget is seen before anything is read. -/
theorem decodeIter_budget (m : Mode) (le : Bool) (out : OutSel) (h : s.rem = 0) :
    decodeIter m le true out s = .ok .budget s := by
  simp [decodeIter, h]

/-- R110: a whole unit is written and the budget drops. -/
theorem decodeIter_moved {m : Mode} {le hb : Bool} {out : OutSel} {s1 s2 : State}
    (hb0 : hb = true → s.rem ≠ 0) (hr : readUnit m le s = .ok true s1) (h1 : s1.ioFaults = [])
    (ho : s1.output out s1.latch = some s2) :
    decodeIter m le hb out s = .ok .moved ((s2.setLatch []).spend m hb) := by
  have hc : (hb && s.rem == 0) = false := by
    cases hb
    · rfl
    · simpa using hb0 rfl
  simp only [decodeIter, hc, hr, Access.bind_ok, Bool.false_eq_true, if_false, if_true, memWrite_served h1 ho]

/-- R60: a short read ends the run with nothing written. -/
theorem decodeIter_exhausted {m : Mode} {le hb : Bool} {out : OutSel} {s1 : State}
    (hb0 : hb = true → s.rem ≠ 0) (hr : readUnit m le s = .ok false s1) :
    decodeIter m le hb out s = .ok .exhausted (s1.setLatch []) := by
  have hc : (hb && s.rem == 0) = false := by
    cases hb
    · rfl
    · simpa using hb0 rfl
  simp only [decodeIter, hc, hr, Access.bind_ok, Bool.false_eq_true, if_false]

/-! Encoding (R143). -/

theorem input_file {fs : List InStream} (hf : s.files = .bound fs) (j : Nat) : s.input (.file j) = fs[j]? := by
  simp [State.input, hf]

/-- R62: an encode reads one flat unit of the current file. -/
theorem memRead_file {fs : List InStream} {st : InStream} (n : Nat) (h : s.ioFaults = [])
    (hf : s.files = .bound fs) (hj : fs[s.srci]? = some st) :
    memRead (.file s.srci) n s = .ok (st.window n) (s.setFiles (.bound (fs.set s.srci (st.advance n)))) := by
  rw [memRead_served n h (by rw [input_file hf, hj])]
  simp [State.setInput, hf, Port.mapBound]

/-- R143: the rewind at the start of a pass. -/
theorem enterFile_some {fs : List InStream} {st : InStream} {j : Nat} (h : s.ioFaults = [])
    (hf : s.files = .bound fs) (hj : fs[j]? = some st) :
    enterFile j s = .ok () (s.setFiles (.bound (fs.set j st.rewind))) := by
  have hi : s.input (.file j) = some st := by rw [input_file hf, hj]
  simp only [enterFile, hi, memRewind_served h hi]
  simp [State.setInput, hf, Port.mapBound]

theorem enterFile_none {fs : List InStream} {j : Nat} (hf : s.files = .bound fs) (hj : fs.length ≤ j) :
    enterFile j s = .ok () s := by
  have hi : s.input (.file j) = none := by rw [input_file hf]; simpa using hj
  simp [enterFile, hi]

/-- R143: a whole unit is written. -/
theorem encodeIter_unit {m : Mode} {le dup : Bool} {fs : List InStream} {st : InStream} {s2 : State}
    (h : s.ioFaults = []) (hf : s.files = .bound fs) (hj : fs[s.srci]? = some st)
    (hn : st.pos + m.flatUnit ≤ st.data.length)
    (hw : writeUnit m le (st.window m.flatUnit)
      ((s.setFiles (.bound (fs.set s.srci { st with pos := st.pos + m.flatUnit }))).setLatch (st.window m.flatUnit)) =
        .ok () s2) :
    encodeIter m le dup s = .ok () (s2.setLatch []) := by
  have hl : m.flatUnit ≤ (st.window m.flatUnit).length := by
    rw [InStream.window_length]
    omega
  simp [encodeIter, memRead_file m.flatUnit h hf hj, hl, InStream.advance_full hn, hw]

/-- R141: a short read ends the pass. -/
theorem encodeIter_short {m : Mode} {le dup : Bool} {fs : List InStream} {st : InStream}
    (h : s.ioFaults = []) (hf : s.files = .bound fs) (hj : fs[s.srci]? = some st)
    (hn : st.data.length < st.pos + m.flatUnit) :
    encodeIter m le dup s =
      nextPass dup ((s.setFiles (.bound (fs.set s.srci (st.advance m.flatUnit)))).setLatch []) := by
  have hl : ¬ m.flatUnit ≤ (st.window m.flatUnit).length := by
    rw [InStream.window_length]
    have : 0 < m.flatUnit := by cases m <;> decide
    omega
  simp only [encodeIter, memRead_file m.flatUnit h hf hj, Access.bind_ok, if_neg hl]

end Sys2Proof.Machine
end

