-- ==== Sys2Proof/Laws/Steps.lean ====
section
/-! SUPPORT. Which part of an operation a step is: one lemma per family for the CHECK phase, the RUN phase, and the quiescent phases (10_state.md R27); and how a step of the machine comes to run it. -/

namespace Sys2Proof.Machine

variable {s : State}

theorem stepDec_check (m : Mode) (le lim : Bool) (h : s.phase = .check) : stepDec m le lim s = checkDec m lim s := by
  simp only [stepDec, h]

theorem stepDec_run (m : Mode) (le lim : Bool) (h : s.phase = .run) : stepDec m le lim s = runDec m le lim s := by
  simp only [stepDec, h]

theorem stepEnc_check (m : Mode) (le dup : Bool) (h : s.phase = .check) : stepEnc m le dup s = checkEnc m dup s := by
  simp only [stepEnc, h]

theorem stepEnc_run (m : Mode) (le dup : Bool) (h : s.phase = .run) : stepEnc m le dup s = runEnc m le dup s := by
  simp only [stepEnc, h]

theorem stepSplit_check (m : Mode) (le : Bool) (n : BitVec 8) (h : s.phase = .check) :
    stepSplit m le n s = checkSplit m n s := by
  simp only [stepSplit, h]

theorem stepSplit_run (m : Mode) (le : Bool) (n : BitVec 8) (h : s.phase = .run) :
    stepSplit m le n s = runSplit m le n s := by
  simp only [stepSplit, h]

theorem execFname_check (h : s.phase = .check) : execFname s = checkFname s := by
  simp only [execFname, h]

theorem execChunk_check (h : s.phase = .check) : execChunk s = checkChunk s := by
  simp only [execChunk, h]

theorem execChunk_run (h : s.phase = .run) : execChunk s = runChunk s := by
  simp only [execChunk, h]

/-- The meaning of a decode in any mode. -/
theorem exec_decodeOp (m : Mode) (le lim : Bool) (s : State) : exec (decodeOp m le lim) s = stepDec m le lim s := by
  cases m <;> rfl

/-- The meaning of an encode in any mode. -/
theorem exec_encOf (m : Mode) (le dup : Bool) (s : State) : exec (encOf m le dup) s = stepEnc m le dup s := by
  cases m <;> rfl

/-- The meaning of a split decode in any mode. -/
theorem exec_splitOf (m : Mode) (le : Bool) (n : BitVec 8) (s : State) :
    exec (splitOf m le n) s = stepSplit m le n s := by
  cases m <;> rfl

@[simp] theorem usedPorts_decodeOp (m : Mode) (le lim : Bool) : usedPorts (decodeOp m le lim) = decUsed m := by
  cases m <;> rfl

@[simp] theorem usedPorts_encOf (m : Mode) (le dup : Bool) : usedPorts (encOf m le dup) = encUsed m := by
  cases m <;> rfl

@[simp] theorem usedPorts_splitOf (m : Mode) (le : Bool) (n : BitVec 8) : usedPorts (splitOf m le n) = splitUsed m := by
  cases m <;> rfl

/-- An operation in IDLE, DONE or FAIL makes no step. -/
theorem exec_quiet (i : Instr) (h : s.busy = false) : exec i s = .next s := by
  cases hp : s.phase <;> simp [State.busy, hp] at h <;>
    cases i <;>
    simp only [exec, execDec16, execDec32, execDec8, execEnc16, execEnc32, execEnc8, execSplitDec16, execSplitDec32,
      execSplitDec8, execFname, execChunk, stepDec, stepEnc, stepSplit, hp]

/-! The machine's step. -/

/-- R232: a reset inside a step strikes where an I/O fault would have. -/
theorem State.struck_of_next {s t : State} {served landed : Nat} {created : Bool}
    (h : transcoderStep (s.setIoFaults [⟨served, .fail landed created⟩]) = .next t) :
    s.struck served landed created = t := by
  simp only [State.struck, h]

/-- With no host move to make, the transcoder steps. -/
theorem step_quiet (h : s.host = []) : step s = transcoderStep s := by
  simp only [step, nextMove, h]

/-! Noting the moment, and a passing tick. -/

@[simp] theorem noted_next (t : State) : noted (.next t) = .next t.note := rfl
@[simp] theorem noted_fault (f : Fault) : noted (.fault f) = .fault f := rfl
@[simp] theorem noted_refused (x : Refusal) : noted (.refused x) = .refused x := rfl
@[simp] theorem passTick_next (s t : State) : passTick s (.next t) = .next t := rfl
@[simp] theorem passTick_fault (s : State) (f : Fault) : passTick s (.fault f) = .next s := rfl
@[simp] theorem passTick_refused (s : State) (x : Refusal) : passTick s (.refused x) = .refused x := rfl

/-- Only a next state is noted. -/
theorem noted_eq_next {r : Result} {t : State} (h : noted r = .next t) : ∃ t0, r = .next t0 ∧ t = t0.note := by
  cases r with
  | next t0 => exact ⟨t0, rfl, by simpa using h.symm⟩
  | fault | refused => cases h

/-- A tick runs the transcoder's step, or passes. -/
theorem passTick_eq_next {s t : State} {r : Result} (h : passTick s r = .next t) :
    r = .next t ∨ (t = s ∧ ∃ f, r = .fault f) := by
  cases r with
  | next t0 => exact .inl h
  | fault f => exact .inr ⟨by simpa using h.symm, f, rfl⟩
  | refused => cases h

/-- R27: a running operation's step. -/
theorem transcoderStep_ok {i : Instr} (hb : s.busy = true) (hd : decode s.cmd = .ok i) :
    transcoderStep s = noted (exec i s) := by
  simp only [transcoderStep, hb, hd, if_true]

/-- R92: a running illegal command's step. -/
theorem transcoderStep_error {e : Illegal} (hb : s.busy = true) (hd : decode s.cmd = .error e) :
    transcoderStep s = .next (raise .illcmd .none s).note := by
  simp only [transcoderStep, hb, hd, if_true, noted_next]

theorem transcoderStep_idle (hb : s.busy = false) : transcoderStep s = .next s := by
  simp only [transcoderStep, hb, Bool.false_eq_true, if_false]

end Sys2Proof.Machine
end

