-- ==== Sys2Proof/Laws/Work.lean ====
section
/-! SUPPORT. Everything a step of an operation can do, said once: `Work` lists the small updates a step is made of, `Close` the ways it ends, and `exec_work` says that every step of every operation is a chain of the first followed by one of the second. Frames and invariants follow from the two lists without unfolding a meaning. -/

namespace Sys2Proof.Machine

/-- The input ports an operation uses (R89). -/
def usesIn (u : Used) : InSel → Bool
  | .src => u.src
  | .low => u.low
  | .high => u.high
  | .file _ => u.files

/-- The operations that write fragments. -/
def writesFrags : Instr → Bool
  | .splitDec16 _ _ | .splitDec32 _ _ | .splitDec8 _ _ | .chunk => true
  | _ => false

/-- The outputs an operation uses (R89); of the fragments, only the one `FIDX` names (R160). -/
def usesOut (i : Instr) (s : State) : OutSel → Prop
  | .tgt => (usedPorts i).tgt = true
  | .lowo => (usedPorts i).lowo = true
  | .higho => (usedPorts i).higho = true
  | .frag k b => writesFrags i = true ∧ k = s.fidx.toNat ∧ s.base = .written b

/-- The same stream with its cursor elsewhere; a cursor inside stays inside (R33). -/
structure SameStream (st st' : InStream) : Prop where
  res : st'.res = st.res
  data : st'.data = st.data
  seek : st'.seek = st.seek
  inside : st.inside → st'.inside

/-- The small updates a step of operation `i` is made of. -/
inductive Work (i : Instr) : State → State → Prop where
  | io (s : State) (fs : List IoFault) : Work i s (s.setIoFaults fs)
  | input (s : State) (p : InSel) (st st' : InStream) : usesIn (usedPorts i) p = true → s.input p = some st →
      SameStream st st' → Work i s (s.setInput p st')
  | output (s s2 : State) (p : OutSel) (v : List Byte) : usesOut i s p → s.output p v = some s2 → Work i s s2
  | latch (s : State) (v : List Byte) : Work i s (s.setLatch v)
  | rem (s : State) (v : Len) : Work i s (s.setRem v)
  | srci (s : State) (v : Nat) : Work i s (s.setSrci v)
  | pass (s : State) (v : Bool) : Work i s (s.setPass v)
  | fcnt (s : State) (v : Nat) : Work i s (s.setFcnt v)
  | freeCtr (s : State) (v : Nat) : Work i s (s.setFreeCtr v)

/-- A chain of small updates. -/
abbrev Works (i : Instr) (s t : State) : Prop := Relation.ReflTransGen (Work i) s t

/-- How a step of operation `i` that began in `s` and worked to `m` ends. -/
inductive Close (i : Instr) (s m : State) : State → Prop where
  /-- The run goes on. -/
  | stay : s.phase = .run → i ≠ .fname → (s.latch = [] → m.latch = []) → Close i s m m
  /-- The run goes on with the next fragment of a split decode (R164). -/
  | nextSplit (md : Mode) (le : Bool) (n : BitVec 8) : s.phase = .run → i = splitOf md le n →
      (s.latch = [] → m.latch = []) → m.fidx.toNat + 1 < n.toNat → Close i s m (m.setFidx (m.fidx + 1))
  /-- The run goes on with the next fragment of a chunk (R182). -/
  | nextChunk : s.phase = .run → i = .chunk → (s.latch = [] → m.latch = []) → m.fidx.toNat ≠ 128 →
      Close i s m (m.setFidx (m.fidx + 1))
  /-- The operation ends with success. -/
  | done : s.phase = .run → Close i s m (finish (usedPorts i) m)
  /-- `CHUNK` ends with `WARN` (R184). -/
  | doneWarn : s.phase = .run → i = .chunk → Close i s m (finish (usedPorts i) (m.setWarn true))
  /-- `FNAME` ends (R171). -/
  | doneName (b : Name) (v : Len) : s.phase = .check → i = .fname → s.base = .written b →
      Close i s m (finish (usedPorts i) (m.setNameout (fragName b v.toNat)))
  /-- An error ends it (R210). -/
  | failed (e : Err) : s.busy = true → Close i s m (raise e (usedPorts i) m)
  /-- `SPLITDEC` with `FRAGCOUNT` 0, which no legal word encodes. -/
  | failedCount (md : Mode) (le : Bool) : s.phase = .check → i = splitOf md le 0 → Close i s m (raise .illcmd .none m)
  /-- The divisibility error, `TOTAL` written (R163). -/
  | failedDivis (md : Mode) (le : Bool) (n : BitVec 8) (v : Len) : s.phase = .check → i = splitOf md le n →
      Close i s m (raise .divis (usedPorts i) (m.setTotal v))
  /-- The checks passed. -/
  | begin : s.phase = .check → i ≠ .fname → i ≠ .chunk → m.latch = s.latch → Close i s m (m.setPhase .run)
  | beginChunk : s.phase = .check → i = .chunk → m.latch = s.latch → Close i s m ((m.setFidx 0).setPhase .run)
  /-- The checks of a split decode passed, `TOTAL` and `FRAGLIM` written (R163). -/
  | beginSplit (md : Mode) (le : Bool) (n : BitVec 8) (v w : Len) : s.phase = .check → i = splitOf md le n →
      m.latch = s.latch → Close i s m (((m.setTotal v).setFraglim w).setPhase .run)

/-! Accesses as chains. -/

/-- Every state an access leaves behind satisfies `P`; the value it gives and its state satisfy `Q`. -/
def Access.all {α : Type} (P : State → Prop) (Q : α → State → Prop) : Access α → Prop
  | .ok a s => Q a s
  | .ioFault s => P s
  | .silent => True

theorem Access.all_bind {α β : Type} {P : State → Prop} {Q : α → State → Prop} {Q' : β → State → Prop}
    {r : Access α} {k : α → State → Access β} (h : r.all P Q) (hk : ∀ a s, Q a s → (k a s).all P Q') :
    (r.bind k).all P Q' := by
  cases r with
  | ok a s => exact hk a s h
  | ioFault s => exact h
  | silent => trivial

theorem Access.all_mono {α : Type} {P : State → Prop} {Q Q' : α → State → Prop} {r : Access α}
    (h : r.all P Q) (hk : ∀ a s, Q a s → Q' a s) : r.all P Q' := by
  cases r with
  | ok a s => exact hk a s h
  | ioFault s => exact h
  | silent => trivial

/-- What follows an access that gives a next state: the access was served, or it failed and `ERR_IO` was raised. -/
theorem Access.andThen_next {α : Type} {P : State → Prop} {Q : α → State → Prop} {r : Access α} {u : Used}
    {k : α → State → Result} {t : State} (h : r.all P Q) (ht : r.andThen u k = .next t) :
    (∃ a s, Q a s ∧ k a s = .next t) ∨ ∃ s, P s ∧ t = raise .io u s := by
  cases r with
  | ok a s => exact .inl ⟨a, s, h, ht⟩
  | ioFault s => exact .inr ⟨s, h, by simpa [Access.andThen] using ht.symm⟩
  | silent => simp [Access.andThen] at ht

variable {i : Instr} {s0 s : State}

theorem InStream.sameStream_advance (st : InStream) (n : Nat) : SameStream st (st.advance n) where
  res := rfl
  data := rfl
  seek := rfl
  inside h := by
    simp only [InStream.inside, InStream.advance, InStream.window_length] at *
    omega

theorem InStream.sameStream_rewind (st : InStream) : SameStream st st.rewind where
  res := rfl
  data := rfl
  seek := rfl
  inside _ := Nat.zero_le _

/-- The registers no small update writes. -/
structure Kept (s t : State) : Prop where
  cmd : t.cmd = s.cmd
  errcode : t.errcode = s.errcode
  limit : t.limit = s.limit
  maxsize : t.maxsize = s.maxsize
  index : t.index = s.index
  base : t.base = s.base
  nameout : t.nameout = s.nameout
  fidx : t.fidx = s.fidx
  total : t.total = s.total
  fraglim : t.fraglim = s.fraglim
  warn : t.warn = s.warn
  phase : t.phase = s.phase
  host : t.host = s.host
  lastRead : t.lastRead = s.lastRead
  leftBehind : t.leftBehind = s.leftBehind
  passed : t.passed = s.passed

theorem State.kept_setInput (s : State) (p : InSel) (st : InStream) : Kept s (s.setInput p st) := by
  cases p <;> constructor <;> rfl

theorem State.kept_output {s s2 : State} {p : OutSel} {v : List Byte} (h : s.output p v = some s2) : Kept s s2 := by
  cases p with
  | frag k b =>
    simp only [State.output, Option.some.injEq] at h
    subst h
    constructor <;> rfl
  | tgt | lowo | higho =>
    simp only [State.output, Option.map_eq_some_iff] at h
    obtain ⟨o, -, rfl⟩ := h
    constructor <;> rfl

theorem Work.kept {t : State} (h : Work i s t) : Kept s t := by
  cases h with
  | input p st st' _ _ _ => exact State.kept_setInput s p st'
  | output _ _ _ _ ho => exact State.kept_output ho
  | io | latch | rem | srci | pass | fcnt | freeCtr => constructor <;> rfl

theorem Kept.refl (s : State) : Kept s s := by constructor <;> rfl

theorem Kept.trans {s t r : State} (h : Kept s t) (g : Kept t r) : Kept s r where
  cmd := g.cmd.trans h.cmd
  errcode := g.errcode.trans h.errcode
  limit := g.limit.trans h.limit
  maxsize := g.maxsize.trans h.maxsize
  index := g.index.trans h.index
  base := g.base.trans h.base
  nameout := g.nameout.trans h.nameout
  fidx := g.fidx.trans h.fidx
  total := g.total.trans h.total
  fraglim := g.fraglim.trans h.fraglim
  warn := g.warn.trans h.warn
  phase := g.phase.trans h.phase
  host := g.host.trans h.host
  lastRead := g.lastRead.trans h.lastRead
  leftBehind := g.leftBehind.trans h.leftBehind
  passed := g.passed.trans h.passed

/-- R25, R28, R30: a chain of small updates writes no command, operand, result or status register. -/
theorem Works.kept {t : State} (h : Works i s t) : Kept s t := by
  induction h with
  | refl => exact Kept.refl s
  | tail _ h ih => exact ih.trans h.kept

/-! Each shared operation as a chain. -/

theorem memRead_work {p : InSel} (n : Nat) (hu : usesIn (usedPorts i) p = true) (h : Works i s0 s) :
    (memRead p n s).all (Works i s0) fun _ t => Works i s0 t ∧
      ∃ fs st, s.input p = some st ∧ t = (s.setIoFaults fs).setInput p (st.advance n) := by
  obtain ⟨fs, st, hp, e⟩ | ⟨fs, e⟩ | e := memRead_cases p n s <;> rw [e]
  · exact ⟨(h.tail (.io s fs)).tail
      (.input _ p st _ hu (by rw [State.input_setIoFaults, hp]) (st.sameStream_advance n)), fs, st, hp, rfl⟩
  · exact h.tail (.io s fs)
  · trivial

theorem memRewind_work {p : InSel} (hu : usesIn (usedPorts i) p = true) (h : Works i s0 s) :
    (memRewind p s).all (Works i s0) fun _ t => Works i s0 t ∧
      ∃ fs st, s.input p = some st ∧ t = (s.setIoFaults fs).setInput p st.rewind := by
  obtain ⟨fs, st, hp, e⟩ | ⟨fs, e⟩ | e := memRewind_cases p s <;> rw [e]
  · exact ⟨(h.tail (.io s fs)).tail
      (.input _ p st _ hu (by rw [State.input_setIoFaults, hp]) st.sameStream_rewind), fs, st, hp, rfl⟩
  · exact h.tail (.io s fs)
  · trivial

theorem memLen_work {p : InSel} (h : Works i s0 s) :
    (memLen p s).all (Works i s0) fun _ t => Works i s0 t ∧ ∃ fs, t = s.setIoFaults fs := by
  obtain ⟨fs, st, hp, hk, e⟩ | ⟨fs, e⟩ | e := memLen_cases p s <;> rw [e]
  · exact ⟨h.tail (.io s fs), fs, rfl⟩
  · exact h.tail (.io s fs)
  · trivial

theorem memWrite_work {p : OutSel} (v : List Byte) (hu : usesOut i s p) (h : Works i s0 s) :
    (memWrite p v s).all (Works i s0) fun _ t => Works i s0 t ∧ Kept s t := by
  have hu' : ∀ fs, usesOut i (s.setIoFaults fs) p := fun fs => by cases p <;> exact hu
  obtain ⟨fs, s2, ho, e⟩ | ⟨fs, e⟩ | ⟨fs, k, s2, ho, e⟩ | e := memWrite_cases p v s <;> rw [e]
  · exact ⟨(h.tail (.io s fs)).tail (.output _ _ p v (hu' fs) ho), (Work.io (i := i) s fs).kept.trans (State.kept_output ho)⟩
  · exact h.tail (.io s fs)
  · exact (h.tail (.io s fs)).tail (.output _ _ p _ (hu' fs) ho)
  · trivial

end Sys2Proof.Machine
end

