-- ==== Sys2Proof/Laws/ExecWork.lean ====
section
/-! SUPPORT. `exec_work`: every step of every operation is a chain of small updates and one way of ending (Laws/Work.lean). -/

namespace Sys2Proof.Machine

variable {i : Instr} {s0 s : State}

/-! The decode run. -/

/-- The operation uses the input ports of mode `m`. -/
def usesLanes (i : Instr) : Mode → Prop
  | .w16 => usesIn (usedPorts i) .src = true
  | .w32 | .w8 => usesIn (usedPorts i) .low = true ∧ usesIn (usedPorts i) .high = true

/-- The lanes of mode `m` were read on from `s` to `t`. -/
def lanesRead (m : Mode) (s t : State) : Prop :=
  match m with
  | .w16 => ∃ st, s.src = .bound st ∧ t.src = .bound (st.advance 2)
  | .w32 | .w8 => ∃ l h, s.low = .bound l ∧ s.high = .bound h ∧
      t.low = .bound (l.advance m.laneUnit) ∧ t.high = .bound (h.advance m.laneUnit)

theorem active_of_input_src {st : InStream} (h : s.input .src = some st) : s.src = .bound st :=
  Port.bound_of_active h
theorem active_of_input_low {st : InStream} (h : s.input .low = some st) : s.low = .bound st :=
  Port.bound_of_active h
theorem active_of_input_high {st : InStream} (h : s.input .high = some st) : s.high = .bound st :=
  Port.bound_of_active h

theorem readUnit_work (m : Mode) (le : Bool) (hu : usesLanes i m) (h : Works i s0 s) :
    (readUnit m le s).all (Works i s0) fun _ t => Works i s0 t ∧ lanesRead m s t ∧ t.freeCtr = s.freeCtr ∧ Kept s t := by
  have key : ∀ (n : Nat) (p q : InSel), usesIn (usedPorts i) p = true → usesIn (usedPorts i) q = true →
      (memRead p n s).all (Works i s0) (fun a s1 => (memRead q n s1).all (Works i s0) fun b s2 =>
        Works i s0 (s2.setLatch (corr le a ++ corr le b)) ∧
        Kept s (s2.setLatch (corr le a ++ corr le b)) ∧
        ∃ fs fs' st st', s.input p = some st ∧ ((s.setIoFaults fs).setInput p (st.advance n)).input q = some st' ∧
          s2 = (((s.setIoFaults fs).setInput p (st.advance n)).setIoFaults fs').setInput q (st'.advance n)) := by
    intro n p q hp hq
    refine Access.all_mono (memRead_work n hp h) fun a s1 ⟨h1, fs, st, hst, e1⟩ => ?_
    refine Access.all_mono (memRead_work n hq h1) fun b s2 ⟨h2, fs', st', hst', e2⟩ => ?_
    subst e1
    refine ⟨h2.tail (.latch _ _), ?_, fs, fs', st, st', hst, hst', e2⟩
    rw [e2]
    exact (((Work.io (i := i) s fs).kept.trans (State.kept_setInput _ _ _)).trans
      ((Work.io (i := i) _ fs').kept.trans (State.kept_setInput _ _ _))).trans (Work.latch (i := i) _ _).kept
  cases m with
  | w16 =>
    refine Access.all_bind (memRead_work 2 hu h) fun u s1 ⟨h1, fs, st, hp, e⟩ => ?_
    subst e
    exact ⟨h1.tail (.latch _ _), ⟨st, active_of_input_src hp, rfl⟩, rfl, by constructor <;> rfl⟩
  | w32 | w8 =>
    cases le with
    | false =>
      refine Access.all_bind (key _ .high .low hu.2 hu.1) fun a s1 h1 => Access.all_bind h1 fun b s2 ⟨h2, hk, fs, fs', st, st', hp, hq, e⟩ => ?_
      refine ⟨h2, ⟨st', st, active_of_input_low (s := s) (by simpa [State.input, State.setInput] using hq),
        active_of_input_high hp, ?_⟩, ?_, hk⟩ <;> simp [e, State.setInput]
    | true =>
      refine Access.all_bind (key _ .low .high hu.1 hu.2) fun a s1 h1 => Access.all_bind h1 fun b s2 ⟨h2, hk, fs, fs', st, st', hp, hq, e⟩ => ?_
      refine ⟨h2, ⟨st, st', active_of_input_low hp,
        active_of_input_high (s := s) (by simpa [State.input, State.setInput] using hq), ?_⟩, ?_, hk⟩ <;>
        simp [e, State.setInput]

theorem State.spend_work (m : Mode) (hb : Bool) (h : Works i s0 s) : Works i s0 (s.spend m hb) := by
  unfold State.spend
  split
  · exact h.tail (.rem _ _)
  · exact h

@[simp] theorem State.spend_latch (s : State) (m : Mode) (hb : Bool) : (s.spend m hb).latch = s.latch := by
  unfold State.spend
  split <;> rfl

/-- R110: what one iteration leaves: nothing changed on a used-up budget; otherwise an empty latch, and on exhaustion the lanes read on. -/
theorem decodeIter_work (m : Mode) (le hb : Bool) {out : OutSel} (hu : usesLanes i m)
    (ho : ∀ t, Kept s t → usesOut i t out) (h : Works i s0 s) :
    (decodeIter m le hb out s).all (Works i s0) fun ev t => Works i s0 t ∧ (ev = .budget ∧ t = s ∨
      ev = .exhausted ∧ t.latch = [] ∧ lanesRead m s t ∨ ev = .moved ∧ t.latch = []) := by
  unfold decodeIter
  split
  · exact ⟨h, .inl ⟨rfl, rfl⟩⟩
  · refine Access.all_bind (readUnit_work m le hu h) fun full s1 ⟨h1, hl, hc, hk⟩ => ?_
    cases full with
    | false =>
      refine ⟨h1.tail (.latch _ _), .inr (.inl ⟨rfl, rfl, ?_⟩)⟩
      cases m <;> exact hl
    | true =>
      refine Access.all_bind (memWrite_work _ (ho _ hk) h1) fun _ s2 ⟨h2, _⟩ => ?_
      exact ⟨State.spend_work m hb (h2.tail (.latch _ _)), .inr (.inr ⟨rfl, by simp⟩)⟩

theorem InStream.sameStream_unspec (st : InStream) (n c : Nat) : SameStream (st.advance n) (unspecCursor c st) where
  res := rfl
  data := rfl
  seek := rfl
  inside h := by
    simp only [InStream.inside, InStream.advance, unspecCursor] at *
    have := Nat.mod_lt (Config.freeCursor c) (show 0 < st.data.length - st.pos + 1 by omega)
    omega

theorem State.freeCursors_work {m : Mode} {t : State} (hu : usesLanes i m) (hl : lanesRead m s t) (h : Works i s0 t) :
    Works i s0 (t.freeCursors m s) ∧ (t.freeCursors m s).latch = t.latch := by
  cases m with
  | w16 =>
    obtain ⟨st, h1, h2⟩ := hl
    refine ⟨?_, rfl⟩
    have : t.freeCursors .w16 s = (t.setInput .src (unspecCursor s.freeCtr st)).setFreeCtr (s.freeCtr + 1) := by
      simp only [State.freeCursors, h1, Port.map, State.setInput]
    rw [this]
    exact (h.tail (.input t .src (st.advance 2) _ hu (by simp [State.input, h2]) (st.sameStream_unspec _ _))).tail (.freeCtr _ _)
  | w32 | w8 =>
    obtain ⟨l, g, h1, h2, h3, h4⟩ := hl
    refine ⟨?_, rfl⟩
    simp only [State.freeCursors, h1, h2, Port.map]
    refine ((h.tail (.input t .low _ _ hu.1 (by rw [State.input, h3]; rfl) (l.sameStream_unspec _ _))).tail
      (.input _ .high _ _ hu.2 (by rw [State.input, State.setInput, State.setLow_high, h4]; rfl) (g.sameStream_unspec _ _))).tail (.freeCtr _ _)

theorem usesLanes_dec (m : Mode) (le lim : Bool) : usesLanes (decodeOp m le lim) m := by
  cases m <;> simp [usesLanes, usesIn, decUsed]

theorem usesLanes_split (m : Mode) (le : Bool) (n : BitVec 8) : usesLanes (splitOf m le n) m := by
  cases m <;> simp [usesLanes, usesIn, splitUsed]

/-- How a next state of a step from `s` comes about. -/
def Worked (i : Instr) (s t : State) : Prop := ∃ m, Works i s m ∧ Close i s m t

theorem Works.nil (i : Instr) (s : State) : Works i s s := .refl

theorem checkPorts_next {refusal : Option Refusal} {u : Used} {k : Result} {t : State}
    (h : checkPorts refusal u s k = .next t) : k = .next t ∨ t = raise .io u s := by
  obtain ⟨r, _, e⟩ | ⟨_, _, e⟩ | ⟨_, _, e⟩ := checkPorts_cases refusal u s k <;> rw [e] at h
  · cases h
  · exact .inl h
  · exact .inr (by simpa using h.symm)

/-- R120: a lane-length check lets the operation go on with only the schedule changed, or ends it with an error. -/
theorem checkLanes_next {u : Used} {k : Nat → State → Result} {t : State} (h : checkLanes u s k = .next t) :
    (∃ n fs, k n (s.setIoFaults fs) = .next t) ∨ ∃ fs e, t = raise e u (s.setIoFaults fs) := by
  unfold checkLanes at h
  obtain ⟨fs, st, _, _, e⟩ | ⟨fs, e⟩ | e := memLen_cases .low s <;>
    simp only [e, Access.andThen_ok, Access.andThen_ioFault, Access.andThen_silent] at h
  · obtain ⟨fs', st', _, _, e⟩ | ⟨fs', e⟩ | e := memLen_cases .high (s.setIoFaults fs) <;>
      simp only [e, Access.andThen_ok, Access.andThen_ioFault, Access.andThen_silent] at h
    · split at h
      · exact .inl ⟨_, fs', h⟩
      · exact .inr ⟨fs', .lanelen, by simpa using h.symm⟩
    · exact .inr ⟨fs', .io, by simpa using h.symm⟩
    · cases h
  · exact .inr ⟨fs, .io, by simpa using h.symm⟩
  · cases h

theorem busy_of_check (h : s.phase = .check) : s.busy = true := by simp [State.busy, h]
theorem busy_of_run (h : s.phase = .run) : s.busy = true := by simp [State.busy, h]

theorem checkDec_work (m : Mode) (le lim : Bool) {t : State} (hp : s.phase = .check)
    (h : checkDec m lim s = .next t) : Worked (decodeOp m le lim) s t := by
  have hf : decodeOp m le lim ≠ .fname := by cases m <;> simp [decodeOp]
  have hc : decodeOp m le lim ≠ .chunk := by cases m <;> simp [decodeOp]
  have hb : ∀ fs, Worked (decodeOp m le lim) s ((s.setIoFaults fs).beginDecode lim) := fun fs =>
    ⟨_, ((Works.nil _ s).tail (.io s fs)).tail (.rem _ _), .begin hp hf hc rfl⟩
  have hr : ∀ fs e, Worked (decodeOp m le lim) s (raise e (decUsed m) (s.setIoFaults fs)) := fun fs e =>
    ⟨_, (Works.nil _ s).tail (.io s fs), by simpa using Close.failed (i := decodeOp m le lim) e (busy_of_check hp)⟩
  unfold checkDec at h
  obtain h | rfl := checkPorts_next h
  · cases m with
    | w16 =>
      cases h
      exact hb s.ioFaults
    | w32 | w8 =>
      obtain ⟨n, fs, h⟩ | ⟨fs, e, rfl⟩ := checkLanes_next h
      · cases h
        exact hb fs
      · exact hr fs e
  · exact hr s.ioFaults .io

theorem runDec_work (m : Mode) (le lim : Bool) {t : State} (hp : s.phase = .run)
    (h : runDec m le lim s = .next t) : Worked (decodeOp m le lim) s t := by
  have hf : decodeOp m le lim ≠ .fname := by cases m <;> simp [decodeOp]
  have hd : ∀ r, Works (decodeOp m le lim) s r → Worked (decodeOp m le lim) s (finish (decUsed m) r) := fun r hr =>
    ⟨r, hr, by simpa using Close.done (i := decodeOp m le lim) (s := s) (m := r) hp⟩
  have hu := usesLanes_dec m le lim
  obtain ⟨ev, r, ⟨hw, hc⟩, h⟩ | ⟨r, hw, rfl⟩ := Access.andThen_next
    (decodeIter_work (i := decodeOp m le lim) m le lim (out := .tgt) hu
      (fun t _ => by cases m <;> simp [usesOut, decodeOp, usedPorts, decUsed]) (Works.nil _ s)) h
  · obtain ⟨rfl, e⟩ | ⟨rfl, hl, hr⟩ | ⟨rfl, hl⟩ := hc <;> cases h
    · exact hd _ hw
    · exact hd _ (State.freeCursors_work hu hr hw).1
    · exact ⟨_, hw, .stay hp hf fun _ => hl⟩
  · exact ⟨r, hw, by simpa using Close.failed (i := decodeOp m le lim) (m := r) .io (busy_of_run hp)⟩

theorem stepDec_work (m : Mode) (le lim : Bool) {t : State} (hb : s.busy = true)
    (h : exec (decodeOp m le lim) s = .next t) : Worked (decodeOp m le lim) s t := by
  rw [exec_decodeOp] at h
  cases hp : s.phase <;> simp [State.busy, hp] at hb
  · exact checkDec_work m le lim hp (by rwa [stepDec_check m le lim hp] at h)
  · exact runDec_work m le lim hp (by rwa [stepDec_run m le lim hp] at h)

/-! The encode run. -/

theorem decode_family_names (m : Mode) (le lim : Bool) : decodeOp m le lim ≠ .fname ∧ decodeOp m le lim ≠ .chunk := by
  cases m <;> simp [decodeOp]
theorem encode_family_names (m : Mode) (le dup : Bool) : encOf m le dup ≠ .fname ∧ encOf m le dup ≠ .chunk := by
  cases m <;> simp [encOf]
theorem split_family_names (m : Mode) (le : Bool) (n : BitVec 8) : splitOf m le n ≠ .fname ∧ splitOf m le n ≠ .chunk := by
  cases m <;> simp [splitOf]

theorem enterFile_work (j : Nat) (hu : (usedPorts i).files = true) (h : Works i s0 s) :
    (enterFile j s).all (Works i s0) fun _ t => Works i s0 t ∧ t.latch = s.latch := by
  unfold enterFile
  split
  · refine Access.all_mono (memRewind_work (p := .file j) hu h) fun _ t ⟨h1, fs, st, _, e⟩ => ⟨h1, ?_⟩
    rw [e]
    rfl
  · exact ⟨h, rfl⟩

theorem nextPass_work (dup : Bool) (hu : (usedPorts i).files = true) (h : Works i s0 s) :
    (nextPass dup s).all (Works i s0) fun _ t => Works i s0 t ∧ t.latch = s.latch := by
  unfold nextPass
  split
  · exact enterFile_work _ hu (h.tail (.pass _ _))
  · exact enterFile_work _ hu ((h.tail (.pass _ _)).tail (.srci _ _))

/-- The operation uses the outputs an encode of mode `m` writes. -/
def usesOutputs (i : Instr) : Mode → Prop
  | .w16 => (usedPorts i).tgt = true
  | .w32 | .w8 => (usedPorts i).lowo = true ∧ (usedPorts i).higho = true

theorem writeUnit_work (m : Mode) (le : Bool) (u : List Byte) (hu : usesOutputs i m) (h : Works i s0 s) :
    (writeUnit m le u s).all (Works i s0) fun _ t => Works i s0 t := by
  cases m with
  | w16 => exact Access.all_mono (memWrite_work _ hu h) fun _ _ h1 => h1.1
  | w32 | w8 =>
    cases le with
    | false =>
      exact Access.all_bind (memWrite_work (p := .higho) _ hu.2 h) fun _ s1 h1 =>
        Access.all_mono (memWrite_work (p := .lowo) _ hu.1 h1.1) fun _ _ h2 => h2.1
    | true =>
      exact Access.all_bind (memWrite_work (p := .lowo) _ hu.1 h) fun _ s1 h1 =>
        Access.all_mono (memWrite_work (p := .higho) _ hu.2 h1.1) fun _ _ h2 => h2.1

/-- R143: an iteration of an encode run leaves an empty latch. -/
theorem encodeIter_work (m : Mode) (le dup : Bool) (hf : (usedPorts i).files = true) (hu : usesOutputs i m)
    (h : Works i s0 s) :
    (encodeIter m le dup s).all (Works i s0) fun _ t => Works i s0 t ∧ t.latch = [] := by
  refine Access.all_bind (memRead_work (p := .file s.srci) _ hf h) fun u s1 ⟨h1, _⟩ => ?_
  split
  · exact Access.all_bind (writeUnit_work m le u hu (h1.tail (.latch _ _))) fun _ s2 h2 => ⟨h2.tail (.latch _ _), rfl⟩
  · exact Access.all_mono (nextPass_work dup hf (h1.tail (.latch _ _))) fun _ t h2 => ⟨h2.1, h2.2⟩

theorem checkEnc_work (m : Mode) (le dup : Bool) {t : State} (hp : s.phase = .check)
    (h : checkEnc m dup s = .next t) : Worked (encOf m le dup) s t := by
  have hn := encode_family_names m le dup
  have hfiles : (usedPorts (encOf m le dup)).files = true := by cases m <;> simp [encUsed]
  have hr : ∀ r, Works (encOf m le dup) s r → Worked (encOf m le dup) s (raise .io (encUsed m) r) := fun r hw =>
    ⟨r, hw, by simpa using Close.failed (i := encOf m le dup) (m := r) .io (busy_of_check hp)⟩
  unfold checkEnc at h
  obtain h | rfl := checkPorts_next h
  · obtain ⟨_, r, ⟨hw, hl⟩, h⟩ | ⟨r, hw, rfl⟩ := Access.andThen_next (enterFile_work 0 hfiles (Works.nil _ s)) h
    · cases h
      exact ⟨_, hw, .begin hp hn.1 hn.2 hl⟩
    · exact hr r hw
  · exact hr s (Works.nil _ s)

theorem runEnc_work (m : Mode) (le dup : Bool) {t : State} (hp : s.phase = .run)
    (h : runEnc m le dup s = .next t) : Worked (encOf m le dup) s t := by
  have hn := encode_family_names m le dup
  have hfiles : (usedPorts (encOf m le dup)).files = true := by cases m <;> simp [encUsed]
  have hout : usesOutputs (encOf m le dup) m := by cases m <;> simp [usesOutputs, encUsed]
  have hr : ∀ r, Works (encOf m le dup) s r → Worked (encOf m le dup) s (raise .io (encUsed m) r) := fun r hw =>
    ⟨r, hw, by simpa using Close.failed (i := encOf m le dup) (m := r) .io (busy_of_run hp)⟩
  unfold runEnc at h
  split at h
  · split at h
    · obtain ⟨_, r, ⟨hw, hl⟩, h⟩ | ⟨r, hw, rfl⟩ :=
        Access.andThen_next (encodeIter_work m le dup hfiles hout (Works.nil _ s)) h
      · cases h
        exact ⟨_, hw, .stay hp hn.1 fun _ => hl⟩
      · exact hr r hw
    · cases h
      exact ⟨s, Works.nil _ s, by simpa using Close.done (i := encOf m le dup) (s := s) (m := s) hp⟩
  · cases h
    exact hr s (Works.nil _ s)
  · cases h
    exact hr s (Works.nil _ s)

theorem stepEnc_work (m : Mode) (le dup : Bool) {t : State} (hb : s.busy = true)
    (h : exec (encOf m le dup) s = .next t) : Worked (encOf m le dup) s t := by
  rw [exec_encOf] at h
  cases hp : s.phase <;> simp [State.busy, hp] at hb
  · exact checkEnc_work m le dup hp (by rwa [stepEnc_check m dup (le := le) hp] at h)
  · exact runEnc_work m le dup hp (by rwa [stepEnc_run m le dup hp] at h)

/-! The fragment family. -/

theorem splitDivide_next {m : Mode} {n : BitVec 8} {b : Name} {total : Nat} {t : State} (le : Bool)
    (hp : s0.phase = .check) (hw : Works (splitOf m le n) s0 s) (hl : s.latch = s0.latch)
    (h : splitDivide m n b total s = .next t) : Worked (splitOf m le n) s0 t := by
  unfold splitDivide State.beginSplit at h
  split at h
  · split at h
    · cases h
    · cases h
      refine ⟨s.setRem (BitVec.ofNat 64 (total / n.toNat)), hw.tail (.rem _ _), ?_⟩
      exact .beginSplit m le n _ _ hp rfl hl
  · cases h
    exact ⟨s, hw, by simpa using Close.failedDivis (i := splitOf m le n) (m := s) m le n _ hp rfl⟩

theorem checkSplit_work (m : Mode) (le : Bool) (n : BitVec 8) {t : State} (hp : s.phase = .check)
    (h : checkSplit m n s = .next t) : Worked (splitOf m le n) s t := by
  have hr : ∀ r e, Works (splitOf m le n) s r → Worked (splitOf m le n) s (raise e (splitUsed m) r) := fun r e hw =>
    ⟨r, hw, by simpa using Close.failed (i := splitOf m le n) (m := r) e (busy_of_check hp)⟩
  have hio : ∀ fs, Works (splitOf m le n) s (s.setIoFaults fs) := fun fs => (Works.nil _ s).tail (.io s fs)
  unfold checkSplit at h
  split at h
  · subst n
    cases h
    exact ⟨s, Works.nil _ s, .failedCount m le hp rfl⟩
  split at h
  · cases h
  obtain h | rfl := checkPorts_next h
  · split at h
    · cases m with
      | w16 =>
        obtain ⟨_, r, ⟨hw, fs, e⟩, h⟩ | ⟨r, hw, rfl⟩ := Access.andThen_next (memLen_work (p := .src) (Works.nil _ s)) h
        · exact splitDivide_next le hp hw (by rw [e]; rfl) h
        · exact hr r _ hw
      | w32 | w8 =>
        obtain ⟨_, fs, h⟩ | ⟨fs, e, rfl⟩ := checkLanes_next h
        · exact splitDivide_next le hp (hio fs) rfl h
        · exact hr _ _ (hio fs)
    · cases h
      exact hr s _ (Works.nil _ s)
  · exact hr s _ (Works.nil _ s)

theorem runSplit_work (m : Mode) (le : Bool) (n : BitVec 8) {t : State} (hp : s.phase = .run)
    (h : runSplit m le n s = .next t) : Worked (splitOf m le n) s t := by
  have hn := split_family_names m le n
  have hb : ∀ r, Works (splitOf m le n) s r → (s.latch = [] → r.latch = []) → Worked (splitOf m le n) s (splitBoundary m n r) := by
    intro r hw hl
    unfold splitBoundary
    split
    · refine ⟨r.setRem r.fraglim, hw.tail (.rem _ _), ?_⟩
      exact .nextSplit m le n hp rfl hl (by assumption)
    · exact ⟨r, hw, by simpa using Close.done (i := splitOf m le n) (s := s) (m := r) hp⟩
  unfold runSplit at h
  split at h
  · cases h
  · split at h
    · rename_i b hbase _
      obtain ⟨ev, r, ⟨hw, hc⟩, h⟩ | ⟨r, hw, rfl⟩ := Access.andThen_next
        (decodeIter_work (i := splitOf m le n) m le true (out := .frag s.fidx.toNat b) (usesLanes_split m le n)
          (fun t hk => ⟨by cases m <;> rfl, by rw [hk.fidx], by rw [hk.base, hbase]⟩) (Works.nil _ s)) h
      · obtain ⟨rfl, e⟩ | ⟨rfl, he, _⟩ | ⟨rfl, he⟩ := hc <;> cases h
        · exact hb r hw (by rw [e]; exact id)
        · exact hb r hw fun _ => he
        · exact ⟨_, hw, .stay hp hn.1 fun _ => he⟩
      · exact ⟨r, hw, by simpa using Close.failed (i := splitOf m le n) (m := r) .io (busy_of_run hp)⟩
    · cases h

theorem stepSplit_work (m : Mode) (le : Bool) (n : BitVec 8) {t : State} (hb : s.busy = true)
    (h : exec (splitOf m le n) s = .next t) : Worked (splitOf m le n) s t := by
  rw [exec_splitOf] at h
  cases hp : s.phase <;> simp [State.busy, hp] at hb
  · exact checkSplit_work m le n hp (by rwa [stepSplit_check m n (le := le) hp] at h)
  · exact runSplit_work m le n hp (by rwa [stepSplit_run m le n hp] at h)

theorem execFname_work {t : State} (hb : s.busy = true) (h : execFname s = .next t) : Worked .fname s t := by
  cases hp : s.phase <;> simp [State.busy, hp] at hb
  · rw [execFname_check hp] at h
    unfold checkFname at h
    split at h
    · rename_i b n hbase _
      cases h
      exact ⟨s, Works.nil _ s, .doneName b n hp rfl hbase⟩
    · cases h
  · simp only [execFname, hp] at h
    cases h
    exact ⟨s, Works.nil _ s, .done hp⟩

theorem checkChunk_work {t : State} (hp : s.phase = .check) (h : checkChunk s = .next t) : Worked .chunk s t := by
  have hr : ∀ e, Worked .chunk s (raise e chunkUsed s) := fun e => ⟨s, Works.nil _ s, .failed e (busy_of_check hp)⟩
  unfold checkChunk at h
  split at h
  · split at h
    · cases h
    obtain h | rfl := checkPorts_next h
    · split at h <;> cases h
      · exact hr _
      · exact ⟨s.setFcnt 0, (Works.nil _ s).tail (.fcnt _ _), .beginChunk hp rfl rfl⟩
    · exact hr _
  · cases h

theorem runChunk_work {t : State} (hp : s.phase = .run) (h : runChunk s = .next t) : Worked .chunk s t := by
  have hr : ∀ r, Works .chunk s r → Worked .chunk s (raise .io chunkUsed r) := fun r hw =>
    ⟨r, hw, .failed .io (busy_of_run hp)⟩
  unfold runChunk at h
  split at h
  · rename_i base size hbase _
    obtain ⟨b, r, ⟨hw, fs, st, _, e⟩, h⟩ | ⟨r, hw, rfl⟩ :=
      Access.andThen_next (memRead_work (i := .chunk) (p := .src) 1 rfl (Works.nil _ s)) h
    · split at h
      · cases h
        unfold chunkCeiling
        split
        · exact ⟨r, hw, .doneWarn hp rfl⟩
        · exact ⟨r, hw, .done hp⟩
      rename_i h128
      split at h
      · cases h
        exact ⟨r, hw, .done hp⟩
      have hw1 : Works .chunk s (r.setLatch b) := hw.tail (.latch _ _)
      have hk := Works.kept hw1
      obtain ⟨_, q, ⟨hw2, hk2⟩, h⟩ | ⟨q, hw2, rfl⟩ := Access.andThen_next
        (memWrite_work (i := .chunk) (s := r.setLatch b) (p := .frag r.fidx.toNat base) b ⟨rfl, rfl, by rw [hk.base, hbase]⟩ hw1) h
      · cases h
        have hf : (q.setLatch []).fidx.toNat ≠ 128 := by
          show q.fidx.toNat ≠ 128
          rw [hk2.fidx]
          exact h128
        have hw3 : Works .chunk s (q.setLatch []) := hw2.tail (.latch _ _)
        unfold State.countByte
        split
        · exact ⟨(q.setLatch []).setFcnt 0, hw3.tail (.fcnt _ _), .nextChunk hp rfl (fun _ => rfl) hf⟩
        · exact ⟨_, hw3.tail (.fcnt _ _), .stay hp (by simp) fun _ => rfl⟩
      · exact hr q hw2
    · exact hr r hw
  · cases h

theorem execChunk_work {t : State} (hb : s.busy = true) (h : execChunk s = .next t) : Worked .chunk s t := by
  cases hp : s.phase <;> simp [State.busy, hp] at hb
  · exact checkChunk_work hp (by rwa [execChunk_check hp] at h)
  · exact runChunk_work hp (by rwa [execChunk_run hp] at h)

/-- Every step of every running operation is a chain of small updates and one way of ending. -/
theorem exec_work (i : Instr) {t : State} (hb : s.busy = true) (h : exec i s = .next t) :
    Worked i s t := by
  cases i with
  | dec16 le lim => exact stepDec_work .w16 le lim hb h
  | dec32 le lim => exact stepDec_work .w32 le lim hb h
  | dec8 le lim => exact stepDec_work .w8 le lim hb h
  | enc16 le dup => exact stepEnc_work .w16 le dup hb h
  | enc32 le dup => exact stepEnc_work .w32 le dup hb h
  | enc8 le dup => exact stepEnc_work .w8 le dup hb h
  | splitDec16 le n => exact stepSplit_work .w16 le n hb h
  | splitDec32 le n => exact stepSplit_work .w32 le n hb h
  | splitDec8 le n => exact stepSplit_work .w8 le n hb h
  | fname => exact execFname_work hb h
  | chunk => exact execChunk_work hb h

end Sys2Proof.Machine
end

