-- ==== Sys2Proof/Laws/Fragments.lean ====
section
/-! SUPPORT. The fragment store: its canonical form is kept by the one operation that writes it (log 20), and what a write does to the written entry, to every other entry, and to the number of entries. -/

namespace Sys2Proof.Machine

/-! The one operation on the store. -/

/-- The empty store, as reset leaves it, is canonical. -/
theorem FragStore.wf_reset : FragStore.wf State.reset.frags = true := by decide

theorem FragStore.wf_cons (f : Fragment) (fs : FragStore) :
    FragStore.wf (f :: fs) = true ↔ (∀ g ∈ fs, f.index < g.index) ∧ FragStore.wf fs = true := by
  simp [FragStore.wf]

/-- Every entry of a written store is an old one, or stands at the written index. -/
theorem FragStore.mem_append {k : Nat} {name : Name} {v : List Byte} {fs : FragStore} {g : Fragment}
    (h : g ∈ FragStore.append k name v fs) : g ∈ fs ∨ g.index = k := by
  induction fs with
  | nil => simp_all [FragStore.append]
  | cons f fs ih =>
    unfold FragStore.append at h
    split at h
    · rcases List.mem_cons.1 h with rfl | h <;> simp_all
    · split at h
      · rcases List.mem_cons.1 h with rfl | h <;> simp_all
      · rcases List.mem_cons.1 h with rfl | h
        · simp
        · rcases ih h with h | h <;> simp_all

/-- R35, log 20: a write keeps the canonical form. -/
theorem FragStore.wf_append (k : Nat) (name : Name) (v : List Byte) {fs : FragStore} (h : FragStore.wf fs = true) :
    FragStore.wf (FragStore.append k name v fs) = true := by
  induction fs with
  | nil => rfl
  | cons f fs ih =>
    rw [FragStore.wf_cons] at h
    unfold FragStore.append
    split
    · exact (FragStore.wf_cons _ _).2 h
    · split
      · rename_i hlt
        refine (FragStore.wf_cons _ _).2 ⟨fun g hg => ?_, (FragStore.wf_cons _ _).2 h⟩
        rcases List.mem_cons.1 hg with rfl | hg
        · exact hlt
        · exact lt_trans hlt (h.1 g hg)
      · refine (FragStore.wf_cons _ _).2 ⟨fun g hg => ?_, ih h.2⟩
        rcases FragStore.mem_append hg with hg | hg
        · exact h.1 g hg
        · omega

theorem FragStore.not_has_of_lt {k : Nat} {fs : FragStore} (h : ∀ g ∈ fs, k < g.index) : fs.has k = false := by
  simp only [FragStore.has, List.any_eq_false, beq_iff_eq]
  intro g hg e
  have := h g hg
  omega

/-- R52: a write makes an entry only where there is none. -/
theorem FragStore.length_append (k : Nat) (name : Name) (v : List Byte) {fs : FragStore} (h : FragStore.wf fs = true) :
    (FragStore.append k name v fs).length = if fs.has k then fs.length else fs.length + 1 := by
  induction fs with
  | nil => rfl
  | cons f fs ih =>
    rw [FragStore.wf_cons] at h
    unfold FragStore.append
    split
    · simp [FragStore.has, *]
    · rename_i hne
      have hh : FragStore.has (f :: fs) k = FragStore.has fs k := by simp [FragStore.has, hne]
      split
      · rename_i hlt
        rw [hh, FragStore.not_has_of_lt fun g hg => lt_trans hlt (h.1 g hg)]
        rfl
      · rw [hh, List.length_cons, ih h.2]
        split <;> rfl

/-- R160: a write leaves every other entry alone, keeps the name of the written one, and adds to its bytes. -/
theorem FragStore.append_keeps (k : Nat) (name : Name) (v : List Byte) {fs : FragStore} {f : Fragment} (hf : f ∈ fs) :
    ∃ f' ∈ FragStore.append k name v fs, f'.index = f.index ∧ f'.name = f.name ∧ f.bytes <+: f'.bytes ∧
      (f.index ≠ k → f' = f) := by
  induction fs with
  | nil => cases hf
  | cons g fs ih =>
    unfold FragStore.append
    split
    · rename_i hk
      rcases List.mem_cons.1 hf with rfl | hf
      · exact ⟨_, List.mem_cons_self .., rfl, rfl, List.prefix_append _ _, fun h => absurd hk h⟩
      · exact ⟨f, List.mem_cons_of_mem _ hf, rfl, rfl, List.prefix_refl _, fun _ => rfl⟩
    · split
      · exact ⟨f, List.mem_cons_of_mem _ hf, rfl, rfl, List.prefix_refl _, fun _ => rfl⟩
      · rcases List.mem_cons.1 hf with rfl | hf
        · exact ⟨f, List.mem_cons_self .., rfl, rfl, List.prefix_refl _, fun _ => rfl⟩
        · obtain ⟨f', hm, h⟩ := ih hf
          exact ⟨f', List.mem_cons_of_mem _ hm, h⟩

/-- R52, R160: `get?` after a write to the same entry. -/
theorem FragStore.has_append (k : Nat) (name : Name) (v : List Byte) (fs : FragStore) :
    (FragStore.append k name v fs).has k = true := by
  induction fs with
  | nil => simp [FragStore.append, FragStore.has]
  | cons f fs ih =>
    unfold FragStore.append
    split
    · simp [FragStore.has, *]
    · split
      · simp [FragStore.has]
      · rw [FragStore.has, List.any_cons]
        rw [FragStore.has] at ih
        rw [ih, Bool.or_true]

/-- Two writes to one entry are one write. -/
theorem FragStore.append_append (k : Nat) (name : Name) (v w : List Byte) (fs : FragStore) :
    FragStore.append k name w (FragStore.append k name v fs) = FragStore.append k name (v ++ w) fs := by
  induction fs with
  | nil => simp [FragStore.append]
  | cons f fs ih =>
    by_cases hk : f.index = k
    · simp [FragStore.append, hk]
    · by_cases hlt : k < f.index
      · simp [FragStore.append, hk, hlt]
      · simp [FragStore.append, hk, hlt, ih]

/-- A write past every entry adds one at the end. -/
theorem FragStore.append_new {k : Nat} {name : Name} {v : List Byte} {fs : FragStore} (h : ∀ g ∈ fs, g.index < k) :
    FragStore.append k name v fs = fs ++ [⟨k, name, v⟩] := by
  induction fs with
  | nil => rfl
  | cons f fs ih =>
    have := h f (List.mem_cons_self ..)
    have hk : ¬ f.index = k := by omega
    have hlt : ¬ k < f.index := by omega
    simp [FragStore.append, hk, hlt, ih fun g hg => h g (List.mem_cons_of_mem _ hg)]

/-! `NFRAG` counts the entries. -/

/-- R35: the store is canonical and `NFRAG` counts its entries. -/
def FragCounted (s : State) : Prop := s.frags.wf = true ∧ s.nfrag = BitVec.ofNat 64 s.frags.length

theorem FragCounted.of_eq {s t : State} (h : FragCounted s) (hf : t.frags = s.frags) (hn : t.nfrag = s.nfrag) :
    FragCounted t := by
  rw [FragCounted, hf, hn]
  exact h

theorem FragCounted.fragWrite {s : State} (h : FragCounted s) (k : Nat) (b : Name) (v : List Byte) :
    FragCounted (s.fragWrite k b v) := by
  refine ⟨FragStore.wf_append _ _ _ h.1, ?_⟩
  show (if s.frags.has k then s.nfrag else s.nfrag + 1) = _
  simp only [State.fragWrite, State.setFrags_frags, FragStore.length_append _ _ _ h.1, h.2]
  split
  · rfl
  · rw [BitVec.ofNat_add]
    rfl

/-- A write to an output that is no fragment leaves the store alone. -/
theorem State.output_frags {s s2 : State} {p : OutSel} {v : List Byte} (h : s.output p v = some s2) :
    (∃ k b, p = .frag k b ∧ s2 = s.fragWrite k b v) ∨ (s2.frags = s.frags ∧ s2.nfrag = s.nfrag) := by
  cases p with
  | frag k b =>
    simp only [State.output, Option.some.injEq] at h
    exact .inl ⟨k, b, rfl, h.symm⟩
  | tgt | lowo | higho =>
    simp only [State.output, Option.map_eq_some_iff] at h
    obtain ⟨o, -, rfl⟩ := h
    exact .inr ⟨rfl, rfl⟩

theorem Work.fragCounted {i : Instr} {s t : State} (h : Work i s t) (hs : FragCounted s) : FragCounted t := by
  cases h with
  | input p st st' _ _ _ => cases p <;> exact hs
  | output _ _ _ _ ho =>
    obtain ⟨k, b, rfl, rfl⟩ | ⟨h1, h2⟩ := State.output_frags ho
    · exact hs.fragWrite k b _
    · exact hs.of_eq h1 h2
  | io | latch | rem | srci | pass | fcnt | freeCtr => exact hs

theorem Works.fragCounted {i : Instr} {s t : State} (h : Works i s t) (hs : FragCounted s) : FragCounted t := by
  induction h with
  | refl => exact hs
  | tail _ h ih => exact h.fragCounted ih

theorem Close.frags {i : Instr} {s m t : State} (h : Close i s m t) : t.frags = m.frags ∧ t.nfrag = m.nfrag := by
  cases h <;> exact ⟨rfl, rfl⟩

/-- R35: every step of every operation keeps the store canonical and counted. -/
theorem exec_fragCounted {i : Instr} {s t : State} (hs : FragCounted s) (h : exec i s = .next t) : FragCounted t := by
  by_cases hb : s.busy = true
  · obtain ⟨m, hw, hc⟩ := exec_work i hb h
    exact (Works.fragCounted hw hs).of_eq hc.frags.1 hc.frags.2
  · rw [exec_quiet i (by simpa using hb)] at h
    cases h
    exact hs

end Sys2Proof.Machine
end

