-- ==== Sys2Proof/Laws/PerInstr.lean ====
section
/-! SUPPORT. Statements made of each instruction as syntax: the word of a well-formed instruction is selected by the row of the opcode map that carries its mnemonic (30_encoding.md R90). -/

namespace Sys2Proof.Laws

/-- R90: the row named like `i` selects the word of `i`. -/
def RowMatch.Statement (i : Instr) : Prop :=
  i.wf = true → ∃ r ∈ opcodeRows, r.mnemonic = i.mnemonic ∧ r.selects (encode i) = true

theorem RowMatch.dec16 (le lim : Bool) : RowMatch.Statement (.dec16 le lim) := by
  cases le <;> cases lim <;> exact fun _ => by decide
theorem RowMatch.dec32 (le lim : Bool) : RowMatch.Statement (.dec32 le lim) := by
  cases le <;> cases lim <;> exact fun _ => by decide
theorem RowMatch.dec8 (le lim : Bool) : RowMatch.Statement (.dec8 le lim) := by
  cases le <;> cases lim <;> exact fun _ => by decide
theorem RowMatch.enc16 (le dup : Bool) : RowMatch.Statement (.enc16 le dup) := by
  cases le <;> cases dup <;> exact fun _ => by decide
theorem RowMatch.enc32 (le dup : Bool) : RowMatch.Statement (.enc32 le dup) := by
  cases le <;> cases dup <;> exact fun _ => by decide
theorem RowMatch.enc8 (le dup : Bool) : RowMatch.Statement (.enc8 le dup) := by
  cases le <;> cases dup <;> exact fun _ => by decide
theorem RowMatch.fname : RowMatch.Statement .fname := fun _ => by decide
theorem RowMatch.chunk : RowMatch.Statement .chunk := fun _ => by decide

/-- A split decode's word, masked, is its row's match, whatever the count and `LE`. -/
theorem packWord_masked (n : BitVec 8) (le : Bool) (mode : BitVec 2) :
    packWord n false false le mode 3 &&& 0xFF00FFBF = packWord 0 false false false mode 3 := by
  apply BitVec.eq_of_getLsbD_eq
  intro i hi
  simp only [BitVec.getLsbD_and, packWord, BitVec.getLsbD_append, BitVec.getLsbD_ofBool]
  interval_cases i <;> simp

/-- R88, R90: a row that asks for a count selects the word of a split decode with a count. -/
theorem selects_split {r : OpcodeRow} {n : BitVec 8} {le : Bool} {mode : BitVec 2} (hn : n ≠ 0)
    (hm : r.mask = 0xFF00FFBF) (hb : r.matchBits = packWord 0 false false false mode 3) :
    r.selects (packWord n false false le mode 3) = true := by
  rw [OpcodeRow.selects, hm, hb, packWord_masked, fieldFragcount_packWord]
  simp
  exact .inr hn

theorem RowMatch.splitDec16 (le : Bool) (n : BitVec 8) : RowMatch.Statement (.splitDec16 le n) := fun h =>
  ⟨⟨"SPLITDEC16", 0x00000003, 0xFF00FFBF, true⟩, by decide, rfl,
    selects_split (by simpa [Instr.wf] using h) rfl (by decide)⟩
theorem RowMatch.splitDec32 (le : Bool) (n : BitVec 8) : RowMatch.Statement (.splitDec32 le n) := fun h =>
  ⟨⟨"SPLITDEC32", 0x00000013, 0xFF00FFBF, true⟩, by decide, rfl,
    selects_split (by simpa [Instr.wf] using h) rfl (by decide)⟩
theorem RowMatch.splitDec8 (le : Bool) (n : BitVec 8) : RowMatch.Statement (.splitDec8 le n) := fun h =>
  ⟨⟨"SPLITDEC8", 0x00000023, 0xFF00FFBF, true⟩, by decide, rfl,
    selects_split (by simpa [Instr.wf] using h) rfl (by decide)⟩

end Sys2Proof.Laws
end

