-- ==== Sys2Proof/Laws/Runs.lean ====
section
/-! SUPPORT. Runs: how one step extends a run, that a run's end is unique, that a run with a falling measure ends, and the byte-order correction and name function every closed form is made of. -/

namespace Sys2Proof.Machine

theorem Steps.refl (s : State) : Steps s s := Relation.ReflTransGen.refl

theorem Steps.head {s t r : State} (h : step s = .next t) (g : Steps t r) : Steps s r :=
  Relation.ReflTransGen.head h g

theorem Steps.trans {s t r : State} (h : Steps s t) (g : Steps t r) : Steps s r :=
  Relation.ReflTransGen.trans h g

theorem EndsAt.of_step {s t r : State} (h : step s = .next t) (g : EndsAt t r) : EndsAt s r :=
  ⟨Steps.head h g.1, g.2⟩

theorem EndsAt.of_quiet {s : State} (h : s.busy = false) : EndsAt s s := ⟨Steps.refl s, h⟩

/-- A state that steps to itself goes nowhere else. -/
theorem Steps.of_quiet {t r : State} (hq : step t = .next t) (g : Steps t r) : r = t := by
  induction g with
  | refl => rfl
  | tail _ hbc ih =>
    rw [ih, hq] at hbc
    simpa using hbc.symm

/-- A run that comes to a state which steps to itself passes through every other state the run comes to. -/
theorem Steps.through {s t r : State} (h : Steps s t) (hq : step t = .next t) (g : Steps s r) : Steps r t := by
  induction h using Relation.ReflTransGen.head_induction_on with
  | refl => rw [Steps.of_quiet hq g]; exact Steps.refl t
  | head hab hbt ih =>
    rcases Relation.ReflTransGen.cases_head g with rfl | ⟨c, hac, hcr⟩
    · exact Steps.head hab hbt
    · have e := hab.symm.trans hac
      simp only [Host.Outcome.next.injEq] at e
      exact ih (e ▸ hcr)

theorem step_of_idle {s : State} (hh : s.host = []) (hb : s.busy = false) : step s = .next s := by
  rw [step_quiet hh, transcoderStep_idle hb]

/-- The run of a quiet host ends in one state. -/
theorem EndsAt.unique {s t r : State} (h : EndsAt s t) (g : EndsAt s r) (ht : t.host = []) (hr : r.host = []) :
    t = r :=
  Steps.of_quiet (step_of_idle hr g.2) (Steps.through h.1 (step_of_idle ht h.2) g.1)

/-- A run in which a number falls with every step of a running operation ends. -/
theorem ends_of_measure (f : State → Nat) (P : State → Prop)
    (hstep : ∀ s, P s → s.busy = true → ∃ t, step s = .next t ∧ P t ∧ f t < f s) :
    ∀ s, P s → ∃ t, EndsAt s t ∧ P t := by
  intro s hs
  induction hn : f s using Nat.strong_induction_on generalizing s with
  | _ n ih =>
    cases hb : s.busy
    · exact ⟨s, EndsAt.of_quiet hb, hs⟩
    · obtain ⟨t, h1, h2, h3⟩ := hstep s hs hb
      obtain ⟨r, h4, h5⟩ := ih (f t) (hn ▸ h3) t h2 rfl
      exact ⟨r, EndsAt.of_step h1 h4, h5⟩

/-! Byte order (R55). -/

/-- The order correction undoes itself. -/
@[simp] theorem corr_corr (le : Bool) (u : List Byte) : corr le (corr le u) = u := by
  cases le <;> match u with
  | [] | [_] | [_, _] | _ :: _ :: _ :: _ => rfl

@[simp] theorem corr_length (le : Bool) (u : List Byte) : (corr le u).length = u.length := by
  cases le <;> match u with
  | [] | [_] | [_, _] | _ :: _ :: _ :: _ => rfl

/-! Names (R170). -/

theorem lastDot_none {b : Name} (h : (0x2E : Byte) ∉ b) : lastDot b = none := by
  induction b with
  | nil => rfl
  | cons c b ih =>
    simp only [List.mem_cons, not_or] at h
    simp only [lastDot, ih h.2, if_neg (Ne.symm h.1)]

theorem lastDot_append (p : Name) {e : Name} (h : (0x2E : Byte) ∉ e) : lastDot (p ++ 0x2E :: e) = some p.length := by
  induction p with
  | nil => simp [lastDot, lastDot_none h]
  | cons c p ih =>
    rw [List.cons_append, lastDot, ih]
    rfl

end Sys2Proof.Machine
end

