-- ==== Sys2Proof/Tests/Slice0.lean ====
section
/-! SUPPORT. The model's own tests: ill-formed instructions refused, written-out words decoded, single steps on small states with the values of spec/95_test_vectors.md, and for every obligation with hypotheses a state that meets them. -/

namespace Sys2Proof.Tests

open Sys2Proof Sys2Proof.Machine

/-! Well-formedness (30_encoding.md R88). -/

theorem test_wf_splitDec16_zero : Instr.wf (.splitDec16 false 0) = false := by decide
theorem test_wf_splitDec32_zero : Instr.wf (.splitDec32 true 0) = false := by decide
theorem test_wf_splitDec8_zero : Instr.wf (.splitDec8 false 0) = false := by decide
theorem test_wf_splitDec8_255 : Instr.wf (.splitDec8 false 255) = true := by decide

/-! Decoding: words written out from 30_encoding.md R87 to R90, fields in the order RSV1, FRAGCOUNT, RSV0, LIM, DUP, LE, MODE, OPC. -/

theorem test_decode_dec16 : decode 0b00000000_00000000_0000000_0_0_0_00_0001 = .ok (.dec16 false false) := by decide
theorem test_decode_dec32 : decode 0b00000000_00000000_0000000_1_0_1_01_0001 = .ok (.dec32 true true) := by decide
theorem test_decode_dec8 : decode 0b00000000_00000000_0000000_1_0_0_10_0001 = .ok (.dec8 false true) := by decide
theorem test_decode_enc16 : decode 0b00000000_00000000_0000000_0_1_1_00_0010 = .ok (.enc16 true true) := by decide
theorem test_decode_enc32 : decode 0b00000000_00000000_0000000_0_1_0_01_0010 = .ok (.enc32 false true) := by decide
theorem test_decode_enc8 : decode 0b00000000_00000000_0000000_0_0_1_10_0010 = .ok (.enc8 true false) := by decide
theorem test_decode_splitDec16 : decode 0b00000000_00000011_0000000_0_0_0_00_0011 = .ok (.splitDec16 false 3) := by
  decide
theorem test_decode_splitDec32 : decode 0b00000000_00000010_0000000_0_0_1_01_0011 = .ok (.splitDec32 true 2) := by
  decide
theorem test_decode_splitDec8 : decode 0b00000000_11111111_0000000_0_0_0_10_0011 = .ok (.splitDec8 false 255) := by
  decide
theorem test_decode_fname : decode 0b00000000_00000000_0000000_0_0_0_00_0100 = .ok .fname := by decide
theorem test_decode_chunk : decode 0b00000000_00000000_0000000_0_0_0_00_0101 = .ok .chunk := by decide

/-- V84, V85: the reserved operation codes. -/
theorem test_decode_opc_zero : decode 0x00000000 = .error .reservedOpc := by decide
theorem test_decode_opc_six : decode 0x00000006 = .error .reservedOpc := by decide
theorem test_decode_opc_fifteen : decode 0x0000000F = .error .reservedOpc := by decide
/-- R82: `MODE` 3 in each operation that has a mode, and in one that has none. -/
theorem test_decode_mode_three : [0x31, 0x32, 0x00010033, 0x34].map (fun c => decode c) =
    [.error .reservedMode, .error .reservedMode, .error .reservedMode, .error .reservedMode] := by decide
/-- R89: a field the operation does not use. -/
theorem test_decode_unused : [0x81, 0x00010001, 0x102, 0x00010083, 0x00010103, 0x44, 0x00010005].map
    (fun c => decode c) = List.replicate 7 (.error .unusedField) := by decide
/-- R88: a split decode with no count. -/
theorem test_decode_zero_count : decode 0x00000003 = .error .zeroFragcount := by decide
/-- R86: the lowest and the highest reserved bit. -/
theorem test_decode_reserved_low : decode 0x00000201 = .error .reservedBits := by decide
theorem test_decode_reserved_high : decode 0x80000001 = .error .reservedBits := by decide
/-- The table's numbering: a word with bits above `nbits` is cut. -/
theorem test_decodeTableWord : decodeTableWord 32 0x00030003 = some (.splitDec16 false 3) := by decide

/-! The bench: every port bound to a resource of its own, every operand written. -/

def inp (name : Byte) (data : List Byte) : Port InStream := .bound ⟨[name], data, 0, true⟩
def outp (name : Byte) : Port OutStream := .bound ⟨[name], []⟩

/-- The lanes of V12: `HIGH` 11 22 33 44, `LOW` 55 66 77 88; the other streams are V1's and V35's. -/
def bench (i : Instr) (ph : Phase) : State :=
  { State.reset with
    cmd := encode i
    phase := ph
    limit := .written 4
    maxsize := .written 8192
    index := .written 3
    base := .written [0x72, 0x2E, 0x62]
    src := inp 1 [1, 2, 3, 4]
    low := inp 2 [0x55, 0x66, 0x77, 0x88]
    high := inp 3 [0x11, 0x22, 0x33, 0x44]
    files := .bound [⟨[4], [0x10, 0x11, 0x12, 0x13], 0, true⟩, ⟨[5], [0x20, 0x21, 0x22], 0, true⟩]
    tgt := outp 6
    lowo := outp 7
    higho := outp 8
    passed := match ph with
      | .check | .run => [⟨0, 0, 0, 0, 0⟩]
      | .idle | .done | .fail => [] }

/-- What a step answers, seen through `f`. -/
def seen {α : Type} (f : State → α) (r : Result) : Option α :=
  match r with
  | .next t => some (f t)
  | _ => none

/-- The refusal a step answers. -/
def refusal (r : Result) : Option Refusal :=
  match r with
  | .refused x => some x
  | _ => none

/-! One step of each operation. -/

/-- V1, V2: the first unit of `SRC` 01 02 03 04. -/
theorem test_dec16 : [false, true].map (fun le =>
    seen (fun t => (writtenTo t.tgt, t.src.shown.map InStream.pos)) (exec (.dec16 le false) (bench .chunk .run))) =
    [some ([2, 1], some 2), some ([1, 2], some 2)] := by decide
/-- V6, V7: the budget drops by 2, and a used-up budget reads nothing. -/
theorem test_dec16_budget : [4, 0].map (fun r =>
    seen (fun t => (t.rem, t.phase, writtenTo t.tgt)) (exec (.dec16 false true) ((bench .chunk .run).setRem r))) =
    [some (2, .run, [2, 1]), some (0, .done, [])] := by decide
/-- V12, V13: the first word. -/
theorem test_dec32 : [false, true].map (fun le =>
    seen (fun t => writtenTo t.tgt) (exec (.dec32 le false) (bench .chunk .run))) =
    [some [0x22, 0x11, 0x66, 0x55], some [0x55, 0x66, 0x11, 0x22]] := by decide
/-- V14: lanes of different length, and nothing read. -/
theorem test_dec32_lanelen :
    seen (fun t => (t.status, t.errcode, t.low.shown.map InStream.pos))
      (exec (.dec32 false false) { bench .chunk .check with high := inp 3 [0x11, 0x22] }) =
    some (0x4, 4, some 0) := by decide
/-- V20, V21: the first pair, with the bytes of V12's lanes. -/
theorem test_dec8 : [false, true].map (fun le =>
    seen (fun t => writtenTo t.tgt) (exec (.dec8 le false) (bench .chunk .run))) =
    [some [0x11, 0x55], some [0x55, 0x11]] := by decide
/-- V16 for `DEC8`: a lane whose length cannot be known. -/
theorem test_dec8_noseek : refusal (exec (.dec8 false false)
    { bench .chunk .check with low := .bound ⟨[2], [0x55], 0, false⟩ }) = some .dualLaneLengthUnknown := by decide
/-- S2: `ENC16` swaps the pair, `ENC16.LE` keeps it. -/
theorem test_enc16 : [false, true].map (fun le =>
    seen (fun t => writtenTo t.tgt)
      (exec (.enc16 le false) { bench .chunk .run with files := .bound [⟨[4], [0x12, 0x34], 0, true⟩] })) =
    [some [0x34, 0x12], some [0x12, 0x34]] := by decide
/-- V34: `DUP` with a sequential-only file. -/
theorem test_enc16_dup_noseek : refusal (exec (.enc16 false true)
    { bench .chunk .check with files := .bound [⟨[4], [0x12, 0x34], 0, false⟩] }) = some .duplicateNeedsRewind := by
  decide
/-- V35, V36: the first word. -/
theorem test_enc32 : [false, true].map (fun le =>
    seen (fun t => (writtenTo t.higho, writtenTo t.lowo)) (exec (.enc32 le false) (bench .chunk .run))) =
    [some ([0x11, 0x10], [0x13, 0x12]), some ([0x12, 0x13], [0x10, 0x11])] := by decide
/-- V37: bytes short of a unit are dropped and the next file begins. -/
theorem test_enc32_short : seen (fun t => (t.srci, t.pass, writtenTo t.higho))
    (exec (.enc32 false false) { bench .chunk .run with files := .bound [⟨[4], [0x14, 0x15], 0, true⟩] }) =
    some (1, false, []) := by decide
/-- V39: the first pair. -/
theorem test_enc8 : [false, true].map (fun le =>
    seen (fun t => (writtenTo t.higho, writtenTo t.lowo)) (exec (.enc8 le false) (bench .chunk .run))) =
    [some ([0x10], [0x11]), some ([0x11], [0x10])] := by decide
/-- R142: with `DUP` the second pass begins at the first byte. -/
theorem test_enc8_dup : seen (fun t => (t.srci, t.pass, t.files.shown.map (fun fs => fs.map InStream.pos)))
    (exec (.enc8 false true) { bench .chunk .run with files := .bound [⟨[4], [1, 2], 2, true⟩] }) =
    some (0, true, some [0]) := by decide
/-- V60: the first unit of a split decode. -/
theorem test_splitDec16 : seen (fun t => (t.frags, t.nfrag, t.rem))
    (exec (.splitDec16 false 4) { bench .chunk .run with fraglim := 2, rem := 2 }) =
    some ([⟨0, [0x72, 0x2D, 0x30, 0x2E, 0x62], [2, 1]⟩], 1, 0) := by decide
/-- S5: 100 bytes do not divide by 3. -/
theorem test_splitDec16_divis : seen (fun t => (t.status, t.errcode, t.total, t.fraglim))
    (exec (.splitDec16 false 3) { bench .chunk .check with src := inp 1 (List.replicate 100 0), fraglim := 7 }) =
    some (0x4, 5, 100, 7) := by decide
/-- V62, V63 with V12's lanes: the total counts both lanes. -/
theorem test_splitDec32_check : seen (fun t => (t.total, t.fraglim, t.rem, t.phase))
    (exec (.splitDec32 false 2) (bench .chunk .check)) = some (8, 4, 4, .run) := by decide
theorem test_splitDec32 : seen (fun t => t.frags.map Fragment.bytes)
    (exec (.splitDec32 true 2) { bench .chunk .run with fraglim := 4, rem := 4 }) =
    some [[0x55, 0x66, 0x11, 0x22]] := by decide
/-- V68 with V12's lanes. -/
theorem test_splitDec8 : [false, true].map (fun le => seen (fun t => t.frags.map Fragment.bytes)
    (exec (.splitDec8 le 2) { bench .chunk .run with fraglim := 4, rem := 4 })) =
    [some [[0x11, 0x55]], some [[0x55, 0x11]]] := by decide
/-- V67: the `SEEK` check comes first. -/
theorem test_splitDec8_noseek : seen (fun t => t.errcode) (exec (.splitDec8 false 2)
    { bench .chunk .check with low := .bound ⟨[2], [0x55], 0, false⟩ }) = some 2 := by decide
/-- S4: "image.rom", 3 gives "image-3.rom". -/
theorem test_fname : seen (fun t => (t.nameout, t.status)) (exec .fname { bench .chunk .check with
    base := .written [0x69, 0x6D, 0x61, 0x67, 0x65, 0x2E, 0x72, 0x6F, 0x6D] }) =
    some ([0x69, 0x6D, 0x61, 0x67, 0x65, 0x2D, 0x33, 0x2E, 0x72, 0x6F, 0x6D], 0x2) := by decide
/-- V57: 2^64 - 1 has 20 digits. -/
theorem test_fname_max : seen (fun t => t.nameout.drop 2) (exec .fname { bench .chunk .check with
    base := .written [0x78], index := .written 0xFFFFFFFFFFFFFFFF }) =
    some [0x31, 0x38, 0x34, 0x34, 0x36, 0x37, 0x34, 0x34, 0x30, 0x37, 0x33, 0x37, 0x30, 0x39, 0x35, 0x35, 0x31, 0x36,
      0x31, 0x35] := by decide
/-- S9: 4096 is below the floor. -/
theorem test_chunk_minsize : seen (fun t => (t.status, t.errcode))
    (exec .chunk { bench .chunk .check with maxsize := .written 4096 }) = some (0x4, 3) := by decide
/-- V75: the byte that fills a fragment moves to the next. -/
theorem test_chunk_full : seen (fun t => (t.fidx, t.fcnt, t.frags.map Fragment.bytes))
    (exec .chunk { bench .chunk .run with fidx := 3, fcnt := 8191 }) = some (4, 0, [[1]]) := by decide
/-- V77: a byte past the 128th fragment sets `WARN` and is in no fragment. -/
theorem test_chunk_ceiling : seen (fun t => (t.status, t.frags))
    (exec .chunk { bench .chunk .run with fidx := 128 }) = some (0xA, []) := by decide

/-! The machine's step. -/

/-- V84: an illegal command fails in its first step. -/
theorem test_step_illegal : seen (fun t => (t.status, t.errcode, t.src.isBound))
    (step { bench .chunk .check with cmd := 0 }) = some (0x4, 1, true) := by decide
/-- V26: an unbound port. -/
theorem test_step_unbound : seen (fun t => (t.status, t.errcode))
    (step { bench (.dec16 false false) .check with src := .unbound }) = some (0x4, 6) := by decide
/-- R209: a binding that fails leaves the port unbound. -/
theorem test_bindFails : seen (fun t => (t.src.isBound, t.low.isBound))
    (step { bench .chunk .done with host := [.bindFails .src] }) = some (false, true) := by decide
/-- R232, V107: a reset inside the first write of `DEC16`, one byte of which has landed. -/
theorem test_resetInside : seen (fun t => (t.status, t.leftBehind))
    (step { bench (.dec16 false false) .run with host := [.resetInside 1 1 false] }) =
    some (0, [([6], [2]), ([7], []), ([8], [])]) := by decide
/-- U16, R40: a tick at an unanswered access passes, and a reset follows it. -/
theorem test_tick_silent :
    seen (fun t => (t.status, t.host))
      (step { bench (.dec16 false false) .run with host := [.tick, .reset], ioFaults := [⟨0, .silent⟩] }) =
      some (1, [.reset]) := by decide
/-- The very next step after a placed word runs it. -/
theorem test_withFetchWord : seen (fun t => t.errcode) (step (State.reset.withFetchWord 32 0x00000001)) = some 6 := by
  decide
theorem test_reset_fname : refusal (step (State.reset.withFetchWord 32 0x00000004)) = some .unwrittenRegister := by
  decide

/-! Witnesses: for each obligation with hypotheses, a state and operands that meet all of them, and one for each clause at a boundary of its range. -/

/-- The lanes are equally long. -/
def lanesEqual (s : State) : Prop := (bytesOf s.low).length = (bytesOf s.high).length

theorem witness_DecodeOfEncodeGivesBack :
    Instr.wf (.splitDec16 true 1) = true ∧ Instr.wf (.splitDec8 false 255) = true ∧ Instr.wf .chunk = true := by decide
theorem witness_LegalWordsAreEncodings : decode 0x00FF0063 = .ok (.splitDec8 true 255) := by decide
theorem witness_OpcodeMapSelectsWhatDecodes :
    ⟨"CHUNK", 0x00000005, 0xFFFFFFFF, false⟩ ∈ opcodeRows ∧
    OpcodeRow.selects ⟨"CHUNK", 0x00000005, 0xFFFFFFFF, false⟩ 0x00000005 = true := by decide
theorem witness_IllegalCommandRaisesIllcmd :
    let s := { bench .chunk .check with cmd := 0x00000003 }
    s.host = [] ∧ s.phase = .check ∧ decode s.cmd = .error .zeroFragcount := by decide
theorem witness_CmdWriteStartsOperation :
    let s := { bench .chunk .fail with host := [.writeCmd 5, .tick] }
    s.host = .writeCmd 5 :: [.tick] ∧ s.busy = false ∧ s.src = .bound ⟨[1], [1, 2, 3, 4], 0, true⟩ ∧
    s.low.isBound = true ∧ s.high.isBound = true ∧ s.files.isBound = true := by decide
theorem witness_WritesWhileBusyRefused :
    let s := { bench .chunk .run with host := [.bindOut .tgt [9]] }
    s.host = .bindOut .tgt [9] :: [] ∧ s.busy = true ∧ HostMove.bindOut .tgt [9] ≠ .wait ∧
    HostMove.bindOut .tgt [9] ≠ .tick ∧ HostMove.bindOut .tgt [9] ≠ .reset ∧
    (∀ k l c, HostMove.bindOut .tgt [9] ≠ .resetInside k l c) ∧
    ∀ r, HostMove.bindOut .tgt [9] ≠ .read r := ⟨rfl, rfl, nofun, nofun, nofun, nofun, nofun⟩
theorem witness_ReadsAllowedInEveryPhase :
    State.host { bench .chunk .run with host := [.read .status] } = .read .status :: [] ∧
    (bench .chunk .run).busy = true ∧ (bench .chunk .run).passed ≠ [] ∧ (bench .chunk .done).busy = false ∧
    (bench .chunk .done).limit = .written 4 ∧ (bench .chunk .done).maxsize = .written 8192 ∧
    (bench .chunk .done).index = .written 3 ∧ (bench .chunk .done).base = .written [0x72, 0x2E, 0x62] ∧
    State.reset.limit.isWritten = false ∧ State.reset.maxsize.isWritten = false ∧
    State.reset.index.isWritten = false ∧ State.reset.base.isWritten = false := by decide
theorem witness_OperandWritesAreKept :
    (bench .chunk .idle).busy = false ∧ (List.replicate 24 (0 : Byte)).length ≤ Config.nameMax ∧
    ([] : Name).length ≤ Config.nameMax :=
  ⟨rfl, Nat.le_add_right _ _, Nat.zero_le _⟩
theorem witness_ResetLeavesResetValues :
    State.host { bench .chunk .run with host := [.reset] } = .reset :: [] ∧
    State.host { bench .chunk .run with host := [.resetInside 1 0 true] } = .resetInside 1 0 true :: [] ∧
    ∃ k l c, HostMove.resetInside 1 0 true = .resetInside k l c := ⟨rfl, rfl, _, _, _, rfl⟩
theorem witness_StatusAndPortattrBits :
    (bench .chunk .check).src = .bound ⟨[1], [1, 2, 3, 4], 0, true⟩ ∧ (bench .chunk .run).low.isBound = true ∧
    (bench .chunk .run).high.isBound = true ∧ State.reset.src = .unbound ∧ State.reset.low = .unbound ∧
    State.reset.high = .unbound := by decide
theorem witness_StepRunsDecodedCommand :
    ((bench .chunk .run).host = [] ∧ (bench .chunk .run).busy = true ∧ decode (bench .chunk .run).cmd = .ok .chunk ∧
     (seen State.phase (exec .chunk (bench .chunk .run))).isSome = true ∧
     refusal (exec .chunk { bench .chunk .run with base := .unwritten [] }) = some .unwrittenRegister ∧
     exec .chunk { bench .chunk .run with ioFaults := [⟨0, .silent⟩] } = .fault .environmentSilent) ∧
    (Instr.wf (.splitDec32 false 1) = true ∧
     (seen State.phase (exec (.splitDec32 false 1) ((bench .chunk .done).start 0x00010013))).isSome = true ∧
     refusal (exec (.splitDec32 false 1) (State.reset.start 0x00010013)) = some .unwrittenRegister ∧
     exec (.splitDec32 false 1) (State.start 0x00010013 { bench .chunk .done with ioFaults := [⟨0, .silent⟩] }) =
       .fault .environmentSilent) ∧
    (bench .chunk .done).host = [] ∧ (bench .chunk .done).busy = false :=
  ⟨⟨rfl, rfl, by decide, by decide, by decide, rfl⟩, ⟨by decide, by decide, by decide, rfl⟩, rfl, rfl⟩
theorem witness_PhaseMovesOnlyAsListed :
    (bench .fname .check).host = [] ∧ (seen State.phase (step (bench .fname .check)) = some .done) ∧
    (seen State.phase (step (bench (.dec16 false false) .check)) = some .run) ∧
    (seen State.phase (step (bench .chunk .run)) = some .run) := by decide

/-- `DEC16.LIM` with `LIMIT` written and aligned. -/
theorem witness_UnboundPortRaisesIo :
    let i : Instr := .dec16 false true
    let s := { bench i .check with tgt := .unbound }
    i.wf = true ∧ s.phase = .check ∧ OperandsWritten i s ∧ LimitFits i s ∧ LanesSeekable i s ∧ DupRewindable i s ∧
    s.portAlias (usedPorts i) = false ∧ s.lengthsFit (usedPorts i) = true ∧ s.portsBound (usedPorts i) = false := by
  refine ⟨rfl, rfl, fun _ => rfl, fun _ v h => ?_, trivial, trivial, by decide, by decide, by decide⟩
  cases h
  decide
theorem witness_UnwrittenOperandRefused :
    let s := { bench .fname .check with index := .unwritten 0 }
    Instr.wf .fname = true ∧ s.phase = .check ∧ ¬ OperandsWritten .fname s :=
  ⟨rfl, rfl, fun h => by simp [OperandsWritten, Operand.isWritten] at h⟩
/-- One resource on both lanes. -/
theorem witness_SharedResourceRefused_port :
    let i : Instr := .dec32 false false
    let s := { bench i .check with low := inp 3 [1, 2] }
    i.wf = true ∧ s.phase = .check ∧ OperandsWritten i s ∧ LimitFits i s ∧ DupRewindable i s ∧
    s.portAlias (usedPorts i) = true := ⟨rfl, rfl, nofun, nofun, trivial, by decide⟩
/-- The source is named like the first fragment. -/
theorem witness_SharedResourceRefused_chunk :
    let s := { bench .chunk .check with src := .bound ⟨[0x72, 0x2D, 0x30, 0x2E, 0x62], [1], 0, true⟩ }
    s.phase = .check ∧ s.base = .written [0x72, 0x2E, 0x62] ∧ s.maxsize = .written 8192 ∧
    s.chunkAlias [0x72, 0x2E, 0x62] (BitVec.toNat (8192 : Len)) = true := by decide
theorem witness_SharedResourceRefused_split :
    let s := { bench .chunk .check with src := .bound ⟨[0x72, 0x2D, 0x30, 0x2E, 0x62], [1, 2], 0, true⟩ }
    (1 : BitVec 8) ≠ 0 ∧ s.phase = .check ∧ s.ioFaults = [] ∧ s.base = .written [0x72, 0x2E, 0x62] ∧
    s.lengthsFit (splitUsed .w16) = true ∧ s.portsBound (splitUsed .w16) = true ∧
    s.seekable (splitUsed .w16) = true ∧ 0 < splitLength .w16 s ∧ splitLength .w16 s % 1 = 0 ∧
    splitLength .w16 s / 1 % Mode.w16.flatUnit = 0 ∧
    s.fragAlias (splitUsed .w16) [0x72, 0x2E, 0x62] 1 = true := by decide

/-- The last unit of `SRC`, the last of the budget. -/
theorem witness_Dec16TranscodesOneUnit :
    let st : InStream := ⟨[1], [1, 2, 3, 4], 2, true⟩
    let s := { bench .chunk .run with src := .bound st, rem := 2 }
    s.phase = .run ∧ s.ioFaults = [] ∧ s.src = .bound st ∧ s.tgt = .bound ⟨[6], []⟩ ∧
    st.pos + 2 ≤ st.data.length ∧ (true = true → s.rem ≠ 0) := by decide
theorem witness_Dec32TranscodesOneWord :
    let l : InStream := ⟨[2], [0x55, 0x66, 0x77, 0x88], 2, true⟩
    let h : InStream := ⟨[3], [0x11, 0x22, 0x33, 0x44], 2, true⟩
    let s := { bench .chunk .run with low := .bound l, high := .bound h, rem := 4 }
    s.phase = .run ∧ s.ioFaults = [] ∧ s.low = .bound l ∧ s.high = .bound h ∧ s.tgt = .bound ⟨[6], []⟩ ∧
    l.pos + 2 ≤ l.data.length ∧ h.pos + 2 ≤ h.data.length ∧ (true = true → s.rem ≠ 0) := by decide
theorem witness_Dec8TranscodesOnePair :
    let l : InStream := ⟨[2], [0x55, 0x66], 1, true⟩
    let h : InStream := ⟨[3], [0x11, 0x22], 1, true⟩
    let s := { bench .chunk .run with low := .bound l, high := .bound h, rem := 2 }
    s.phase = .run ∧ s.ioFaults = [] ∧ s.low = .bound l ∧ s.high = .bound h ∧ s.tgt = .bound ⟨[6], []⟩ ∧
    l.pos + 1 ≤ l.data.length ∧ h.pos + 1 ≤ h.data.length ∧ (true = true → s.rem ≠ 0) := by decide
theorem witness_DecodeBeginsAndEnds :
    (let s := bench (.dec32 false true) .check
     s.phase = .check ∧ s.ioFaults = [] ∧ OperandsWritten (decodeOp .w32 false true) s ∧
     BudgetAligned (decodeOp .w32 false true) s ∧ s.portAlias (decUsed .w32) = false ∧
     s.lengthsFit (decUsed .w32) = true ∧ s.portsBound (decUsed .w32) = true ∧
     LanesSeekable (decodeOp .w32 false true) s ∧ lanesEqual s) ∧
    ((bench (.dec8 false true) .run).phase = .run ∧ (bench (.dec8 false true) .run).rem = 0) := by
  refine ⟨⟨rfl, rfl, fun _ => rfl, fun _ v h => ?_, by decide, by decide, by decide, rfl, rfl⟩, by decide⟩
  cases h
  decide
theorem witness_UnequalLanesRaiseLanelen :
    let i : Instr := .splitDec8 false 255
    let l : InStream := ⟨[2], [1], 0, true⟩
    let h : InStream := ⟨[3], [1, 2], 0, true⟩
    let s := { bench i .check with low := .bound l, high := .bound h }
    (∃ le n, i = .splitDec8 le n) ∧ i.wf = true ∧ s.phase = .check ∧ s.ioFaults = [] ∧ OperandsWritten i s ∧
    LimitFits i s ∧ s.portAlias (usedPorts i) = false ∧ s.lengthsFit (usedPorts i) = true ∧
    s.portsBound (usedPorts i) = true ∧ s.low = .bound l ∧ s.high = .bound h ∧ l.seek = true ∧ h.seek = true ∧
    l.data.length ≠ h.data.length :=
  ⟨⟨_, _, rfl⟩, rfl, rfl, rfl, rfl, trivial, by decide, by decide, by decide, rfl, rfl, rfl, rfl, by decide⟩
/-- A sequential-only lane, the other lane unbound. -/
theorem witness_SequentialStreamsRefused :
    (let s := { bench .chunk .check with low := .bound ⟨[2], [1], 0, false⟩, high := .unbound }
     Mode.w8 ≠ .w16 ∧ s.phase = .check ∧ OperandsWritten (decodeOp .w8 false false) s ∧
     BudgetAligned (decodeOp .w8 false false) s ∧ s.portAlias (decUsed .w8) = false ∧
     s.lengthsFit (decUsed .w8) = true ∧ s.seekable (decUsed .w8) = false) ∧
    (let st : InStream := ⟨[4], [1], 0, false⟩
     let s := { bench .chunk .check with files := .bound [st] }
     s.phase = .check ∧ s.files = .bound [st] ∧ ∃ x ∈ [st], x.seek = false) :=
  ⟨⟨nofun, rfl, nofun, nofun, by decide, by decide, by decide⟩, rfl, rfl, _, List.mem_singleton.2 rfl, rfl⟩
/-- V9, V19, V65: the smallest misaligned budgets. -/
theorem witness_MisalignedBudgetRefused :
    (let s := { bench .chunk .check with limit := .written 1 }
     s.phase = .check ∧ s.limit = .written 1 ∧ BitVec.toNat (1 : Len) % Mode.w16.flatUnit ≠ 0) ∧
    (let s := { bench .chunk .run with fraglim := 6 }
     s.phase = .run ∧ s.base = .written [0x72, 0x2E, 0x62] ∧ s.fraglim.toNat % Mode.w32.flatUnit ≠ 0) := by decide
/-- One byte short, and nothing left. -/
theorem witness_ShortReadEndsDecode :
    (∀ p ∈ [3, 4], let st : InStream := ⟨[1], [1, 2, 3, 4], p, true⟩
     let s := { bench .chunk .run with src := .bound st }
     s.phase = .run ∧ s.ioFaults = [] ∧ s.src = .bound st ∧ (false = true → s.rem ≠ 0) ∧
     st.pos ≤ st.data.length ∧ st.data.length < st.pos + 2) ∧
    (let l : InStream := ⟨[2], [1, 2], 0, true⟩
     let h : InStream := ⟨[3], [1], 0, true⟩
     let s := { bench .chunk .run with low := .bound l, high := .bound h }
     Mode.w32 ≠ .w16 ∧ s.phase = .run ∧ s.ioFaults = [] ∧ s.low = .bound l ∧ s.high = .bound h ∧
     (false = true → s.rem ≠ 0) ∧ l.pos ≤ l.data.length ∧ h.pos ≤ h.data.length ∧
     (l.data.length < l.pos + Mode.w32.laneUnit ∨ h.data.length < h.pos + Mode.w32.laneUnit)) := by decide

/-! Launch premises met, for an operation of each kind. -/

theorem launch_dec32 (le lim : Bool) : Launch (.dec32 le lim) (bench (.dec32 le lim) .idle) where
  notBusy := rfl
  portsBound := rfl
  operandsWritten _ := rfl
  noPortAlias := rfl
  noFragAlias := trivial
  noIOFault := rfl
  lengthsFit := by cases le <;> cases lim <;> decide
  budgetAligned _ v h := by
    cases h
    decide
  lanesSeekable := rfl
  dupRewindable := trivial
  hostQuiet := rfl

theorem launch_dec16 (le lim : Bool) : Launch (.dec16 le lim) (bench (.dec16 le lim) .done) where
  notBusy := rfl
  portsBound := rfl
  operandsWritten _ := rfl
  noPortAlias := rfl
  noFragAlias := trivial
  noIOFault := rfl
  lengthsFit := by cases le <;> cases lim <;> decide
  budgetAligned _ v h := by
    cases h
    decide
  lanesSeekable := trivial
  dupRewindable := trivial
  hostQuiet := rfl

theorem launch_enc8 (le dup : Bool) : Launch (.enc8 le dup) (bench (.enc8 le dup) .fail) where
  notBusy := rfl
  portsBound := rfl
  operandsWritten := trivial
  noPortAlias := rfl
  noFragAlias := trivial
  noIOFault := rfl
  lengthsFit := by cases le <;> cases dup <;> decide
  budgetAligned := trivial
  lanesSeekable := trivial
  dupRewindable _ := rfl
  hostQuiet := rfl

theorem launch_splitDec16 : Launch (.splitDec16 false 2) (bench (.splitDec16 false 2) .idle) where
  notBusy := rfl
  portsBound := rfl
  operandsWritten := rfl
  noPortAlias := rfl
  noFragAlias b h := by
    cases h
    decide
  noIOFault := rfl
  lengthsFit := by decide
  budgetAligned _ := by decide
  lanesSeekable := trivial
  dupRewindable := trivial
  hostQuiet := rfl

theorem launch_chunk : Launch .chunk (bench .chunk .idle) where
  notBusy := rfl
  portsBound := rfl
  operandsWritten := ⟨rfl, rfl⟩
  noPortAlias := rfl
  noFragAlias b size h g := by
    cases h
    cases g
    decide
  noIOFault := rfl
  lengthsFit := by decide
  budgetAligned := trivial
  lanesSeekable := trivial
  dupRewindable := trivial
  hostQuiet := rfl

/-- A budget of 4 within 4 bytes in each lane. -/
theorem witness_DecodeWritesTheClosedForm :
    Launch (decodeOp .w32 true true) (bench (.dec32 true true) .idle) ∧ lanesEqual (bench (.dec32 true true) .idle) :=
  ⟨launch_dec32 true true, rfl⟩
theorem witness_BudgetedDecodeLeavesCursors :
    let s := bench (.dec16 false true) .done
    Launch (decodeOp .w16 false true) s ∧ s.limit = .written 4 ∧
    BitVec.toNat (4 : Len) ≤ unitsOf .w16 (firstData .w16 false s) * Mode.w16.flatUnit :=
  ⟨launch_dec16 false true, rfl, by decide⟩
/-- V7 as a run of three steps: a used-up budget ends it. -/
theorem witness_LittleEndianReversesEveryWord :
    ∃ s t0 t1, Launch (decodeOp .w16 false true) s ∧ EndsAt (s.start (encode (decodeOp .w16 false true))) t0 ∧
      EndsAt (s.start (encode (decodeOp .w16 true true))) t1 := by
  refine ⟨{ bench (.dec16 false true) .done with limit := .written 0 }, _, _, ?_,
    EndsAt.of_step rfl (EndsAt.of_step rfl (EndsAt.of_quiet rfl)),
    EndsAt.of_step rfl (EndsAt.of_step rfl (EndsAt.of_quiet rfl))⟩
  exact { launch_dec16 false true with
    operandsWritten := fun _ => rfl
    lengthsFit := by decide
    budgetAligned := fun _ v h => by
      cases h
      decide }

theorem witness_Enc16TranscodesOneUnit :
    let st : InStream := ⟨[4], [0x10, 0x11, 0x12, 0x13], 2, true⟩
    let s := { bench .chunk .run with files := .bound [st] }
    s.phase = .run ∧ s.ioFaults = [] ∧ s.files = .bound [st] ∧ [st][s.srci]? = some st ∧ s.tgt = .bound ⟨[6], []⟩ ∧
    st.pos + 2 ≤ st.data.length := by decide
theorem witness_Enc32TranscodesOneWord :
    let st : InStream := ⟨[4], [0x10, 0x11, 0x12, 0x13], 0, true⟩
    let s := { bench .chunk .run with files := .bound [st] }
    s.phase = .run ∧ s.ioFaults = [] ∧ s.files = .bound [st] ∧ [st][s.srci]? = some st ∧
    s.lowo = .bound ⟨[7], []⟩ ∧ s.higho = .bound ⟨[8], []⟩ ∧ st.pos + 4 ≤ st.data.length := by decide
theorem witness_Enc8TranscodesOnePair :
    let st : InStream := ⟨[4], [0x10, 0x11], 0, true⟩
    let s := { bench .chunk .run with files := .bound [st] }
    s.phase = .run ∧ s.ioFaults = [] ∧ s.files = .bound [st] ∧ [st][s.srci]? = some st ∧
    s.lowo = .bound ⟨[7], []⟩ ∧ s.higho = .bound ⟨[8], []⟩ ∧ st.pos + 2 ≤ st.data.length := by decide
/-- One byte short of a unit, in the first pass and in the second, with a next file. -/
theorem witness_FileEndMovesToNextPass :
    let st : InStream := ⟨[4], [1, 2, 3], 2, true⟩
    let st' : InStream := ⟨[5], [4], 0, true⟩
    ∀ p ∈ [false, true], let s := { bench .chunk .run with files := .bound [st, st'], pass := p }
    s.phase = .run ∧ s.ioFaults = [] ∧ s.files = .bound [st, st'] ∧ [st, st'][s.srci]? = some st ∧
    st.data.length < st.pos + Mode.w16.flatUnit ∧ s.pass = p ∧ [st, st'][s.srci + 1]? = some st' := by decide
theorem witness_EncodeBeginsAndEnds :
    (let s := bench .chunk .check
     let fs : List InStream := [⟨[4], [0x10, 0x11, 0x12, 0x13], 0, true⟩, ⟨[5], [0x20, 0x21, 0x22], 0, true⟩]
     s.phase = .check ∧ s.ioFaults = [] ∧ s.files = .bound fs ∧ (∀ st ∈ fs, st.pos = 0) ∧
     DupRewindable (encOf .w8 false true) s ∧ s.portAlias (encUsed .w8) = false ∧
     s.lengthsFit (encUsed .w8) = true ∧ s.portsBound (encUsed .w8) = true) ∧
    (let s := { bench .chunk .run with srci := 2 }
     s.phase = .run ∧ s.files.isBound = true ∧ (2 : Nat) ≤ s.srci) :=
  ⟨⟨rfl, rfl, rfl, by decide, fun _ => rfl, by decide, by decide, by decide⟩, by decide⟩
theorem witness_EncodeWritesTheClosedForm : Launch (encOf .w8 true true) (bench (.enc8 true true) .fail) :=
  launch_enc8 true true
/-- Files of whole units; and a decode whose `SRC` is what an encode of no file writes. -/
theorem witness_DecodeUndoesEncode :
    (let s := { bench (.enc8 false true) .fail with files := .bound [⟨[4], [1, 2], 0, true⟩] }
     Launch (encOf .w8 false true) s ∧ ∀ d ∈ fileData s, d.length % Mode.w8.flatUnit = 0) ∧
    (let s := { bench (.dec8 false false) .done with low := inp 2 [2, 2], high := inp 3 [1, 1] }
     Launch (decodeOp .w8 false false) s ∧ bytesOf s.low = [2, 2] ∧ bytesOf s.high = [1, 1]) := by
  refine ⟨⟨{ launch_enc8 false true with
    operandsWritten := trivial, lengthsFit := by decide, dupRewindable := fun _ => rfl }, by decide⟩,
    ⟨rfl, rfl, nofun, rfl, trivial, rfl, by decide, nofun, rfl, trivial, rfl⟩, rfl, rfl⟩
theorem witness_EncodeUndoesDecode :
    (let s := bench (.dec32 true false) .idle
     Launch (decodeOp .w32 true false) s ∧ (firstData .w32 true s).length % Mode.w32.laneUnit = 0 ∧ lanesEqual s) ∧
    (let d : List Byte := [0x55, 0x66, 0x11, 0x22, 0x77, 0x88, 0x33, 0x44]
     let s := { bench (.enc32 true false) .done with files := .bound [⟨[6], d, 0, true⟩], tgt := .unbound }
     Launch (encOf .w32 true false) s ∧ fileData s = [d]) :=
  ⟨⟨launch_dec32 true false, by decide, rfl⟩,
    ⟨rfl, rfl, trivial, rfl, trivial, rfl, by decide, trivial, trivial, nofun, rfl⟩, rfl⟩

theorem witness_FnameWritesTheName :
    (bench .fname .check).phase = .check ∧ (bench .fname .check).base = .written [0x72, 0x2E, 0x62] ∧
    (bench .fname .check).index = .written 3 ∧
    (State.phase { bench .fname .check with index := .unwritten 0 } = .check) ∧
    Operand.isWritten (State.index { bench .fname .check with index := .unwritten 0 }) = false := by decide
/-- A dot as the first byte and as the last, and no dot. -/
theorem witness_NameTakesIndexBeforeLastDot :
    (0x2E : Byte) ∉ ([0x72] : Name) ∧ (0x2E : Byte) ∉ ([] : Name) := by decide
theorem witness_DecIsTheShortestNumeral : 0 < 1 ∧ 2 ^ 64 - 1 < 2 ^ 64 := by decide
theorem witness_FragmentNamesAreDistinct : fragName [0x72] 1 = fragName [0x72] 1 := rfl
/-- The least count. -/
theorem witness_SplitCheckWritesTotalAndLimit :
    let s := bench .chunk .check
    (1 : BitVec 8) ≠ 0 ∧ s.phase = .check ∧ s.ioFaults = [] ∧ OperandsWritten (splitOf .w16 false 1) s ∧
    NoFragAlias (splitOf .w16 false 1) s ∧ s.portAlias (splitUsed .w16) = false ∧
    s.lengthsFit (splitUsed .w16) = true ∧ s.portsBound (splitUsed .w16) = true ∧
    s.seekable (splitUsed .w16) = true ∧ splitLength .w16 s % BitVec.toNat (1 : BitVec 8) = 0 := by
  refine ⟨by decide, rfl, rfl, rfl, fun b h => ?_, by decide, by decide, by decide, by decide, by decide⟩
  cases h
  decide
theorem witness_SplitChecksRaiseTheirErrors :
    (let s := { bench .chunk .check with src := .bound ⟨[1], [1], 0, false⟩ }
     (3 : BitVec 8) ≠ 0 ∧ s.phase = .check ∧ OperandsWritten (splitOf .w16 false 3) s ∧
     s.portAlias (splitUsed .w16) = false ∧ s.lengthsFit (splitUsed .w16) = true ∧
     s.portsBound (splitUsed .w16) = true ∧ s.seekable (splitUsed .w16) = false) ∧
    (let s := bench .chunk .check
     (3 : BitVec 8) ≠ 0 ∧ s.phase = .check ∧ OperandsWritten (splitOf .w16 false 3) s ∧
     s.portAlias (splitUsed .w16) = false ∧ s.lengthsFit (splitUsed .w16) = true ∧
     s.portsBound (splitUsed .w16) = true ∧ s.seekable (splitUsed .w16) = true ∧ s.ioFaults = [] ∧
     splitLength .w16 s % BitVec.toNat (3 : BitVec 8) ≠ 0) :=
  ⟨⟨by decide, rfl, rfl, by decide, by decide, by decide, by decide⟩,
    by decide, rfl, rfl, by decide, by decide, by decide, by decide, rfl, by decide⟩
theorem witness_SplitDec16TranscodesOneUnit :
    let st : InStream := ⟨[1], [1, 2, 3, 4], 2, true⟩
    let s := { bench .chunk .run with src := .bound st, fraglim := 2, rem := 2, fidx := 254 }
    s.phase = .run ∧ s.ioFaults = [] ∧ s.base = .written [0x72, 0x2E, 0x62] ∧ s.src = .bound st ∧
    s.fraglim.toNat % 2 = 0 ∧ s.rem ≠ 0 ∧ st.pos + 2 ≤ st.data.length := by decide
theorem witness_DualLaneSplitTranscodesOneUnit :
    let l : InStream := ⟨[2], [0x55, 0x66], 0, true⟩
    let h : InStream := ⟨[3], [0x11, 0x22], 0, true⟩
    let s := { bench .chunk .run with low := .bound l, high := .bound h, fraglim := 4, rem := 4 }
    Mode.w32 ≠ .w16 ∧ s.phase = .run ∧ s.ioFaults = [] ∧ s.base = .written [0x72, 0x2E, 0x62] ∧ s.low = .bound l ∧
    s.high = .bound h ∧ s.fraglim.toNat % Mode.w32.flatUnit = 0 ∧ s.rem ≠ 0 ∧
    l.pos + Mode.w32.laneUnit ≤ l.data.length ∧ h.pos + Mode.w32.laneUnit ≤ h.data.length := by decide
/-- The last fragment but one, and the last, of 255. -/
theorem witness_UsedUpBudgetMovesToNextFragment :
    let s := { bench .chunk .run with fraglim := 4 }
    (s.phase = .run ∧ s.base = .written [0x72, 0x2E, 0x62] ∧ s.fraglim.toNat % Mode.w32.flatUnit = 0 ∧ s.rem = 0) ∧
    BitVec.toNat (253 : Len) + 1 < BitVec.toNat (255 : BitVec 8) ∧
    BitVec.toNat (255 : BitVec 8) ≤ BitVec.toNat (254 : Len) + 1 := by decide
theorem witness_SplitWritesTheClosedForm :
    let s := bench (.splitDec16 false 2) .idle
    (2 : BitVec 8) ≠ 0 ∧ Launch (splitOf .w16 false 2) s ∧ s.base = .written [0x72, 0x2E, 0x62] ∧
    s.seekable (splitUsed .w16) = true ∧ splitLength .w16 s % BitVec.toNat (2 : BitVec 8) = 0 ∧
    0 < splitLength .w16 s :=
  ⟨by decide, launch_splitDec16, rfl, by decide, by decide, by decide⟩
/-- The two sizes at the floor. -/
theorem witness_ChunkSizeFloorIs8192 :
    (let s := { bench .chunk .check with maxsize := .written 8191 }
     s.phase = .check ∧ s.base = .written [0x72, 0x2E, 0x62] ∧ s.maxsize = .written 8191 ∧
     s.chunkAlias [0x72, 0x2E, 0x62] (BitVec.toNat (8191 : Len)) = false ∧ s.lengthsFit chunkUsed = true ∧
     s.src.isBound = true ∧ BitVec.toNat (8191 : Len) < 8192) ∧
    (let s := bench .chunk .check
     s.phase = .check ∧ s.base = .written [0x72, 0x2E, 0x62] ∧ s.maxsize = .written 8192 ∧
     s.chunkAlias [0x72, 0x2E, 0x62] (BitVec.toNat (8192 : Len)) = false ∧ s.lengthsFit chunkUsed = true ∧
     s.src.isBound = true ∧ 8192 ≤ BitVec.toNat (8192 : Len)) := by
  refine ⟨⟨rfl, rfl, rfl, ?_, by decide, rfl, by simp⟩, rfl, rfl, rfl, by decide, by decide, rfl, by simp⟩
  simp [State.chunkAlias, Config.minChunkSize]
/-- The last byte of the source, into the last fragment. -/
theorem witness_ChunkCopiesOneByte :
    let st : InStream := ⟨[1], [1, 2, 3, 4], 3, true⟩
    let s := { bench .chunk .run with src := .bound st, fidx := 127, fcnt := 8191 }
    s.phase = .run ∧ s.ioFaults = [] ∧ s.base = .written [0x72, 0x2E, 0x62] ∧ s.maxsize = .written 8192 ∧
    s.src = .bound st ∧ st.pos < st.data.length ∧ s.fidx.toNat ≠ 128 := by decide
/-- A byte still there at the ceiling, none there at the ceiling, and none there below it. -/
theorem witness_ChunkEndsWithWarningAtCeiling :
    ∀ p ∈ ([(128, 3), (128, 4), (127, 4)] : List (Len × Nat)), let st : InStream := ⟨[1], [1, 2, 3, 4], p.2, true⟩
    let s := { bench .chunk .run with src := .bound st, fidx := p.1 }
    s.phase = .run ∧ s.ioFaults = [] ∧ s.base = .written [0x72, 0x2E, 0x62] ∧ s.maxsize = .written 8192 ∧
    s.src = .bound st ∧ (s.fidx.toNat = 128 ∨ st.data.length ≤ st.pos) := by decide
theorem witness_ChunkWritesTheClosedForm :
    let s := bench .chunk .idle
    Launch .chunk s ∧ s.base = .written [0x72, 0x2E, 0x62] ∧ s.maxsize = .written 8192 ∧
    8192 ≤ BitVec.toNat (8192 : Len) := ⟨launch_chunk, rfl, rfl, by decide⟩
/-- The last unit of each input, with no byte of a failed write landed and with one. -/
theorem witness_FailedWriteLeavesAPrefix_decode_and_split : ∀ p ∈ [(0, false), (1, true)],
    (let s := { bench .chunk .run with
       rem := 2, fraglim := 2, ioFaults := [⟨inputCount .w16, .fail p.1 p.2⟩], src := .bound ⟨[1], [1, 2, 3, 4], 2, true⟩ }
     s.phase = .run ∧ unitThere .w16 s ∧ s.tgt = .bound ⟨[6], []⟩ ∧ (true = true → s.rem ≠ 0) ∧
     s.ioFaults = ⟨inputCount .w16, .fail p.1 p.2⟩ :: [] ∧ s.base = .written [0x72, 0x2E, 0x62] ∧
     s.fraglim.toNat % Mode.w16.flatUnit = 0) ∧
    (let s := { bench .chunk .run with rem := 4, fraglim := 4, ioFaults := [⟨inputCount .w32, .fail p.1 p.2⟩] }
     s.phase = .run ∧ unitThere .w32 s ∧ s.tgt = .bound ⟨[6], []⟩ ∧ (true = true → s.rem ≠ 0) ∧
     s.ioFaults = ⟨inputCount .w32, .fail p.1 p.2⟩ :: [] ∧ s.base = .written [0x72, 0x2E, 0x62] ∧
     s.fraglim.toNat % Mode.w32.flatUnit = 0) := by
  simp only [unitThere]
  decide
theorem witness_FailedWriteLeavesAPrefix_encode : ∀ p ∈ [(1, 0, false), (2, 1, true)],
    let st : InStream := ⟨[4], [0x10, 0x11, 0x12, 0x13], 0, true⟩
    let s := { bench .chunk .run with files := .bound [st], ioFaults := [⟨p.1, .fail p.2.1 p.2.2⟩] }
    Mode.w32 ≠ .w16 ∧ s.phase = .run ∧ s.files = .bound [st] ∧ [st][s.srci]? = some st ∧
    st.pos + Mode.w32.flatUnit ≤ st.data.length ∧ firstPort .w32 true s = .bound ⟨[7], []⟩ ∧
    secondPort .w32 true s = .bound ⟨[8], []⟩ ∧ s.ioFaults = ⟨p.1, .fail p.2.1 p.2.2⟩ :: [] := by decide
theorem witness_FailedWriteLeavesAPrefix_chunk :
    let st : InStream := ⟨[1], [1, 2, 3, 4], 3, true⟩
    let s := { bench .chunk .run with src := .bound st, fidx := 127, ioFaults := [⟨1, .fail 0 true⟩] }
    s.phase = .run ∧ s.base = .written [0x72, 0x2E, 0x62] ∧ s.maxsize = .written 8192 ∧ s.src = .bound st ∧
    st.pos < st.data.length ∧ s.fidx.toNat ≠ 128 ∧ s.ioFaults = ⟨1, .fail 0 true⟩ :: [] := by decide
theorem witness_FailedWriteLeavesAPrefix_reset :
    (let s := { bench .chunk .run with host := [.reset], frags := [⟨0, [1], [9]⟩] }
     s.host = .reset :: [] ∧ s.busy = true ∧ s.tgt = .bound ⟨[6], []⟩ ∧ ⟨0, [1], [9]⟩ ∈ s.frags) ∧
    (let s := { bench (.dec8 true false) .run with host := [.resetInside (inputCount .w8) 1 false] }
     s.host = .resetInside (inputCount .w8) 1 false :: [] ∧ decode s.cmd = .ok (decodeOp .w8 true false) ∧
     s.phase = .run ∧ unitThere .w8 s ∧ s.tgt = .bound ⟨[6], []⟩ ∧ (false = true → s.rem ≠ 0)) := by
  simp only [unitThere]
  decide
theorem witness_UnservedReadStopsTheOperation_run :
    (let s := { bench .chunk .run with ioFaults := [⟨0, .fail 0 false⟩] }
     s.phase = .run ∧ readsNext .chunk s ∧ s.ioFaults = ⟨0, .fail 0 false⟩ :: []) ∧
    (let s := { bench .chunk .run with ioFaults := [⟨0, .silent⟩] }
     s.phase = .run ∧ readsNext (.enc16 false true) s ∧ s.ioFaults = ⟨0, .silent⟩ :: []) ∧
    (let s := { bench .chunk .run with ioFaults := [⟨0, .silent⟩], host := [.tick] }
     s.host = .tick :: [] ∧ decode s.cmd = .ok .chunk ∧ s.phase = .run ∧ readsNext .chunk s ∧
     s.ioFaults = ⟨0, .silent⟩ :: []) :=
  ⟨⟨rfl, ⟨rfl, rfl⟩, rfl⟩, ⟨rfl, ⟨_, rfl, by decide⟩, rfl⟩, rfl, by decide, rfl, ⟨rfl, rfl⟩, rfl⟩
/-- The second lane of `DEC32` and of `SPLITDEC8`. -/
theorem witness_UnservedReadStopsTheOperation_second :
    let s := { bench .chunk .run with rem := 4, fraglim := 4, ioFaults := [⟨1, .fail 0 false⟩] }
    Mode.w32 ≠ .w16 ∧ s.phase = .run ∧ readsNext (decodeOp .w32 false true) s ∧
    readsNext (splitOf .w8 true 2) s ∧ s.low.isBound = true ∧ s.high.isBound = true ∧
    s.ioFaults = ⟨1, .fail 0 false⟩ :: [] :=
  ⟨nofun, rfl, fun _ => by decide, ⟨rfl, by decide, by decide⟩, rfl, rfl, rfl⟩
/-- The first and the second length probe of a decode; the first of a split decode on one stream. -/
theorem witness_UnservedReadStopsTheOperation_length :
    (∀ k ∈ [0, 1], let i := decodeOp .w32 false false
     let s := { bench .chunk .check with ioFaults := [⟨k, .fail 0 false⟩] }
     (∃ le lim, Mode.w32 ≠ .w16 ∧ i = decodeOp .w32 le lim) ∧ i.wf = true ∧ s.phase = .check ∧ OperandsWritten i s ∧
     LimitFits i s ∧ s.portAlias (usedPorts i) = false ∧ s.lengthsFit (usedPorts i) = true ∧
     s.portsBound (usedPorts i) = true ∧ s.seekable (usedPorts i) = true ∧ k < inputCount .w32 ∧
     s.ioFaults = ⟨k, .fail 0 false⟩ :: []) ∧
    (let i := splitOf .w16 false 1
     let s := { bench .chunk .check with ioFaults := [⟨0, .fail 0 false⟩] }
     i.wf = true ∧ s.phase = .check ∧ OperandsWritten i s ∧ LimitFits i s ∧ s.portAlias (usedPorts i) = false ∧
     s.lengthsFit (usedPorts i) = true ∧ s.portsBound (usedPorts i) = true ∧ s.seekable (usedPorts i) = true ∧
     0 < inputCount .w16 ∧ s.ioFaults = ⟨0, .fail 0 false⟩ :: []) := by
  refine ⟨fun k hk => ?_, rfl, rfl, rfl, trivial, by decide, by decide, by decide, by decide, by decide, rfl⟩
  fin_cases hk <;>
    exact ⟨⟨_, _, nofun, rfl⟩, rfl, rfl, nofun, nofun, by decide, by decide, by decide, by decide, by decide, rfl⟩
/-- The first file's rewind in `CHECK`; the second pass of the only file, and the next file. -/
theorem witness_UnservedReadStopsTheOperation_rewind :
    (let st : InStream := ⟨[4], [1, 2], 0, true⟩
     let s := { bench .chunk .check with files := .bound [st], ioFaults := [⟨0, .fail 0 false⟩] }
     s.phase = .check ∧ s.files = .bound (st :: []) ∧ DupRewindable (encOf .w8 false true) s ∧
     s.portAlias (encUsed .w8) = false ∧ s.lengthsFit (encUsed .w8) = true ∧ s.portsBound (encUsed .w8) = true ∧
     s.ioFaults = ⟨0, .fail 0 false⟩ :: []) ∧
    (let st : InStream := ⟨[4], [1, 2, 3], 2, true⟩
     let s := { bench .chunk .run with files := .bound [st], ioFaults := [⟨1, .fail 0 false⟩] }
     s.phase = .run ∧ s.files = .bound [st] ∧ [st][s.srci]? = some st ∧
     st.data.length < st.pos + Mode.w16.flatUnit ∧ (true = true ∧ s.pass = false) ∧
     s.ioFaults = ⟨1, .fail 0 false⟩ :: []) ∧
    (let st : InStream := ⟨[4], [1, 2, 3], 2, true⟩
     let s := { bench .chunk .run with files := .bound [st, st], ioFaults := [⟨1, .fail 0 false⟩] }
     s.srci + 1 < [st, st].length) :=
  ⟨⟨rfl, rfl, fun _ => by decide, by decide, by decide, by decide, rfl⟩, by decide, by decide⟩
/-- A step of each kind that gives a next state, for the three frame statements. -/
theorem witness_RegistersWrittenOnlyByTheirOperations :
    (seen State.phase (exec (.enc16 false true) (bench .chunk .run))).isSome = true ∧
    (seen State.phase (exec (.splitDec8 false 2) (bench .chunk .check))).isSome = true ∧
    (seen State.phase (exec .fname (bench .chunk .check))).isSome = true := by decide
theorem witness_PortsTouchedOnlyByTheirOperations :
    (seen State.phase (exec (.dec8 false false) (bench .chunk .run))).isSome = true ∧
    (usedPorts (.dec8 false false)).src = false ∧ (usedPorts (.dec8 false false)).files = false := by decide
theorem witness_FragmentsOnlyGrow :
    (seen State.frags (exec .chunk { bench .chunk .run with frags := [⟨0, [1], [9]⟩], nfrag := 1 })) =
    some [⟨0, [1], [9, 1]⟩] := by decide
/-- A state that meets the invariant and is not the reset state: an operation of it steps. -/
theorem witness_EveryStepKeepsTheInvariant :
    Inv (bench .chunk .check) ∧ (seen State.phase (step (bench .chunk .check)) = some .run) := by
  refine ⟨⟨by decide, by decide, ?_, ?_, ?_, ?_, by decide, by decide, by decide, by decide, ?_, ?_,
    ⟨by decide, fun _ => rfl, nofun⟩, rfl⟩, by decide⟩
  · rintro st h
    cases h
    exact Nat.zero_le _
  · rintro st h
    cases h
    exact Nat.zero_le _
  · rintro st h
    cases h
    exact Nat.zero_le _
  · rintro fs h st hst
    cases h
    fin_cases hst <;> exact Nat.zero_le _
  · rintro b (h | h) <;> cases h
    exact Nat.le_trans (by decide) (Nat.le_add_right Config.nameMaxFloor _)
  · exact Nat.zero_le _
theorem witness_EveryOperationEnds :
    let s := { bench .chunk .run with ioFaults := [⟨3, .fail 0 true⟩] }
    s.host = [] ∧ ∀ f ∈ s.ioFaults, f.kind ≠ .silent := by decide
theorem witness_LaunchPremisesGiveAnOutcome :
    Instr.wf (.splitDec16 false 2) = true ∧ Launch (.splitDec16 false 2) (bench (.splitDec16 false 2) .idle) :=
  ⟨rfl, launch_splitDec16⟩

end Sys2Proof.Tests
end

/-! The host's moves as lemmas, and the ways a step of the machine comes about (log 3). -/

namespace Sys2Proof.Machine

variable {s t : State} {m : HostMove} {rest : List HostMove}

theorem whenIdle_of_idle (hb : s.busy = false) (t : State) : whenIdle s t = .next t := by
  simp [whenIdle, hb]

theorem whenIdle_eq_next {r : State} (h : whenIdle s r = .next t) : s.busy = false ∧ t = r := by
  unfold whenIdle at h
  split at h
  · cases h
  · rename_i hb
    exact ⟨by simpa using hb, by simpa using h.symm⟩

/-- R15: the two tests of a name's length are one. -/
theorem nameFits_iff {b : Name} : nameFits b = true ↔ b.length ≤ Config.nameMax := by
  simp only [nameFits, Bool.or_eq_true, decide_eq_true_eq, or_iff_right_iff_imp]
  exact fun h => Nat.le_trans h (Nat.le_add_right _ _)

/-- Every move of the host but waiting and letting the transcoder step is made at once (log 3). -/
theorem step_hostMove (hh : s.host = m :: rest) (hw : m ≠ .wait) (ht : m ≠ .tick) :
    step s = hostMove m (s.setHost rest) := by
  simp only [step, nextMove, hh]

/-- A step that gives a next state is a step of the transcoder or a move of the host, once the move is off the list. -/
theorem step_next_cases (h : step s = .next t) :
    ∃ r, (r = s ∨ ∃ rest, r = s.setHost rest) ∧
      (transcoderStep r = .next t ∨ ∃ m, hostMove m r = .next t) := by
  cases hh : s.host with
  | nil => exact ⟨s, .inl rfl, .inl (by rwa [step_quiet hh] at h)⟩
  | cons m rest =>
    by_cases ht : m = .tick
    · subst ht
      refine ⟨s.setHost rest, .inr ⟨rest, rfl⟩, ?_⟩
      simp only [step, nextMove, hh] at h
      obtain h | ⟨rfl, -⟩ := passTick_eq_next h
      · exact .inl h
      · exact .inr ⟨.tick, rfl⟩
    by_cases hw : m = .wait
    · subst hw
      simp only [step, nextMove, hh] at h
      split at h
      · exact ⟨s, .inl rfl, .inl h⟩
      · exact ⟨s.setHost rest, .inr ⟨rest, rfl⟩, .inr ⟨.wait, h⟩⟩
    · rw [step_hostMove hh hw ht] at h
      exact ⟨s.setHost rest, .inr ⟨rest, rfl⟩, .inr ⟨m, h⟩⟩

/-- A transcoder step that gives a next state is quiescent, runs a legal command, or rejects an illegal one (R27, R92). -/
theorem transcoderStep_next_cases (h : transcoderStep s = .next t) :
    (s.busy = false ∧ t = s) ∨
    (s.busy = true ∧ ∃ i r, decode s.cmd = .ok i ∧ exec i s = .next r ∧ t = r.note) ∨
    (s.busy = true ∧ t = (raise .illcmd .none s).note) := by
  cases hb : s.busy with
  | false => exact .inl ⟨rfl, by simpa [transcoderStep_idle hb] using h.symm⟩
  | true =>
    cases hd : decode s.cmd with
    | error e => exact .inr (.inr ⟨rfl, by simpa [transcoderStep_error hb hd] using h.symm⟩)
    | ok i =>
      rw [transcoderStep_ok hb hd] at h
      obtain ⟨r, hr, rfl⟩ := noted_eq_next h
      exact .inr (.inl ⟨rfl, i, r, rfl, hr, rfl⟩)

theorem busy_iff : s.busy = true ↔ s.phase = .check ∨ s.phase = .run := by
  simp [State.busy]

end Sys2Proof.Machine

/-! What one step of an operation keeps, read off its small updates and its ways of ending (Laws/Work.lean). -/

namespace Sys2Proof.Machine

variable {i : Instr} {s m t : State}

/-- A step of an operation makes no change, or is a chain of small updates with one way of ending. -/
theorem exec_next_cases (h : exec i s = .next t) : t = s ∨ Worked i s t := by
  cases hb : s.busy with
  | false => exact .inl (by simpa [exec_quiet i hb] using h.symm)
  | true => exact .inr (exec_work i hb h)

/-! The registers after the end of a step. -/

/-- R25: no ending writes `CMD` or an operand register. -/
theorem Close.operands (hc : Close i s m t) :
    t.cmd = m.cmd ∧ t.limit = m.limit ∧ t.maxsize = m.maxsize ∧ t.index = m.index ∧ t.base = m.base := by
  cases hc <;> exact ⟨rfl, rfl, rfl, rfl, rfl⟩

/-- R171: only `FNAME` writes `NAMEOUT`, at its end. -/
theorem Close.nameout (hc : Close i s m t) :
    t.nameout = m.nameout ∨
    i = .fname ∧ ∃ (b : Name) (v : Len), s.base = .written b ∧ t.nameout = fragName b v.toNat := by
  cases hc with
  | doneName b v _ hi hb => exact .inr ⟨hi, b, v, hb, rfl⟩
  | _ => exact .inl rfl

/-- R184: only `CHUNK` sets `WARN`, and it is then in `DONE`. -/
theorem Close.warn (hc : Close i s m t) : t.warn = m.warn ∨ i = .chunk ∧ t.phase = .done := by
  cases hc with
  | doneWarn _ hi => exact .inr ⟨hi, rfl⟩
  | _ => exact .inl rfl

/-- R163: only the `CHECK` step of a split decode writes `TOTAL` and `FRAGLIM`. -/
theorem Close.lengths (hc : Close i s m t) :
    (t.total = m.total ∧ t.fraglim = m.fraglim) ∨ (s.phase = .check ∧ ∃ md le n, i = splitOf md le n) := by
  cases hc with
  | failedDivis md le n _ hp hi | beginSplit md le n _ _ hp hi => exact .inr ⟨hp, md, le, n, hi⟩
  | _ => exact .inl ⟨rfl, rfl⟩

/-- R38: the latch is empty after a step that began with an empty one. -/
theorem Close.latch (hc : Close i s m t) (hl : s.latch = []) : t.latch = [] := by
  cases hc with
  | stay _ _ h | nextSplit _ _ _ _ _ h | nextChunk _ _ h => exact h hl
  | begin _ _ _ h | beginChunk _ _ h | beginSplit _ _ _ _ _ _ _ h => exact h.trans hl
  | _ => rfl

/-- R24, R210: a step goes on or succeeds with `ERRCODE` kept, or ends in `FAIL` with the code of an error. -/
theorem Close.phase_errcode (hc : Close i s m t) (hp : m.phase = s.phase) :
    (t.errcode = m.errcode ∧ (t.phase = .run ∨ t.phase = .done)) ∨
    ∃ e : Err, t.errcode = e.code ∧ t.phase = .fail := by
  cases hc with
  | stay h | nextSplit _ _ _ h | nextChunk h => exact .inl ⟨rfl, .inl (hp.trans h)⟩
  | begin | beginChunk | beginSplit => exact .inl ⟨rfl, .inl rfl⟩
  | done | doneWarn | doneName => exact .inl ⟨rfl, .inr rfl⟩
  | failed e => exact .inr ⟨e, rfl, rfl⟩
  | failedCount => exact .inr ⟨.illcmd, rfl, rfl⟩
  | failedDivis => exact .inr ⟨.divis, rfl, rfl⟩

/-- R40: where a `CHECK` step ends. -/
theorem Close.phase_of_check (hc : Close i s m t) (hp : s.phase = .check) :
    t.phase = .fail ∨ (t.phase = .done ∧ i = .fname) ∨ (t.phase = .run ∧ i ≠ .fname) := by
  cases hc with
  | stay h | nextSplit _ _ _ h | nextChunk h | done h | doneWarn h => simp [hp] at h
  | doneName _ _ _ hi => exact .inr (.inl ⟨rfl, hi⟩)
  | failed | failedCount | failedDivis => exact .inl rfl
  | begin _ hf => exact .inr (.inr ⟨rfl, hf⟩)
  | beginChunk _ hi => exact .inr (.inr ⟨rfl, by simp [hi]⟩)
  | beginSplit md le n _ _ _ hi => exact .inr (.inr ⟨rfl, hi ▸ (split_family_names md le n).1⟩)

/-- R26, R164, R182: `FIDX` stays, goes up by one in a fragment operation, or is set to 0 by the `CHECK` step of `CHUNK`. -/
theorem Close.fidx (hc : Close i s m t) :
    t.fidx = m.fidx ∨
    (t.fidx = m.fidx + 1 ∧ (i = .chunk ∨ ∃ md le n, i = splitOf md le n)) ∨
    (i = .chunk ∧ s.phase = .check ∧ t.fidx = 0) := by
  cases hc with
  | nextSplit md le n _ hi => exact .inr (.inl ⟨rfl, .inr ⟨md, le, n, hi⟩⟩)
  | nextChunk _ hi => exact .inr (.inl ⟨rfl, .inl hi⟩)
  | beginChunk hp hi => exact .inr (.inr ⟨hi, hp, rfl⟩)
  | _ => exact .inl rfl

end Sys2Proof.Machine

/-! The length of a fragment's name (R170, R173). -/

namespace Sys2Proof.Machine

/-- R173: a number below 10^(k+1) adds at most k+1 digits. -/
theorem decDigits_length_le (k : Nat) : ∀ (fuel n : Nat) (acc : List Byte), n < 10 ^ (k + 1) →
    (decDigits fuel n acc).length ≤ acc.length + (k + 1) := by
  induction k with
  | zero =>
    intro fuel n acc hn
    cases fuel with
    | zero => simp [decDigits]
    | succ fuel => simp [decDigits, show n / 10 = 0 by omega]
  | succ k ih =>
    intro fuel n acc hn
    cases fuel with
    | zero => simp [decDigits]
    | succ fuel =>
      simp only [decDigits]
      split
      · simp
      · have := ih fuel (n / 10) (BitVec.ofNat 8 (0x30 + n % 10) :: acc) (by omega)
        simp only [List.length_cons] at this
        omega

/-- R172, R173: the numeral of a 64-bit number has at most 20 digits. -/
theorem dec_length_le (v : Len) : (dec v.toNat).length ≤ 20 := by
  have h : v.toNat < 10 ^ (19 + 1) := by omega
  simpa [dec] using decDigits_length_le 19 (v.toNat.log2 + 1) v.toNat [] h

/-- R170: a fragment's name is its base name, a dash and the numeral. -/
theorem fragName_length (b : Name) (n : Nat) : (fragName b n).length = b.length + 1 + (dec n).length := by
  unfold fragName
  split
  · have := congrArg List.length (List.take_append_drop ‹Nat› b)
    simp only [List.length_append, List.length_cons] at *
    omega
  · simp only [List.length_append, List.length_cons]
    omega

end Sys2Proof.Machine

/-! The invariant over a step of an operation. -/

namespace Sys2Proof.Machine

variable {i : Instr} {s m t : State}

/-- R33: every cursor of a bound or released input stands inside its stream. -/
structure StreamsInside (s : State) : Prop where
  src : cursorInside s.src
  low : cursorInside s.low
  high : cursorInside s.high
  files : ∀ fs, s.files.shown = some fs → ∀ st ∈ fs, st.inside

theorem Inv.streamsInside (h : Inv s) : StreamsInside s := ⟨h.srcInside, h.lowInside, h.highInside, h.filesInside⟩

theorem cursorInside_unbound : cursorInside .unbound := fun _ h => by cases h

theorem cursorInside_bound {st : InStream} (h : st.inside) : cursorInside (.bound st) := fun _ e => by
  cases e
  exact h

theorem cursorInside_rewound {p : Port InStream} (h : cursorInside p) :
    cursorInside (p.mapBound InStream.rewind) := by
  cases p with
  | bound st => exact cursorInside_bound (Nat.zero_le _)
  | unbound | released st => exact h

theorem Source.open_inside (x : Source) : x.open.inside := Nat.zero_le _

/-- The stream an input access finds on a bound single port is the one the port shows. -/
theorem cursorInside.sameStream {p : Port InStream} {st st' : InStream} (h : cursorInside p)
    (hp : p.active = some st) (hs : SameStream st st') : cursorInside (.bound st') := by
  obtain rfl := Port.bound_of_active hp
  exact cursorInside_bound (hs.inside (h st rfl))

/-- The file an input access finds is one of the list bound to `FILES`. -/
theorem files_of_input {j : Nat} {st : InStream} (h : s.input (.file j) = some st) :
    ∃ fs, s.files = .bound fs ∧ fs[j]? = some st := by
  obtain ⟨fs, ha, hj⟩ := Option.bind_eq_some_iff.1 h
  exact ⟨fs, Port.bound_of_active ha, hj⟩

theorem StreamsInside.setInput {p : InSel} {st st' : InStream} (h : StreamsInside s) (hp : s.input p = some st)
    (hs : SameStream st st') : StreamsInside (s.setInput p st') := by
  cases p with
  | src => exact { h with src := h.src.sameStream hp hs }
  | low => exact { h with low := h.low.sameStream hp hs }
  | high => exact { h with high := h.high.sameStream hp hs }
  | file j =>
    obtain ⟨fs, hf, hj⟩ := files_of_input hp
    refine { h with files := fun gs hg st2 hst2 => ?_ }
    have hold : ∀ x ∈ fs, x.inside := h.files fs (by rw [hf]; rfl)
    have hgs : fs.set j st' = gs := by simpa [State.setInput, hf, Port.mapBound] using hg
    obtain hx | rfl := List.mem_or_eq_of_mem_set (hgs ▸ hst2)
    · exact hold st2 hx
    · exact hs.inside (hold st (List.mem_of_getElem? hj))

/-- An output access leaves the inputs alone. -/
theorem State.output_inputs {s2 : State} {p : OutSel} {v : List Byte} (h : s.output p v = some s2) :
    s2.src = s.src ∧ s2.low = s.low ∧ s2.high = s.high ∧ s2.files = s.files := by
  cases p with
  | frag k b =>
    cases h
    exact ⟨rfl, rfl, rfl, rfl⟩
  | tgt | lowo | higho =>
    obtain ⟨o, -, rfl⟩ := Option.map_eq_some_iff.1 h
    exact ⟨rfl, rfl, rfl, rfl⟩

theorem Work.streamsInside (hw : Work i s t) (h : StreamsInside s) : StreamsInside t := by
  cases hw with
  | input p st st' _ hp hs => exact h.setInput hp hs
  | output _ _ _ _ ho =>
    obtain ⟨h1, h2, h3, h4⟩ := State.output_inputs ho
    exact ⟨h1 ▸ h.src, h2 ▸ h.low, h3 ▸ h.high, h4 ▸ h.files⟩
  | io | latch | rem | srci | pass | fcnt | freeCtr => exact { h with }

theorem Works.streamsInside (hw : Works i s t) (h : StreamsInside s) : StreamsInside t := by
  induction hw with
  | refl => exact h
  | tail _ hw ih => exact hw.streamsInside ih

theorem StreamsInside.release (h : StreamsInside s) (u : Used) : StreamsInside (s.release u) where
  src := by simpa [cursorInside] using h.src
  low := by simpa [cursorInside] using h.low
  high := by simpa [cursorInside] using h.high
  files := by simpa using h.files

theorem Close.streamsInside (hc : Close i s m t) (h : StreamsInside m) : StreamsInside t := by
  cases hc with
  | stay | nextSplit | nextChunk | begin | beginChunk | beginSplit => exact { h with }
  | failedCount => exact { h with }
  | done | doneWarn | doneName | failed | failedDivis => exact { h.release (usedPorts i) with }

/-- R26: an operation that has ended keeps its index within the bounds. -/
theorem indexBounded.ended (h : indexBounded s) (hf : t.fidx = s.fidx) (hb : t.busy = false) : indexBounded t := by
  have hp : t.phase ≠ .check ∧ t.phase ≠ .run := by simpa [State.busy] using hb
  exact ⟨hf ▸ h.1, fun e => absurd e hp.1, fun e => absurd e hp.2⟩

/-- R26: a running operation whose index is at most 128. -/
theorem indexBounded.running (hp : t.phase = .run) (hf : t.fidx.toNat ≤ 128) : indexBounded t :=
  ⟨by omega, fun e => by simp [hp] at e, fun _ _ => hf⟩

/-- `FIDX` does not wrap within its bounds. -/
theorem index_succ_toNat {v : Len} (h : v.toNat < 255) : (v + 1).toNat = v.toNat + 1 :=
  BitVec.toNat_add_of_lt (by simp; omega)

theorem Close.indexBounded (hc : Close i s m t) (h : indexBounded s) (hd : decode s.cmd = .ok i) (hk : Kept s m) :
    indexBounded t := by
  have ⟨h254, hcheck, h128⟩ := h
  have hm : m.fidx.toNat ≤ 254 := hk.fidx ▸ h254
  cases hc with
  | stay hp =>
    exact ⟨hm, fun e => by simp [hk.phase, hp] at e, fun _ e => hk.fidx ▸ h128 hp (hk.cmd ▸ e)⟩
  | nextSplit md le n hp hi _ hn =>
    have hlt := n.isLt
    have hs := index_succ_toNat (v := m.fidx) (by omega)
    refine ⟨?_, fun e => ?_, fun _ e => ?_⟩
    · show (m.fidx + 1).toNat ≤ 254
      omega
    · have : m.phase = .check := e
      simp [hk.phase, hp] at this
    · have : decode m.cmd = .ok .chunk := e
      rw [hk.cmd, hd, hi] at this
      exact absurd (Except.ok.inj this) (split_family_names md le n).2
  | nextChunk hp hi _ hne =>
    have hle : m.fidx.toNat ≤ 128 := hk.fidx ▸ h128 hp (hi ▸ hd)
    have hs := index_succ_toNat (v := m.fidx) (by omega)
    exact .running (hk.phase.trans hp) (by show (m.fidx + 1).toNat ≤ 128; omega)
  | begin hp | beginSplit _ _ _ _ _ hp =>
    have h0 : m.fidx = 0 := hk.fidx.trans (hcheck hp)
    exact .running rfl (by show m.fidx.toNat ≤ 128; simp [h0])
  | beginChunk => exact .running rfl (Nat.zero_le _)
  | done | doneWarn | doneName | failed | failedCount | failedDivis => exact h.ended hk.fidx rfl

/-- R24: the code of an error is one of 1 to 6. -/
theorem Err.code_known (e : Err) : e.code ≠ 0 ∧ e.code.toNat ≤ 6 := by
  cases e <;> decide

/-- R24: while an operation runs, `ERRCODE` is 0. -/
theorem Inv.errcode_of_busy (h : Inv s) (hb : s.busy = true) : s.errcode = 0 := by
  rw [h.errcodeWithErr]
  rintro e
  simp [State.busy, e] at hb

/-- R23: while an operation runs, `WARN` is 0. -/
theorem Inv.warn_of_busy (h : Inv s) (hb : s.busy = true) : s.warn = false := by
  by_contra hw
  have hp := h.warnWithDone (by simpa using hw)
  simp [State.busy, hp] at hb

/-- R237, log 11: noting the moment makes it the latest. -/
theorem State.note_passedNow (s : State) :
    if s.note.busy then s.note.passed.head? = some s.note.progress else s.note.passed = [] := by
  cases hb : s.busy <;> simp [hb]

/-- A step of the command in `CMD` keeps the invariant. -/
theorem exec_keeps_inv (hi : Inv s) (hb : s.busy = true) (hd : decode s.cmd = .ok i) (h : exec i s = .next t) :
    Inv t.note := by
  obtain ⟨m, hw, hc⟩ := exec_work i hb h
  have hk := Works.kept hw
  obtain ⟨hwf, hcount⟩ := exec_fragCounted ⟨hi.fragsCanonical, hi.nfragCounts⟩ h
  have hin := hc.streamsInside (Works.streamsInside hw hi.streamsInside)
  have herr : (t.errcode = 0 ↔ t.phase ≠ .fail) ∧ t.errcode.toNat ≤ 6 := by
    obtain ⟨he, hp⟩ | ⟨e, he, hp⟩ := hc.phase_errcode hk.phase
    · rw [he, hk.errcode, hi.errcode_of_busy hb]
      rcases hp with hp | hp <;> simp [hp]
    · simpa [he, hp] using e.code_known
  obtain ⟨-, -, -, -, hbase⟩ := hc.operands
  exact {
    fragsCanonical := hwf
    nfragCounts := hcount
    srcInside := hin.src
    lowInside := hin.low
    highInside := hin.high
    filesInside := hin.files
    errcodeWithErr := herr.1
    errcodeKnown := herr.2
    warnWithDone := fun hwarn => by
      obtain he | ⟨-, hp⟩ := hc.warn
      · have hwarn : t.warn = true := hwarn
        simp [he, hk.warn, hi.warn_of_busy hb] at hwarn
      · exact hp
    latchEmpty := hc.latch hi.latchEmpty
    baseFits := fun b hbt => hi.baseFits b (by rwa [← hk.base, ← hbase])
    nameoutFits := by
      show t.nameout.length ≤ _
      obtain he | ⟨-, b, v, hbs, he⟩ := hc.nameout
      · rw [he, hk.nameout]
        exact hi.nameoutFits
      · rw [he, fragName_length]
        have := hi.baseFits b (.inl hbs)
        have := dec_length_le v
        omega
    fidxBounded := hc.indexBounded hi.fidxBounded hd hk
    passedNow := t.note_passedNow }

/-- The rejection of an illegal command keeps the invariant (R92). -/
theorem raise_illcmd_keeps_inv (hi : Inv s) (hb : s.busy = true) : Inv (raise .illcmd .none s).note :=
  { hi with
    errcodeWithErr := by simp [Err.code]
    errcodeKnown := by simp [Err.code]
    warnWithDone := fun hw => by cases (hi.warn_of_busy hb).symm.trans hw
    latchEmpty := rfl
    fidxBounded := hi.fidxBounded.ended rfl rfl
    passedNow := State.note_passedNow _ }


theorem transcoderStep_keeps_inv (hi : Inv s) (h : transcoderStep s = .next t) : Inv t := by
  obtain ⟨-, rfl⟩ | ⟨hb, i, r, hd, hr, rfl⟩ | ⟨hb, rfl⟩ := transcoderStep_next_cases h
  · exact hi
  · exact exec_keeps_inv hi hb hd hr
  · exact raise_illcmd_keeps_inv hi hb

end Sys2Proof.Machine

/-! The invariant over a move of the host. -/

namespace Sys2Proof.Machine

variable {s t : State}

theorem Inv.setHost (h : Inv s) (rest : List HostMove) : Inv (s.setHost rest) := { h with }

theorem Inv.hostRead (h : Inv s) (r : Reg) : Inv (s.hostRead r) := { h with }

theorem Inv.bindIn (h : Inv s) (p : InPort) (x : Source) : Inv (s.bindIn p x) := by
  have hx := cursorInside_bound x.open_inside
  cases p with
  | src => exact { h with srcInside := hx }
  | low => exact { h with lowInside := hx }
  | high => exact { h with highInside := hx }

theorem Inv.bindFiles (h : Inv s) (xs : List Source) : Inv (s.setFiles (.bound (xs.map Source.open))) :=
  { h with
    filesInside := fun fs hf st hst => by
      cases hf
      obtain ⟨x, -, rfl⟩ := List.mem_map.1 hst
      exact x.open_inside }

theorem Inv.bindOut (h : Inv s) (p : OutPort) (res : Name) : Inv (s.bindOut p res) := by
  cases p <;> exact { h with }

theorem Inv.unbind (h : Inv s) (p : HostPort) : Inv (s.unbind p) := by
  cases p with
  | src => exact { h with srcInside := cursorInside_unbound }
  | low => exact { h with lowInside := cursorInside_unbound }
  | high => exact { h with highInside := cursorInside_unbound }
  | files => exact { h with filesInside := fun _ hf => by cases hf }
  | tgt | lowo | higho => exact { h with }

theorem Inv.writeBase (h : Inv s) {b : Name} (hb : b.length ≤ Config.nameMax) : Inv (s.setBase (.written b)) :=
  { h with
    baseFits := fun b' e => by
      obtain e | e := e
      · cases e
        exact hb
      · cases e }

/-- R27: the start of an operation meets the invariant again, whatever the last one left. -/
theorem Inv.start (h : Inv s) (w : CmdWord) : Inv (s.start w) :=
  { h with
    fragsCanonical := rfl
    nfragCounts := rfl
    srcInside := cursorInside_rewound h.srcInside
    lowInside := cursorInside_rewound h.lowInside
    highInside := cursorInside_rewound h.highInside
    filesInside := fun fs hf st hst => by
      cases hs : s.files with
      | unbound => simp [hs, Port.mapBound, Port.shown] at hf
      | released gs => exact h.filesInside fs (by simpa [hs, Port.mapBound] using hf) st hst
      | bound gs =>
        obtain rfl : gs.map InStream.rewind = fs := by simpa [hs, Port.mapBound] using hf
        obtain ⟨x, -, rfl⟩ := List.mem_map.1 hst
        exact Nat.zero_le _
    errcodeWithErr := by simp
    errcodeKnown := Nat.zero_le _
    warnWithDone := fun e => by cases e
    latchEmpty := rfl
    fidxBounded := ⟨Nat.zero_le _, fun _ => rfl, fun e => by cases e⟩
    passedNow := rfl }

/-- R231: reset, whatever it leaves behind, meets the invariant. -/
theorem inv_resetLeaving (s r : State) : Inv (s.resetLeaving r) where
  fragsCanonical := rfl
  nfragCounts := rfl
  srcInside := cursorInside_unbound
  lowInside := cursorInside_unbound
  highInside := cursorInside_unbound
  filesInside := fun _ hf => by cases hf
  errcodeWithErr := by simp [State.reset]
  errcodeKnown := Nat.zero_le _
  warnWithDone := fun e => by cases e
  latchEmpty := rfl
  baseFits := fun b e => by
    obtain e | e := e <;> cases e
    exact Nat.zero_le _
  nameoutFits := Nat.zero_le _
  fidxBounded := ⟨Nat.zero_le _, fun e => (by cases e), fun e => (by cases e)⟩
  passedNow := rfl

/-- A move of the host keeps the invariant. -/
theorem hostMove_keeps_inv {m : HostMove} (hi : Inv s) (h : hostMove m s = .next t) : Inv t := by
  cases m with
  | writeCmd w =>
    obtain ⟨-, rfl⟩ := whenIdle_eq_next h
    exact hi.start w
  | writeLimit | writeMaxsize | writeIndex | writeReadOnly =>
    obtain ⟨-, rfl⟩ := whenIdle_eq_next h
    exact { hi with }
  | writeBase b =>
    simp only [hostMove] at h
    split at h
    · cases h
    split at h
    · cases h
      exact hi.writeBase (nameFits_iff.1 ‹_›)
    · cases h
  | bindIn p x =>
    obtain ⟨-, rfl⟩ := whenIdle_eq_next h
    exact hi.bindIn p x
  | bindFiles xs =>
    obtain ⟨-, rfl⟩ := whenIdle_eq_next h
    exact hi.bindFiles xs
  | bindOut p res =>
    obtain ⟨-, rfl⟩ := whenIdle_eq_next h
    exact hi.bindOut p res
  | bindFails p =>
    obtain ⟨-, rfl⟩ := whenIdle_eq_next h
    exact hi.unbind p
  | read r =>
    cases h
    exact hi.hostRead r
  | reset | resetInside =>
    cases h
    exact inv_resetLeaving s _
  | wait | tick =>
    cases h
    exact hi

/-- Settles O58: a step is a step of the transcoder or a move of the host, and each keeps the invariant. -/
theorem everyStepKeepsTheInvariant : Obligations.EveryStepKeepsTheInvariant := by
  intro s t hi h
  obtain ⟨r, hr, h⟩ := step_next_cases h
  have hir : Inv r := by
    obtain rfl | ⟨rest, rfl⟩ := hr
    · exact hi
    · exact hi.setHost rest
  obtain h | ⟨m, h⟩ := h
  · exact transcoderStep_keeps_inv hir h
  · exact hostMove_keeps_inv hir h

end Sys2Proof.Machine

/-! The frames of an operation: its registers, its ports, the fragments (10_state.md R25, R28, R30, R33 to R36). -/

namespace Sys2Proof.Machine

variable {i : Instr} {s m t : State}

/-- Settles O14: each way a step of the command ends is a line of the table. -/
theorem phaseMovesOnlyAsListed : Obligations.PhaseMovesOnlyAsListed := by
  intro s t hh h
  rw [step_quiet hh] at h
  obtain ⟨hb, rfl⟩ | ⟨hb, i, r, hd, hr, rfl⟩ | ⟨hb, rfl⟩ := transcoderStep_next_cases h
  · cases hp : t.phase <;> simp [phaseMoves, hp, State.busy] at hb ⊢
  · obtain ⟨m, hw, hc⟩ := exec_work i hb hr
    obtain hp | hp := busy_iff.1 hb
    · simpa [phaseMoves, hp, hd] using hc.phase_of_check hp
    · simp only [phaseMoves, hp]
      obtain ⟨-, hr⟩ | ⟨-, -, hr⟩ := hc.phase_errcode (Works.kept hw).phase
      · exact hr.imp_right .inl
      · exact .inr (.inr hr)
  · obtain hp | hp := busy_iff.1 hb <;> simp [phaseMoves, hp]

/-- Settles O54: no small update writes these registers, and the endings that do belong to the operation named. -/
theorem registersWrittenOnlyByTheirOperations : Obligations.RegistersWrittenOnlyByTheirOperations := by
  intro i s t h
  obtain rfl | ⟨m, hw, hc⟩ := exec_next_cases h
  · simp
  have hk := Works.kept hw
  obtain ⟨hcmd, hlimit, hmaxsize, hindex, hbase⟩ := hc.operands
  refine ⟨hcmd.trans hk.cmd, hlimit.trans hk.limit, hmaxsize.trans hk.maxsize, hindex.trans hk.index,
    hbase.trans hk.base, fun hi => ?_, fun hi => ?_, fun hi => ?_⟩
  · obtain e | ⟨hf, -⟩ := hc.nameout
    · exact e.trans hk.nameout
    · exact absurd hf hi
  · obtain e | ⟨hf, -⟩ := hc.warn
    · exact e.trans hk.warn
    · exact absurd hf hi
  · obtain ⟨ht, hl⟩ | ⟨hp, md, le, n, hs⟩ := hc.lengths
    · exact ⟨ht.trans hk.total, hl.trans hk.fraglim⟩
    · obtain hn | hn := hi
      · exact absurd hp hn
      · exact absurd hs (hn md le n)

/-! Ports (R33, R34, R36). -/

/-- What a step may do to a port: nothing where the operation does not use it, and `R` where it does. -/
structure PortFrame {α : Type} (R : Port α → Port α → Prop) (used : Bool) (p q : Port α) : Prop where
  unused : used = false → q = p
  related : R p q

/-- R33: the same resource, bytes and `SEEK`. -/
def SameSource (p q : Port InStream) : Prop := sourceOf q = sourceOf p
/-- R33, for every file of `FILES`. -/
def SameSources (p q : Port (List InStream)) : Prop := fileSources q = fileSources p
/-- R34: an output keeps what it held and may grow. -/
def Grows (p q : Port OutStream) : Prop := writtenTo p <+: writtenTo q

theorem SameSource.refl (p : Port InStream) : SameSource p p := rfl
theorem SameSources.refl (p : Port (List InStream)) : SameSources p p := rfl
theorem Grows.refl (p : Port OutStream) : Grows p p := List.prefix_refl _

theorem SameSource.trans {p q r : Port InStream} (h : SameSource p q) (g : SameSource q r) : SameSource p r :=
  Eq.trans g h
theorem SameSources.trans {p q r : Port (List InStream)} (h : SameSources p q) (g : SameSources q r) :
    SameSources p r :=
  Eq.trans g h
theorem Grows.trans {p q r : Port OutStream} (h : Grows p q) (g : Grows q r) : Grows p r :=
  List.IsPrefix.trans h g

theorem PortFrame.trans {α : Type} {R : Port α → Port α → Prop} {used : Bool} {p q r : Port α}
    (hR : R p q → R q r → R p r) (h : PortFrame R used p q) (g : PortFrame R used q r) : PortFrame R used p r where
  unused hu := (g.unused hu).trans (h.unused hu)
  related := hR h.related g.related

/-- A change of a port the operation uses. -/
theorem PortFrame.of_used {α : Type} {R : Port α → Port α → Prop} {used : Bool} {p q : Port α} (hu : used = true)
    (hR : R p q) : PortFrame R used p q where
  unused hn := by simp [hu] at hn
  related := hR

/-- What a step of an operation that uses the ports `u` may do to the ports. -/
structure PortsFrame (u : Used) (s t : State) : Prop where
  src : PortFrame SameSource u.src s.src t.src
  low : PortFrame SameSource u.low s.low t.low
  high : PortFrame SameSource u.high s.high t.high
  files : PortFrame SameSources u.files s.files t.files
  tgt : PortFrame Grows u.tgt s.tgt t.tgt
  lowo : PortFrame Grows u.lowo s.lowo t.lowo
  higho : PortFrame Grows u.higho s.higho t.higho

theorem PortsFrame.refl (u : Used) (s : State) : PortsFrame u s s where
  src := ⟨fun _ => rfl, .refl _⟩
  low := ⟨fun _ => rfl, .refl _⟩
  high := ⟨fun _ => rfl, .refl _⟩
  files := ⟨fun _ => rfl, .refl _⟩
  tgt := ⟨fun _ => rfl, .refl _⟩
  lowo := ⟨fun _ => rfl, .refl _⟩
  higho := ⟨fun _ => rfl, .refl _⟩

theorem PortsFrame.trans {u : Used} {s t r : State} (h : PortsFrame u s t) (g : PortsFrame u t r) :
    PortsFrame u s r where
  src := h.src.trans .trans g.src
  low := h.low.trans .trans g.low
  high := h.high.trans .trans g.high
  files := h.files.trans .trans g.files
  tgt := h.tgt.trans .trans g.tgt
  lowo := h.lowo.trans .trans g.lowo
  higho := h.higho.trans .trans g.higho

theorem sameSource_of_sameStream {p : Port InStream} {st st' : InStream} (hp : p.active = some st)
    (hs : SameStream st st') : SameSource p (.bound st') := by
  obtain rfl := Port.bound_of_active hp
  simp [SameSource, sourceOf, hs.res, hs.data, hs.seek]

/-- A replaced entry that `f` does not tell from the old one leaves the mapped list as it was. -/
theorem map_set_of_eq {α β : Type} {f : α → β} {l : List α} {j : Nat} {a b : α} (ha : l[j]? = some a)
    (hf : f b = f a) : (l.set j b).map f = l.map f := by
  obtain ⟨hlt, rfl⟩ := List.getElem?_eq_some_iff.1 ha
  have hself := List.set_getElem_self (as := l.map f) (i := j) (by simpa using hlt)
  rwa [List.getElem_map, ← hf, ← List.map_set] at hself

/-- R33: moving the cursor of one file leaves every file's source. -/
theorem sameSources_set {fs : List InStream} {j : Nat} {st st' : InStream} (hj : fs[j]? = some st)
    (hs : SameStream st st') : SameSources (.bound fs) (.bound (fs.set j st')) :=
  congrArg some (map_set_of_eq hj (by simp only [hs.res, hs.data, hs.seek]))

theorem State.setInput_portsFrame {u : Used} {p : InSel} {st st' : InStream} (hu : usesIn u p = true)
    (hp : s.input p = some st) (hs : SameStream st st') : PortsFrame u s (s.setInput p st') := by
  cases p with
  | src => exact { PortsFrame.refl u s with src := .of_used hu (sameSource_of_sameStream hp hs) }
  | low => exact { PortsFrame.refl u s with low := .of_used hu (sameSource_of_sameStream hp hs) }
  | high => exact { PortsFrame.refl u s with high := .of_used hu (sameSource_of_sameStream hp hs) }
  | file j =>
    obtain ⟨fs, hf, hj⟩ := files_of_input hp
    refine { PortsFrame.refl u s with files := .of_used hu ?_ }
    simpa [State.setInput, hf, Port.mapBound] using sameSources_set hj hs

theorem grows_append {p : Port OutStream} {o : OutStream} (v : List Byte) (hp : p.active = some o) :
    Grows p (.bound (o.append v)) := by
  obtain rfl := Port.bound_of_active hp
  exact List.prefix_append o.out v

theorem State.output_portsFrame {s2 : State} {p : OutSel} {v : List Byte} (hu : usesOut i s p)
    (h : s.output p v = some s2) : PortsFrame (usedPorts i) s s2 := by
  cases p with
  | frag k b =>
    cases h
    exact { PortsFrame.refl _ s with }
  | tgt =>
    obtain ⟨o, ho, rfl⟩ := Option.map_eq_some_iff.1 h
    exact { PortsFrame.refl _ s with tgt := .of_used hu (grows_append v ho) }
  | lowo =>
    obtain ⟨o, ho, rfl⟩ := Option.map_eq_some_iff.1 h
    exact { PortsFrame.refl _ s with lowo := .of_used hu (grows_append v ho) }
  | higho =>
    obtain ⟨o, ho, rfl⟩ := Option.map_eq_some_iff.1 h
    exact { PortsFrame.refl _ s with higho := .of_used hu (grows_append v ho) }

theorem Work.portsFrame (h : Work i s t) : PortsFrame (usedPorts i) s t := by
  cases h with
  | input p st st' hu hp hs => exact State.setInput_portsFrame hu hp hs
  | output _ p v hu ho => exact State.output_portsFrame hu ho
  | io | latch | rem | srci | pass | fcnt | freeCtr => exact { PortsFrame.refl _ s with }

theorem Works.portsFrame (h : Works i s t) : PortsFrame (usedPorts i) s t := by
  induction h with
  | refl => exact .refl _ s
  | tail _ h ih => exact ih.trans h.portsFrame

/-- R36: the release of a stream touches only a used port, and leaves what the port shows. -/
theorem PortFrame.release {α : Type} {R : Port α → Port α → Prop} (used : Bool) (p : Port α)
    (hR : ∀ q : Port α, q.shown = p.shown → R p q) : PortFrame R used p (p.releaseIf used) where
  unused hu := by simp [hu]
  related := hR _ (Port.shown_releaseIf used p)

theorem State.release_portsFrame (u : Used) (s : State) : PortsFrame u s (s.release u) where
  src := .release _ _ fun q h => by simp [SameSource, sourceOf, h]
  low := .release _ _ fun q h => by simp [SameSource, sourceOf, h]
  high := .release _ _ fun q h => by simp [SameSource, sourceOf, h]
  files := .release _ _ fun q h => by simp [SameSources, fileSources, h]
  tgt := .release _ _ fun q h => by simp [Grows, writtenTo, h]
  lowo := .release _ _ fun q h => by simp [Grows, writtenTo, h]
  higho := .release _ _ fun q h => by simp [Grows, writtenTo, h]

theorem Close.portsFrame (hc : Close i s m t) : PortsFrame (usedPorts i) m t := by
  cases hc with
  | stay | nextSplit | nextChunk | begin | beginChunk | beginSplit | failedCount =>
    exact { PortsFrame.refl _ m with }
  | done | doneWarn | doneName | failed | failedDivis => exact { State.release_portsFrame (usedPorts i) m with }

theorem exec_portsFrame (h : exec i s = .next t) : PortsFrame (usedPorts i) s t := by
  obtain rfl | ⟨m, hw, hc⟩ := exec_next_cases h
  · exact .refl _ t
  · exact (Works.portsFrame hw).trans hc.portsFrame

/-- Settles O55: the frame of a step is the frames of its small updates and of its ending. -/
theorem portsTouchedOnlyByTheirOperations : Obligations.PortsTouchedOnlyByTheirOperations := by
  intro i s t h
  obtain ⟨hsrc, hlow, hhigh, hfiles, htgt, hlowo, hhigho⟩ := exec_portsFrame h
  exact ⟨hsrc.unused, hlow.unused, hhigh.unused, hfiles.unused, htgt.unused, hlowo.unused, hhigho.unused,
    htgt.related, hlowo.related, hhigho.related, hsrc.related, hlow.related, hhigh.related, hfiles.related⟩

/-! Fragments (R35, R160). -/

/-- Every fragment of `fs` is in `gs` under its index and name, its bytes only added to, and only the one of index `k` may differ. -/
def FragsGrow (k : Nat) (fs gs : FragStore) : Prop :=
  ∀ f ∈ fs, ∃ f' ∈ gs, f'.index = f.index ∧ f'.name = f.name ∧ f.bytes <+: f'.bytes ∧ (f.index ≠ k → f' = f)

theorem FragsGrow.refl (k : Nat) (fs : FragStore) : FragsGrow k fs fs :=
  fun f hf => ⟨f, hf, rfl, rfl, List.prefix_refl _, fun _ => rfl⟩

theorem FragsGrow.trans {k : Nat} {fs gs hs : FragStore} (h : FragsGrow k fs gs) (g : FragsGrow k gs hs) :
    FragsGrow k fs hs := by
  intro f hf
  obtain ⟨f1, hm1, hi1, hn1, hb1, he1⟩ := h f hf
  obtain ⟨f2, hm2, hi2, hn2, hb2, he2⟩ := g f1 hm1
  exact ⟨f2, hm2, hi2.trans hi1, hn2.trans hn1, hb1.trans hb2, fun hk => (he2 (hi1 ▸ hk)).trans (he1 hk)⟩

theorem Work.fragsGrow (h : Work i s t) : FragsGrow s.fidx.toNat s.frags t.frags := by
  cases h with
  | input p st st' _ _ _ => cases p <;> exact .refl _ _
  | output _ p v hu ho =>
    obtain ⟨k, b, rfl, rfl⟩ | ⟨hf, -⟩ := State.output_frags ho
    · obtain ⟨-, rfl, -⟩ := hu
      exact fun f hf => FragStore.append_keeps _ _ v hf
    · exact hf ▸ .refl _ _
  | io | latch | rem | srci | pass | fcnt | freeCtr => exact .refl _ _

theorem Works.fragsGrow (h : Works i s t) : FragsGrow s.fidx.toNat s.frags t.frags := by
  induction h with
  | refl => exact .refl _ _
  | tail hw h ih => exact ih.trans ((Works.kept hw).fidx ▸ h.fragsGrow)

/-- R160: an operation that writes no fragment leaves the store alone. -/
theorem Work.frags_of_not_writes (h : Work i s t) (hn : writesFrags i = false) :
    t.frags = s.frags ∧ t.nfrag = s.nfrag := by
  cases h with
  | input p st st' _ _ _ => cases p <;> exact ⟨rfl, rfl⟩
  | output _ p v hu ho =>
    obtain ⟨k, b, rfl, rfl⟩ | hf := State.output_frags ho
    · cases hn.symm.trans hu.1
    · exact hf
  | io | latch | rem | srci | pass | fcnt | freeCtr => exact ⟨rfl, rfl⟩

theorem Works.frags_of_not_writes (h : Works i s t) (hn : writesFrags i = false) :
    t.frags = s.frags ∧ t.nfrag = s.nfrag := by
  induction h with
  | refl => exact ⟨rfl, rfl⟩
  | tail _ h ih =>
    obtain ⟨hf, hc⟩ := h.frags_of_not_writes hn
    exact ⟨hf.trans ih.1, hc.trans ih.2⟩

/-- The operations that write fragments are `CHUNK` and the split decodes. -/
theorem writesFrags_false (hc : i ≠ .chunk) (hs : ∀ m le n, i ≠ splitOf m le n) : writesFrags i = false := by
  cases i with
  | splitDec16 le n => exact absurd rfl (hs .w16 le n)
  | splitDec32 le n => exact absurd rfl (hs .w32 le n)
  | splitDec8 le n => exact absurd rfl (hs .w8 le n)
  | chunk => exact absurd rfl hc
  | dec16 | dec32 | dec8 | enc16 | enc32 | enc8 | fname => rfl

/-- Settles O56: every small update appends to the fragment `FIDX` names, and the endings only move `FIDX`. -/
theorem fragmentsOnlyGrow : Obligations.FragmentsOnlyGrow := by
  intro i s t h
  obtain rfl | ⟨m, hw, hc⟩ := exec_next_cases h
  · exact ⟨FragsGrow.refl _ _, .inl rfl, fun _ => ⟨rfl, rfl, rfl⟩⟩
  have hk := (Works.kept hw).fidx
  have hidx := hc.fidx
  rw [hk] at hidx
  obtain ⟨hfrags, hnfrag⟩ := hc.frags
  refine ⟨hfrags ▸ Works.fragsGrow hw, ?_, fun ⟨hch, hsp⟩ => ?_⟩
  · obtain e | ⟨e, -⟩ | e := hidx
    · exact .inl e
    · exact .inr (.inl e)
    · exact .inr (.inr e)
  · obtain ⟨hf, hn⟩ := Works.frags_of_not_writes hw (writesFrags_false hch hsp)
    refine ⟨hfrags.trans hf, hnfrag.trans hn, ?_⟩
    obtain e | ⟨-, hi | ⟨md, le, n, hi⟩⟩ | ⟨hi, -⟩ := hidx
    · exact e
    · exact absurd hi hch
    · exact absurd hi (hsp md le n)
    · exact absurd hi hch

end Sys2Proof.Machine

/-! ERR_IO of an unbound port (R36, R205 (2)). -/

namespace Sys2Proof.Machine

variable {i : Instr} {s : State}

/-- R205 (2): with no refusal condition, an unbound used port ends the `CHECK` step. -/
theorem checkPorts_unbound {refusal : Option Refusal} {u : Used} (k : Result) (hr : refusal = none)
    (hb : s.portsBound u = false) : checkPorts refusal u s k = .next (raise .io u s) := by
  simp [checkPorts, hr, hb]

/-- R121, R61: a written, aligned budget, or none asked for, is no ground for refusal. -/
theorem State.budgetRefusal_none {m : Mode} {lim : Bool} (hw : lim = true → s.limit.isWritten = true)
    (ha : LimitAligned m lim s) : s.budgetRefusal m lim = none := by
  cases lim with
  | false => rfl
  | true =>
    obtain ⟨v, hv⟩ := Operand.eq_written (hw rfl)
    simp [State.budgetRefusal, hv, ha rfl v hv]

/-- A decode with no refusal condition and an unbound port raises `ERR_IO`. -/
theorem checkDec_unbound {m : Mode} {lim : Bool} (hw : lim = true → s.limit.isWritten = true)
    (ha : LimitAligned m lim s) (hl : s.laneRefusal m = none) (hp : s.portRefusal (decUsed m) = none)
    (hb : s.portsBound (decUsed m) = false) : checkDec m lim s = .next (raise .io (decUsed m) s) :=
  checkPorts_unbound _ (by simp [State.decRefusal, State.budgetRefusal_none hw ha, hl, hp]) hb

theorem checkEnc_unbound {m : Mode} {dup : Bool} (hd : dup = true → s.seekable (encUsed m) = true)
    (hp : s.portRefusal (encUsed m) = none) (hb : s.portsBound (encUsed m) = false) :
    checkEnc m dup s = .next (raise .io (encUsed m) s) :=
  checkPorts_unbound _ (by cases dup <;> simp_all [State.encRefusal, State.dupRefusal]) hb

theorem checkSplit_unbound {m : Mode} {n : BitVec 8} (hn : n ≠ 0) (hw : s.base.isWritten = true)
    (hp : s.portRefusal (splitUsed m) = none) (hb : s.portsBound (splitUsed m) = false) :
    checkSplit m n s = .next (raise .io (splitUsed m) s) := by
  obtain ⟨b, hbase⟩ := Operand.eq_written hw
  simp only [checkSplit, hn, if_false, hbase]
  exact checkPorts_unbound _ hp hb

/-- With `SRC` unbound no fragment of a chunk would be made, so none is named like a resource. -/
theorem State.chunkAlias_of_unbound (b : Name) (size : Nat) (h : s.src.isBound = false) :
    s.chunkAlias b size = false := by
  have ha : s.src.active = none := by
    cases hs : s.src <;> simp_all [Port.active, Port.isBound]
  simp [State.chunkAlias, ha]

theorem checkChunk_unbound (hw : s.base.isWritten = true) (hm : s.maxsize.isWritten = true)
    (hp : s.portRefusal chunkUsed = none) (hb : s.portsBound chunkUsed = false) :
    checkChunk s = .next (raise .io chunkUsed s) := by
  obtain ⟨b, hbase⟩ := Operand.eq_written hw
  obtain ⟨size, hsize⟩ := Operand.eq_written hm
  have hsrc : s.src.isBound = false := by simpa [State.portsBound, chunkUsed, Used.none] using hb
  simp only [checkChunk, hbase, hsize, State.chunkAlias_of_unbound b size.toNat hsrc, Bool.false_eq_true, if_false]
  exact checkPorts_unbound _ hp hb

/-- Where no refusal condition holds, the `CHECK` step of an operation with an unbound port is the error entry. -/
theorem exec_unbound (hwf : i.wf = true) (hc : s.phase = .check) (hw : OperandsWritten i s) (hl : LimitFits i s)
    (hs : LanesSeekable i s) (hd : DupRewindable i s) (hp : s.portRefusal (usedPorts i) = none)
    (hb : s.portsBound (usedPorts i) = false) : exec i s = .next (raise .io (usedPorts i) s) := by
  cases i with
  | dec16 le lim => exact (stepDec_check _ _ _ hc).trans (checkDec_unbound hw hl rfl hp hb)
  | dec32 le lim | dec8 le lim =>
    exact (stepDec_check _ _ _ hc).trans (checkDec_unbound hw hl (if_pos hs) hp hb)
  | enc16 le dup | enc32 le dup | enc8 le dup => exact (stepEnc_check _ _ _ hc).trans (checkEnc_unbound hd hp hb)
  | splitDec16 le n | splitDec32 le n | splitDec8 le n =>
    exact (stepSplit_check _ _ _ hc).trans (checkSplit_unbound (by simpa [Instr.wf] using hwf) hw hp hb)
  | fname => cases hb
  | chunk => exact (execChunk_check hc).trans (checkChunk_unbound hw.1 hw.2 hp hb)

@[simp] theorem writtenTo_releaseIf (b : Bool) (p : Port OutStream) : writtenTo (p.releaseIf b) = writtenTo p := by
  simp [writtenTo]

/-- Settles O16: with no refusal condition every CHECK step comes to R205 (2), whose error entry touches no output. -/
theorem unboundPortRaisesIo : Obligations.UnboundPortRaisesIo := by
  intro i s hwf hc hw hl hs hd ha hf hb
  refine ⟨_, exec_unbound hwf hc hw hl hs hd (State.portRefusal_none ha hf) hb, rfl, rfl, rfl, ?_⟩
  simp [raise_eq]

end Sys2Proof.Machine

/-! The host's writes, the status bits, and the step of a placed command. -/

namespace Sys2Proof.Machine

variable {s : State}

/-- R27, R34: the start of an operation empties an output. -/
theorem writtenTo_emptied (p : Port OutStream) : writtenTo (p.map fun o => { o with out := [] }) = [] := by
  cases p <;> rfl

/-- Settles O7: the move is the start of the operation, of which each clause is one field. -/
theorem cmdWriteStartsOperation : Obligations.CmdWriteStartsOperation := by
  intro s w rest hh hb
  refine ⟨(s.setHost rest).start w, ?_, ?_⟩
  · rw [step_hostMove hh (by simp) (by simp)]
    exact whenIdle_of_idle hb _
  · exact ⟨rfl, rfl, rfl, rfl, rfl, rfl, rfl, rfl, rfl, rfl, rfl, rfl,
      writtenTo_emptied s.tgt, writtenTo_emptied s.lowo, writtenTo_emptied s.higho,
      fun _ e => congrArg (Port.mapBound InStream.rewind) e, fun _ e => congrArg (Port.mapBound InStream.rewind) e,
      fun _ e => congrArg (Port.mapBound InStream.rewind) e,
      fun _ e => congrArg (Port.mapBound (List.map InStream.rewind)) e, rfl, rfl, rfl, rfl, rfl, rfl, rfl, rfl⟩

/-- Settles O10: with `BUSY` = 0 the move at the head of the list is made, and each is one field's update. -/
theorem operandWritesAreKept : Obligations.OperandWritesAreKept := by
  intro s rest hb
  have idle : ∀ r : State, whenIdle (s.setHost rest) r = .next r := whenIdle_of_idle hb
  refine ⟨fun _ => idle _, fun _ => idle _, fun _ => idle _, fun b hlen => ?_, fun _ => idle _, fun _ => idle _,
    fun _ => idle _, fun _ => idle _, fun _ => idle _, fun _ => idle _, fun _ => idle _, fun _ => idle _, idle _,
    idle _, idle _, idle _, idle _, idle _, idle _⟩
  have hb' : ({ s with host := rest } : State).busy = false := hb
  show hostMove (.writeBase b) { s with host := rest } = _
  simp only [hostMove, hb', nameFits_iff.2 hlen, Bool.false_eq_true, if_false, if_true]
  rfl

/-- R23: `STATUS`, one flag after the other. -/
theorem State.status_eq_concat (s : State) :
    s.status = (((((0#28).concat s.warn).concat s.errFlag).concat s.doneFlag).concat s.busy) := rfl

/-- R29: `PORTATTR`, one bit after the other. -/
theorem State.portattr_eq_concat (s : State) :
    s.portattr = ((BitVec.ofBool s.high.seekBit).concat s.low.seekBit).concat s.src.seekBit := rfl

@[simp] theorem Port.seekBit_bound (st : InStream) : (Port.bound st).seekBit = st.seek := rfl
@[simp] theorem Port.seekBit_unbound : (Port.unbound : Port InStream).seekBit = false := rfl

/-- Settles O12: the bits of the two words, one by one. -/
theorem statusAndPortattrBits : Obligations.StatusAndPortattrBits := by
  intro s
  have hstatus : s.status.toNat < 16 := by
    have hw := s.warn.toNat_lt
    have he := s.errFlag.toNat_lt
    have hd := s.doneFlag.toNat_lt
    have hb := s.busy.toNat_lt
    simp only [State.status_eq_concat, BitVec.toNat_concat, BitVec.toNat_ofNat]
    omega
  have hport : s.portattr.getLsbD 0 = s.src.seekBit ∧ s.portattr.getLsbD 1 = s.low.seekBit ∧
      s.portattr.getLsbD 2 = s.high.seekBit := by
    simp [State.portattr_eq_concat, BitVec.getLsbD_concat, -BitVec.getLsbD_eq_getElem]
  obtain ⟨h0, h1, h2⟩ := hport
  refine ⟨?_, ?_, ?_, ?_, hstatus, ?_⟩
  · simp only [State.status_eq_concat, BitVec.getLsbD_concat]
    exact busy_iff
  · simp [State.status_eq_concat, BitVec.getLsbD_concat, State.doneFlag, -BitVec.getLsbD_eq_getElem]
  · simp [State.status_eq_concat, BitVec.getLsbD_concat, State.errFlag, -BitVec.getLsbD_eq_getElem]
  · simp [State.status_eq_concat, BitVec.getLsbD_concat, -BitVec.getLsbD_eq_getElem]
  · rw [h0, h1, h2]
    simp +contextual

/-- R87 to R95: the word of a well-formed instruction decodes to it. -/
theorem decode_encode {i : Instr} (h : i.wf = true) : decode (encode i) = .ok i := by
  cases i with
  | dec16 | dec32 | dec8 => simp [encode, decode, decodeDec]
  | enc16 | enc32 | enc8 => simp [encode, decode, decodeEnc]
  | splitDec16 le n | splitDec32 le n | splitDec8 le n =>
    have hn : ¬ n = 0#8 := by simpa [Instr.wf] using h
    simp [encode, decode, decodeSplit, hn]
  | fname | chunk => decide

/-- Log 2: the word of an instruction, placed, is the next step's command at the state the `CMD` write makes. -/
theorem step_withFetchWord (s : State) (w : CmdWord) :
    step (s.withFetchWord 32 w.toNat) = passTick (s.start w) (transcoderStep (s.start w)) := by
  have hw : BitVec.ofNat 32 (w.toNat % 2 ^ 32) = w := by
    rw [Nat.mod_eq_of_lt w.isLt, BitVec.ofNat_toNat, BitVec.setWidth_eq]
  simp only [State.withFetchWord, hw]
  rfl

/-- Settles O13: the transcoder's step decodes `CMD` and runs it; a placed word is the command of the next step. -/
theorem stepRunsDecodedCommand : Obligations.StepRunsDecodedCommand := by
  refine ⟨fun s i hh hb hd => ?_, fun s i hwf => ?_, fun s hh hb => step_of_idle hh hb⟩
  · rw [step_quiet hh, transcoderStep_ok hb hd]
    refine ⟨fun t h => ?_, fun f h => ?_, fun r h => ?_⟩ <;> rw [h] <;> rfl
  · rw [step_withFetchWord, transcoderStep_ok (s := s.start (encode i)) rfl (decode_encode hwf)]
    refine ⟨fun t h => ?_, fun f h => ?_, fun r h => ?_⟩ <;> rw [h] <;> rfl

end Sys2Proof.Machine

/-! The refusals of a shared resource (R69, R240): on two ports, or between a fragment and a port. -/

namespace Sys2Proof.Machine

variable {i : Instr} {s : State} {m : Mode} {n : BitVec 8} {u : Used} {r : Refusal}

/-- R205, last sentence: a refusal condition ends the `CHECK` step before its checks (log 5). -/
theorem checkPorts_refused {refusal : Option Refusal} (k : Result) (hr : refusal = some r) :
    checkPorts refusal u s k = .refused r := by
  simp [checkPorts, hr]

theorem State.portRefusal_alias (ha : s.portAlias u = true) : s.portRefusal u = some .portAlias := by
  simp [State.portRefusal, ha]

theorem State.portAlias_none (s : State) : s.portAlias .none = false := rfl

/-- With its budget in order, a decode is refused for what its ports are refused for (log 28). -/
theorem State.decRefusal_of_port {lim : Bool} (hw : lim = true → s.limit.isWritten = true) (ha : LimitAligned m lim s)
    (hp : s.portRefusal (decUsed m) = some r) : s.decRefusal m lim = some r := by
  simp [State.decRefusal, State.budgetRefusal_none hw ha, hp]

theorem State.dupRefusal_none {dup : Bool} (hd : dup = true → s.seekable (encUsed m) = true) :
    s.dupRefusal m dup = none := by
  cases dup with
  | false => rfl
  | true => simp [State.dupRefusal, hd rfl]

/-- With its files rewindable, an encode is refused for what its ports are refused for (log 28). -/
theorem State.encRefusal_of_port {dup : Bool} (hd : dup = true → s.seekable (encUsed m) = true)
    (hp : s.portRefusal (encUsed m) = some r) : s.encRefusal m dup = some r := by
  simp [State.encRefusal, State.dupRefusal_none hd, hp]

/-- R162: with a legal count and `BASE` written, the port checks of a split decode come next. -/
theorem checkSplit_of_written {b : Name} (hn : n ≠ 0) (hb : s.base = .written b) :
    checkSplit m n s = checkPorts (s.portRefusal (splitUsed m)) (splitUsed m) s
      (if s.seekable (splitUsed m) then splitTotal m s (splitDivide m n b)
        else .next (raise .noseek (splitUsed m) s)) := by
  simp only [checkSplit, if_neg hn, hb]

theorem checkSplit_refused (hn : n ≠ 0) (hw : s.base.isWritten = true)
    (hp : s.portRefusal (splitUsed m) = some r) : checkSplit m n s = .refused r := by
  obtain ⟨b, hb⟩ := Operand.eq_written hw
  rw [checkSplit_of_written hn hb]
  exact checkPorts_refused _ hp

theorem checkChunk_fragAlias {b : Name} {size : Len} (hb : s.base = .written b) (hs : s.maxsize = .written size)
    (ha : s.chunkAlias b size.toNat = true) : checkChunk s = .refused .portAlias := by
  simp only [checkChunk, hb, hs, if_pos ha]

/-- Whichever of the two comparisons of a chunk finds the resource, the refusal is the same. -/
theorem checkChunk_portAlias (hw : s.base.isWritten = true) (hm : s.maxsize.isWritten = true)
    (ha : s.portAlias chunkUsed = true) : checkChunk s = .refused .portAlias := by
  obtain ⟨b, hb⟩ := Operand.eq_written hw
  obtain ⟨size, hs⟩ := Operand.eq_written hm
  by_cases hf : s.chunkAlias b size.toNat = true
  · exact checkChunk_fragAlias hb hs hf
  · simp only [checkChunk, hb, hs, if_neg hf]
    exact checkPorts_refused _ (State.portRefusal_alias ha)

/-- R69: one resource on two ports of an operation whose earlier refusal conditions do not hold (log 28). -/
theorem exec_portAlias (hwf : i.wf = true) (hc : s.phase = .check) (hw : OperandsWritten i s) (hl : LimitFits i s)
    (hd : DupRewindable i s) (ha : s.portAlias (usedPorts i) = true) : exec i s = .refused .portAlias := by
  have hp := State.portRefusal_alias ha
  cases i with
  | dec16 le lim | dec32 le lim | dec8 le lim =>
    exact (stepDec_check _ _ _ hc).trans (checkPorts_refused _ (State.decRefusal_of_port hw hl hp))
  | enc16 le dup | enc32 le dup | enc8 le dup =>
    exact (stepEnc_check _ _ _ hc).trans (checkPorts_refused _ (State.encRefusal_of_port hd hp))
  | splitDec16 le n | splitDec32 le n | splitDec8 le n =>
    exact (stepSplit_check _ _ _ hc).trans (checkSplit_refused (by simpa [Instr.wf] using hwf) hw hp)
  | fname => exact absurd (s.portAlias_none.symm.trans ha) (by decide)
  | chunk => exact (execChunk_check hc).trans (checkChunk_portAlias hw.1 hw.2 ha)

/-! The checks of a split decode that come before its fragments' names (R162). -/

/-- The inputs of a split decode whose ports are bound: `SRC`, or the two lanes (R89). -/
theorem splitPorts_cases (hb : s.portsBound (splitUsed m) = true) :
    (m = .w16 ∧ ∃ st, s.src = .bound st) ∨ (m ≠ .w16 ∧ ∃ l g, s.low = .bound l ∧ s.high = .bound g) := by
  cases m with
  | w16 => exact .inl ⟨rfl, Port.bound_of_isBound (by simpa [State.portsBound, splitUsed, Used.none] using hb)⟩
  | w32 | w8 =>
    have hlg : s.low.isBound = true ∧ s.high.isBound = true := by
      simpa [State.portsBound, splitUsed, Used.none] using hb
    obtain ⟨l, hl⟩ := Port.bound_of_isBound hlg.1
    obtain ⟨g, hg⟩ := Port.bound_of_isBound hlg.2
    exact .inr ⟨by decide, l, g, hl, hg⟩

theorem usedInputs_split_w16 {st : InStream} (hs : s.src = .bound st) :
    (s.usedInputs (splitUsed .w16)).flatten = [st] := by
  simp [State.usedInputs, splitUsed, Used.none, pick, hs]

theorem usedInputs_split_dual (hm : m ≠ .w16) {l g : InStream} (hl : s.low = .bound l) (hg : s.high = .bound g) :
    (s.usedInputs (splitUsed m)).flatten = [l, g] := by
  cases m with
  | w16 => exact absurd rfl hm
  | w32 | w8 => simp [State.usedInputs, splitUsed, Used.none, pick, hl, hg]

/-- R163: the total of a split decode of one stream. -/
theorem splitLength_w16 {st : InStream} (hs : s.src = .bound st) : splitLength .w16 s = st.data.length := by
  simp [splitLength, usedInputs_split_w16 hs]

/-- R163: the total of a dual-lane split decode counts both lanes. -/
theorem splitLength_dual (hm : m ≠ .w16) {l g : InStream} (hl : s.low = .bound l) (hg : s.high = .bound g) :
    splitLength m s = l.data.length + g.data.length := by
  simp [splitLength, usedInputs_split_dual hm hl hg]

/-- R120, R162 (4): equally long lanes that can be probed pass the lane-length check. -/
theorem checkLanes_served {l g : InStream} (k : Nat → State → Result) (hio : s.ioFaults = [])
    (hl : s.low = .bound l) (hg : s.high = .bound g) (hlk : l.seek = true) (hgk : g.seek = true)
    (he : l.data.length = g.data.length) : checkLanes u s k = k (l.data.length + g.data.length) s := by
  simp only [checkLanes, memLen_served hio (p := .low) (by simp [State.input, hl]) hlk,
    memLen_served hio (p := .high) (by simp [State.input, hg]) hgk, Access.andThen_ok, if_pos he]

/-- R163: on bound, probed inputs of matching lengths, the total of R162 is `splitLength`. -/
theorem splitTotal_served (k : Nat → State → Result) (hio : s.ioFaults = []) (hb : s.portsBound (splitUsed m) = true)
    (hk : s.seekable (splitUsed m) = true) (he : m ≠ .w16 → (bytesOf s.low).length = (bytesOf s.high).length) :
    splitTotal m s k = k (splitLength m s) s := by
  obtain ⟨rfl, st, hs⟩ | ⟨hm, l, g, hl, hg⟩ := splitPorts_cases hb
  · have hst : st.seek = true := by simpa [State.seekable, usedInputs_split_w16 hs] using hk
    simp [splitTotal, splitLength_w16 hs,
      memLen_served hio (p := .src) (by simp [State.input, hs]) hst]
  · have hlg : l.seek = true ∧ g.seek = true := by simpa [State.seekable, usedInputs_split_dual hm hl hg] using hk
    have hlen : l.data.length = g.data.length := by simpa [bytesOf, hl, hg] using he hm
    have hlanes : splitTotal m s k = checkLanes (splitUsed m) s k := by
      cases m with
      | w16 => exact absurd rfl hm
      | w32 | w8 => rfl
    rw [hlanes, checkLanes_served k hio hl hg hlg.1 hlg.2 hlen, splitLength_dual hm hl hg]

/-- R235 LengthsFit: two lanes below 2^63 bytes have a total that `TOTAL` holds. -/
theorem splitLength_lt (hb : s.portsBound (splitUsed m) = true) (hf : s.lengthsFit (splitUsed m) = true) :
    splitLength m s < 2 ^ 64 := by
  obtain ⟨rfl, st, hs⟩ | ⟨hm, l, g, hl, hg⟩ := splitPorts_cases hb
  · have hst : st.data.length < Config.lengthBound := by simpa [State.lengthsFit, usedInputs_split_w16 hs] using hf
    simp only [splitLength_w16 hs, Config.lengthBound] at *
    omega
  · have hlg : l.data.length < Config.lengthBound ∧ g.data.length < Config.lengthBound := by
      simpa [State.lengthsFit, usedInputs_split_dual hm hl hg] using hf
    simp only [splitLength_dual hm hl hg, Config.lengthBound] at *
    omega

/-- R162: with the earlier checks of a split decode passed, its total is divided among the fragments. -/
theorem checkSplit_passed {b : Name} (hn : n ≠ 0) (hbase : s.base = .written b)
    (hp : s.portRefusal (splitUsed m) = none) (hio : s.ioFaults = []) (hb : s.portsBound (splitUsed m) = true)
    (hk : s.seekable (splitUsed m) = true) (he : m ≠ .w16 → (bytesOf s.low).length = (bytesOf s.high).length) :
    checkSplit m n s = splitDivide m n b (splitLength m s) s := by
  rw [checkSplit_of_written hn hbase, checkPorts_passed _ hp hb, if_pos hk]
  exact splitTotal_served _ hio hb hk he

/-- R240: a positive, aligned share of the total makes fragments, whose names are compared (log 8). -/
theorem splitDivide_fragAlias {b : Name} {total : Nat} (hn : n ≠ 0) (h0 : 0 < total) (hlt : total < 2 ^ 64)
    (hdiv : total % n.toNat = 0) (hal : total / n.toNat % m.flatUnit = 0)
    (ha : s.fragAlias (splitUsed m) b n.toNat = true) : splitDivide m n b total s = .refused .portAlias := by
  have hshare : (BitVec.ofNat 64 (total / n.toNat)).toNat = total / n.toNat := by
    rw [BitVec.toNat_ofNat, Nat.mod_eq_of_lt (lt_of_le_of_lt (Nat.div_le_self _ _) hlt)]
  have hpos : 0 < total / n.toNat :=
    Nat.div_pos (Nat.le_of_dvd h0 (Nat.dvd_of_mod_eq_zero hdiv))
      (Nat.pos_of_ne_zero fun h => hn (BitVec.eq_of_toNat_eq h))
  have hne : BitVec.ofNat 64 (total / n.toNat) ≠ 0 := fun h => by
    rw [h] at hshare
    exact absurd hshare hpos.ne
  rw [splitDivide, if_pos hdiv, State.beginSplit, if_pos]
  simp only [State.splitAlias, State.setFraglim_fraglim, hshare, hal, bne_iff_ne.2 hne, beq_self_eq_true, Bool.true_and]
  exact ha

/-- Settles O18: two ports with one resource are found by the port refusal, a fragment named like a resource by the comparison of its family. -/
theorem sharedResourceRefused : Obligations.SharedResourceRefused := by
  refine ⟨fun i s hwf hc hw hl hd ha => exec_portAlias hwf hc hw hl hd ha,
    fun s b size hc hb hs ha => (execChunk_check hc).trans (checkChunk_fragAlias hb hs ha),
    fun m le n s b hn hc hio hb hf hp hk he h0 hdiv hal ha => ?_⟩
  rw [exec_splitOf, stepSplit_check m le n hc]
  cases hpa : s.portAlias (splitUsed m) with
  | true => exact checkSplit_refused hn (by rw [hb]; rfl) (State.portRefusal_alias hpa)
  | false =>
    rw [checkSplit_passed hn hb (State.portRefusal_none hpa hf) hio hp hk he]
    exact splitDivide_fragAlias hn h0 (splitLength_lt hp hf) hdiv hal ha

end Sys2Proof.Machine

/-! A decode that ends by a short read (R60, R122), and a budget that is no multiple of the unit (R61). -/

namespace Sys2Proof.Machine

variable {s : State} {m : Mode}

/-- R122: the free cursor lies between where the lane stood and the end of its stream. -/
theorem unspecCursor_between {st : InStream} (c : Nat) (h : st.pos ≤ st.data.length) :
    st.pos ≤ (unspecCursor c st).pos ∧ (unspecCursor c st).pos ≤ st.data.length := by
  have hmod := Nat.mod_lt (Config.freeCursor c) (show 0 < st.data.length - st.pos + 1 by omega)
  simp only [unspecCursor]
  omega

/-- R60: a short read ends the run of a decode. -/
theorem runDec_exhausted {le lim : Bool} {s1 : State} (hrem : lim = true → s.rem ≠ 0)
    (hr : readUnit m le s = .ok false s1) :
    runDec m le lim s = .next (finish (decUsed m) ((s1.setLatch []).freeCursors m s)) := by
  simp only [runDec, decodeIter_exhausted hrem hr, Access.andThen_ok]

theorem runDec_short_w16 {le lim : Bool} {st : InStream} (hio : s.ioFaults = []) (hs : s.src = .bound st)
    (hrem : lim = true → s.rem ≠ 0) (hn : st.data.length < st.pos + 2) :
    runDec .w16 le lim s = .next { (s.release (decUsed .w16)) with
      src := .released (unspecCursor s.freeCtr st), phase := .done, latch := [], freeCtr := s.freeCtr + 1 } := by
  rw [runDec_exhausted hrem (readUnit_w16_short le hio hs hn)]
  simp [finish_eq, State.freeCursors, hs, Port.map, decUsed, Used.none]

theorem runDec_short_dual (hm : m ≠ .w16) {le lim : Bool} {l g : InStream} (hio : s.ioFaults = [])
    (hl : s.low = .bound l) (hg : s.high = .bound g) (hrem : lim = true → s.rem ≠ 0)
    (hn : l.data.length < l.pos + m.laneUnit ∨ g.data.length < g.pos + m.laneUnit) :
    runDec m le lim s = .next { (s.release (decUsed m)) with
      low := .released (unspecCursor s.freeCtr l), high := .released (unspecCursor (s.freeCtr + 1) g)
      phase := .done, latch := [], freeCtr := s.freeCtr + 2 } := by
  rw [runDec_exhausted hrem (readUnit_dual_short hm le hio hl hg hn)]
  cases m with
  | w16 => exact absurd rfl hm
  | w32 | w8 => simp [finish_eq, State.freeCursors, hl, hg, Port.map, decUsed, Used.none]

/-- Settles O26: the whole state after the short step; its free cursors are in R122's range. -/
theorem shortReadEndsDecode : Obligations.ShortReadEndsDecode := by
  refine ⟨fun le lim s st hc hio hs hrem hin hn => ?_, fun m le lim s l h hm hc hio hl hh hrem hlin hhin hn => ?_⟩
  · obtain ⟨hlo, hhi⟩ := unspecCursor_between s.freeCtr hin
    exact ⟨_, _, (stepDec_run _ _ _ hc).trans (runDec_short_w16 hio hs hrem hn), rfl, rfl, rfl,
      writtenTo_releaseIf (decUsed .w16).tgt s.tgt, rfl, hlo, hhi⟩
  · obtain ⟨hllo, hlhi⟩ := unspecCursor_between s.freeCtr hlin
    obtain ⟨hhlo, hhhi⟩ := unspecCursor_between (s.freeCtr + 1) hhin
    exact ⟨_, _, _, (exec_decodeOp m le lim s).trans
      ((stepDec_run _ _ _ hc).trans (runDec_short_dual hm hio hl hh hrem hn)), rfl, rfl, rfl,
      writtenTo_releaseIf (decUsed m).tgt s.tgt, rfl, hllo, hlhi, rfl, hhlo, hhhi⟩

theorem State.decRefusal_misaligned {v : Len} (hv : s.limit = .written v) (ha : v.toNat % m.flatUnit ≠ 0) :
    s.decRefusal m true = some .limitNotUnitMultiple := by
  simp [State.decRefusal, State.budgetRefusal, hv, ha]

theorem runSplit_misaligned {le : Bool} {n : BitVec 8} {b : Name} (hb : s.base = .written b)
    (ha : s.fraglim.toNat % m.flatUnit ≠ 0) : runSplit m le n s = .refused .limitNotUnitMultiple := by
  simp only [runSplit, hb, if_neg ha]

/-- Settles O25: `LIMIT` is the first refusal condition of a decode; a split decode meets its own in the run. -/
theorem misalignedBudgetRefused : Obligations.MisalignedBudgetRefused := by
  refine ⟨fun m le s v hc hv ha => ?_, fun m le n s b hc hb ha => ?_⟩
  · rw [exec_decodeOp, stepDec_check m le true hc]
    exact checkPorts_refused _ (State.decRefusal_misaligned hv ha)
  · rw [exec_splitOf, stepSplit_run m le n hc]
    exact runSplit_misaligned hb ha

end Sys2Proof.Machine

/-! The encoding: decoding against the encoder, against the opcode map, and the number of legal words (30_encoding.md). -/

namespace Sys2Proof.Machine

variable {c : CmdWord} {i : Instr}

/-- Settles O1: eleven closed words. -/
theorem writtenWordsDecode : Obligations.WrittenWordsDecode := by
  unfold Obligations.WrittenWordsDecode
  decide

/-- Settles O2: the fields of a packed word are those it was packed from. -/
theorem decodeOfEncodeGivesBack : Obligations.DecodeOfEncodeGivesBack := fun _ h => decode_encode h

/-- Settles O6: the step of an illegal command is the error entry, which releases no port, and its moment noted. -/
theorem illegalCommandRaisesIllcmd : Obligations.IllegalCommandRaisesIllcmd := by
  intro s e hh hp hd
  have hb : s.busy = true := busy_iff.2 (.inl hp)
  rw [step_quiet hh, transcoderStep_error hb hd]
  rfl

/-! The operations by class and mode: three families and two single words. -/

/-- R82: the `MODE` field of a word mode. -/
def Mode.field : Mode → BitVec 2
  | .w16 => 0
  | .w32 => 1
  | .w8 => 2

/-- R82: a `MODE` field other than 3 is a mode's. -/
theorem exists_mode_of_ne_three {b : BitVec 2} (hb : b ≠ 3) : ∃ m : Mode, b = m.field := by
  have hcases : b = 0 ∨ b = 1 ∨ b = 2 := by revert b; decide
  obtain rfl | rfl | rfl := hcases
  · exact ⟨.w16, rfl⟩
  · exact ⟨.w32, rfl⟩
  · exact ⟨.w8, rfl⟩

theorem encode_decodeOp (m : Mode) (le lim : Bool) :
    encode (decodeOp m le lim) = packWord 0 lim false le m.field 1 := by
  cases m <;> rfl

theorem encode_encOf (m : Mode) (le dup : Bool) :
    encode (encOf m le dup) = packWord 0 false dup le m.field 2 := by
  cases m <;> rfl

theorem encode_splitOf (m : Mode) (le : Bool) (n : BitVec 8) :
    encode (splitOf m le n) = packWord n false false le m.field 3 := by
  cases m <;> rfl

@[simp] theorem wf_decodeOp (m : Mode) (le lim : Bool) : (decodeOp m le lim).wf = true := by
  cases m <;> rfl

@[simp] theorem wf_encOf (m : Mode) (le dup : Bool) : (encOf m le dup).wf = true := by
  cases m <;> rfl

@[simp] theorem wf_splitOf (m : Mode) (le : Bool) (n : BitVec 8) : (splitOf m le n).wf = (n != 0) := by
  cases m <;> rfl

/-! What each class decodes to (R95 (4) to (7)). -/

theorem decodeDec_ok (h : decodeDec c = .ok i) :
    fieldDup c = false ∧ fieldFragcount c = 0 ∧
      ∃ m : Mode, fieldMode c = m.field ∧ i = decodeOp m (fieldLe c) (fieldLim c) := by
  unfold decodeDec at h
  split at h
  · cases h
  next hmode =>
    obtain ⟨m, hm⟩ := exists_mode_of_ne_three hmode
    split at h
    · cases h
    next hunused =>
      obtain ⟨hdup, hcount⟩ : fieldDup c = false ∧ fieldFragcount c = 0 := by simpa using hunused
      refine ⟨hdup, hcount, m, hm, ?_⟩
      cases m <;> simpa [hm, Mode.field, decodeOp, eq_comm] using h

theorem decodeEnc_ok (h : decodeEnc c = .ok i) :
    fieldLim c = false ∧ fieldFragcount c = 0 ∧
      ∃ m : Mode, fieldMode c = m.field ∧ i = encOf m (fieldLe c) (fieldDup c) := by
  unfold decodeEnc at h
  split at h
  · cases h
  next hmode =>
    obtain ⟨m, hm⟩ := exists_mode_of_ne_three hmode
    split at h
    · cases h
    next hunused =>
      obtain ⟨hlim, hcount⟩ : fieldLim c = false ∧ fieldFragcount c = 0 := by simpa using hunused
      refine ⟨hlim, hcount, m, hm, ?_⟩
      cases m <;> simpa [hm, Mode.field, encOf, eq_comm] using h

theorem decodeSplit_ok (h : decodeSplit c = .ok i) :
    fieldDup c = false ∧ fieldLim c = false ∧ fieldFragcount c ≠ 0 ∧
      ∃ m : Mode, fieldMode c = m.field ∧ i = splitOf m (fieldLe c) (fieldFragcount c) := by
  unfold decodeSplit at h
  split at h
  · cases h
  next hmode =>
    obtain ⟨m, hm⟩ := exists_mode_of_ne_three hmode
    split at h
    · cases h
    next hunused =>
      obtain ⟨hdup, hlim⟩ : fieldDup c = false ∧ fieldLim c = false := by simpa using hunused
      split at h
      · cases h
      next hcount =>
        refine ⟨hdup, hlim, hcount, m, hm, ?_⟩
        cases m <;> simpa [hm, Mode.field, splitOf, eq_comm] using h

theorem decodeWhole_ok {whole : CmdWord} {j : Instr} (h : decodeWhole c whole j = .ok i) : c = whole ∧ i = j := by
  unfold decodeWhole at h
  split at h
  · cases h
  · split at h
    next hc => exact ⟨hc, by simpa [eq_comm] using h⟩
    · cases h

/-- R95: a legal word has clear reserved fields, and one of the five classes decodes it. -/
theorem decode_ok (h : decode c = .ok i) :
    fieldRsv1 c = 0 ∧ fieldRsv0 c = 0 ∧
      ((fieldOpc c = 1 ∧ decodeDec c = .ok i) ∨ (fieldOpc c = 2 ∧ decodeEnc c = .ok i) ∨
       (fieldOpc c = 3 ∧ decodeSplit c = .ok i) ∨ decodeWhole c 4 .fname = .ok i ∨
       decodeWhole c 5 .chunk = .ok i) := by
  unfold decode at h
  split at h
  · cases h
  next hrsv =>
    obtain ⟨h1, h0⟩ : fieldRsv1 c = 0 ∧ fieldRsv0 c = 0 := by simpa using hrsv
    refine ⟨h1, h0, ?_⟩
    split at h
    next ho => exact .inl ⟨ho, h⟩
    split at h
    next ho => exact .inr (.inl ⟨ho, h⟩)
    split at h
    next ho => exact .inr (.inr (.inl ⟨ho, h⟩))
    split at h
    · exact .inr (.inr (.inr (.inl h)))
    split at h
    · exact .inr (.inr (.inr (.inr h)))
    · cases h

/-- Settles O3: class by class, the word is packed from its fields and those the operation does not use are 0. -/
theorem legalWordsAreEncodings : Obligations.LegalWordsAreEncodings := by
  intro c i h
  obtain ⟨h1, h0, hclass⟩ := decode_ok h
  have hpack := packWord_fields c h1 h0
  obtain ⟨ho, hd⟩ | ⟨ho, hd⟩ | ⟨ho, hd⟩ | hd | hd := hclass
  · obtain ⟨hdup, hcount, m, hm, rfl⟩ := decodeDec_ok hd
    rw [hcount, hdup, hm, ho] at hpack
    exact ⟨wf_decodeOp .., (encode_decodeOp ..).trans hpack⟩
  · obtain ⟨hlim, hcount, m, hm, rfl⟩ := decodeEnc_ok hd
    rw [hcount, hlim, hm, ho] at hpack
    exact ⟨wf_encOf .., (encode_encOf ..).trans hpack⟩
  · obtain ⟨hdup, hlim, hcount, m, hm, rfl⟩ := decodeSplit_ok hd
    rw [hdup, hlim, hm, ho] at hpack
    exact ⟨by simpa using hcount, (encode_splitOf ..).trans hpack⟩
  · obtain ⟨rfl, rfl⟩ := decodeWhole_ok hd
    decide
  · obtain ⟨rfl, rfl⟩ := decodeWhole_ok hd
    decide

/-- R95: the legal words are the words of the well-formed instructions. -/
theorem decodes_iff_encodes : (∃ i, decode c = .ok i) ↔ ∃ i, i.wf = true ∧ encode i = c :=
  ⟨fun ⟨i, h⟩ => ⟨i, legalWordsAreEncodings c i h⟩, fun ⟨i, hwf, hc⟩ => ⟨i, hc ▸ decode_encode hwf⟩⟩

/-! The opcode map (R90). -/

/-- A field that a mask holds whole is fixed by the masked word. -/
theorem extractLsb'_of_masked {w mask : CmdWord} {k n : Nat} (h : c &&& mask = w)
    (hmask : mask.extractLsb' k n = BitVec.allOnes n) : c.extractLsb' k n = w.extractLsb' k n := by
  rw [← h, BitVec.extractLsb'_and, hmask, BitVec.and_allOnes]

/-- A bit that a mask holds is fixed by the masked word. -/
theorem getLsbD_of_masked {w mask : CmdWord} {k : Nat} (h : c &&& mask = w) (hmask : mask.getLsbD k = true) :
    c.getLsbD k = w.getLsbD k := by
  rw [← h, BitVec.getLsbD_and, hmask, Bool.and_true]

/-! R90: the instructions of one class and mode share a row, whatever their other fields. -/

theorem mnemonic_decodeOp (m : Mode) (le lim : Bool) :
    (decodeOp m le lim).mnemonic = (decodeOp m false false).mnemonic := by
  cases m <;> rfl

theorem mnemonic_encOf (m : Mode) (le dup : Bool) :
    (encOf m le dup).mnemonic = (encOf m false false).mnemonic := by
  cases m <;> rfl

theorem mnemonic_splitOf (m : Mode) (le : Bool) (n : BitVec 8) :
    (splitOf m le n).mnemonic = (splitOf m false 0).mnemonic := by
  cases m <;> rfl

/-- R90: the row selects only words that decode to its operation. -/
def SelectsOnlyItsOwn (r : OpcodeRow) : Prop :=
  ∀ c, r.selects c = true → ∃ i, decode c = .ok i ∧ i.mnemonic = r.mnemonic

theorem selects_iff {r : OpcodeRow} :
    r.selects c = true ↔ c &&& r.mask = r.matchBits ∧ (r.needsCount = true → fieldFragcount c ≠ 0) := by
  cases hr : r.needsCount <;> simp [OpcodeRow.selects, hr]

/-- R90: a mask that holds the reserved fields, `MODE` and `OPC` leaves only the other fields of the word open. -/
theorem eq_packWord_of_masked {mask : CmdWord} {n : BitVec 8} {lim dup le : Bool} {mode : BitVec 2} {opc : BitVec 4}
    (h : c &&& mask = packWord n lim dup le mode opc)
    (hmask : fieldRsv1 mask = .allOnes 8 ∧ fieldRsv0 mask = .allOnes 7 ∧ fieldMode mask = .allOnes 2 ∧
      fieldOpc mask = .allOnes 4) :
    c = packWord (fieldFragcount c) (fieldLim c) (fieldDup c) (fieldLe c) mode opc := by
  obtain ⟨m1, m0, mmode, mopc⟩ := hmask
  have h1 : fieldRsv1 c = 0 := (extractLsb'_of_masked h m1).trans (fieldRsv1_packWord ..)
  have h0 : fieldRsv0 c = 0 := (extractLsb'_of_masked h m0).trans (fieldRsv0_packWord ..)
  have hmode : fieldMode c = mode := (extractLsb'_of_masked h mmode).trans (fieldMode_packWord ..)
  have hopc : fieldOpc c = opc := (extractLsb'_of_masked h mopc).trans (fieldOpc_packWord ..)
  rw [← hmode, ← hopc, packWord_fields c h1 h0]

theorem decRow_selectsOnlyItsOwn (m : Mode) : SelectsOnlyItsOwn
    ⟨(decodeOp m false false).mnemonic, encode (decodeOp m false false), 0xFFFFFEBF, false⟩ := by
  intro c h
  have h : c &&& 0xFFFFFEBF = packWord 0 false false false m.field 1 :=
    (selects_iff.1 h).1.trans (encode_decodeOp ..)
  have hdup : fieldDup c = false := (getLsbD_of_masked h (by decide)).trans (fieldDup_packWord ..)
  have hcount : fieldFragcount c = 0 := (extractLsb'_of_masked h (by decide)).trans (fieldFragcount_packWord ..)
  have hc := eq_packWord_of_masked h (by decide)
  rw [hdup, hcount, ← encode_decodeOp] at hc
  exact ⟨_, (congrArg decode hc).trans (decode_encode (wf_decodeOp ..)), mnemonic_decodeOp ..⟩

theorem encRow_selectsOnlyItsOwn (m : Mode) : SelectsOnlyItsOwn
    ⟨(encOf m false false).mnemonic, encode (encOf m false false), 0xFFFFFF3F, false⟩ := by
  intro c h
  have h : c &&& 0xFFFFFF3F = packWord 0 false false false m.field 2 :=
    (selects_iff.1 h).1.trans (encode_encOf ..)
  have hlim : fieldLim c = false := (getLsbD_of_masked h (by decide)).trans (fieldLim_packWord ..)
  have hcount : fieldFragcount c = 0 := (extractLsb'_of_masked h (by decide)).trans (fieldFragcount_packWord ..)
  have hc := eq_packWord_of_masked h (by decide)
  rw [hlim, hcount, ← encode_encOf] at hc
  exact ⟨_, (congrArg decode hc).trans (decode_encode (wf_encOf ..)), mnemonic_encOf ..⟩

theorem splitRow_selectsOnlyItsOwn (m : Mode) : SelectsOnlyItsOwn
    ⟨(splitOf m false 0).mnemonic, encode (splitOf m false 0), 0xFF00FFBF, true⟩ := by
  intro c h
  obtain ⟨h, hcount⟩ := selects_iff.1 h
  have h : c &&& 0xFF00FFBF = packWord 0 false false false m.field 3 := h.trans (encode_splitOf ..)
  have hdup : fieldDup c = false := (getLsbD_of_masked h (by decide)).trans (fieldDup_packWord ..)
  have hlim : fieldLim c = false := (getLsbD_of_masked h (by decide)).trans (fieldLim_packWord ..)
  have hc := eq_packWord_of_masked h (by decide)
  rw [hdup, hlim, ← encode_splitOf] at hc
  exact ⟨_, (congrArg decode hc).trans (decode_encode (by simpa using hcount rfl)), mnemonic_splitOf ..⟩

/-- A row whose mask is every bit selects its own word alone. -/
theorem wholeRow_selectsOnlyItsOwn {j : Instr} (hwf : j.wf = true) :
    SelectsOnlyItsOwn ⟨j.mnemonic, encode j, .allOnes 32, false⟩ := by
  intro c h
  have hc : c = encode j := BitVec.and_allOnes.symm.trans (selects_iff.1 h).1
  exact ⟨j, hc ▸ decode_encode hwf, rfl⟩

theorem opcodeRows_selectOnlyTheirOwn : ∀ r ∈ opcodeRows, SelectsOnlyItsOwn r := by
  simp only [opcodeRows, List.cons_append, List.nil_append, List.forall_mem_cons]
  exact ⟨decRow_selectsOnlyItsOwn .w16, decRow_selectsOnlyItsOwn .w32, decRow_selectsOnlyItsOwn .w8,
    encRow_selectsOnlyItsOwn .w16, encRow_selectsOnlyItsOwn .w32, encRow_selectsOnlyItsOwn .w8,
    splitRow_selectsOnlyItsOwn .w16, splitRow_selectsOnlyItsOwn .w32, splitRow_selectsOnlyItsOwn .w8,
    wholeRow_selectsOnlyItsOwn (j := .fname) rfl, wholeRow_selectsOnlyItsOwn (j := .chunk) rfl, by simp⟩

/-- R90: the row named like an instruction selects its word. -/
theorem rowMatch (i : Instr) : Laws.RowMatch.Statement i := by
  cases i with
  | dec16 => exact Laws.RowMatch.dec16 _ _
  | dec32 => exact Laws.RowMatch.dec32 _ _
  | dec8 => exact Laws.RowMatch.dec8 _ _
  | enc16 => exact Laws.RowMatch.enc16 _ _
  | enc32 => exact Laws.RowMatch.enc32 _ _
  | enc8 => exact Laws.RowMatch.enc8 _ _
  | splitDec16 => exact Laws.RowMatch.splitDec16 _ _
  | splitDec32 => exact Laws.RowMatch.splitDec32 _ _
  | splitDec8 => exact Laws.RowMatch.splitDec8 _ _
  | fname => exact Laws.RowMatch.fname
  | chunk => exact Laws.RowMatch.chunk

/-- R90: no two rows carry one mnemonic. -/
theorem opcodeRow_eq_of_mnemonic :
    ∀ r ∈ opcodeRows, ∀ r' ∈ opcodeRows, r.mnemonic = r'.mnemonic → r = r' := by
  decide

/-- Settles O4: a row's masked fields make the word an encoding; a word that decodes is selected by the one row of its mnemonic. -/
theorem opcodeMapSelectsWhatDecodes : Obligations.OpcodeMapSelectsWhatDecodes := by
  intro c r hr
  refine ⟨opcodeRows_selectOnlyTheirOwn r hr c, ?_⟩
  rintro ⟨i, hd, hname⟩
  obtain ⟨hwf, rfl⟩ := legalWordsAreEncodings c i hd
  obtain ⟨r', hr', hname', hsel⟩ := rowMatch i hwf
  rwa [opcodeRow_eq_of_mnemonic r hr r' hr' (hname.symm.trans hname'.symm)]

/-! The number of legal words (R95). -/

/-- R82: the three word modes. -/
def allModes : List Mode := [.w16, .w32, .w8]

/-- The values of a one-bit field. -/
def flagValues : List Bool := [false, true]

/-- R88: the counts 1 to 255. -/
def fragcounts : List (BitVec 8) := (List.range' 1 255).map (BitVec.ofNat 8)

/-- R95 (4): the decodes. -/
def decInstrs : List Instr := (allModes ×ˢ flagValues ×ˢ flagValues).map fun p => decodeOp p.1 p.2.1 p.2.2

/-- R95 (5): the encodes. -/
def encInstrs : List Instr := (allModes ×ˢ flagValues ×ˢ flagValues).map fun p => encOf p.1 p.2.1 p.2.2

/-- R95 (6): the split decodes with a count. -/
def splitInstrs : List Instr := (allModes ×ˢ flagValues ×ˢ fragcounts).map fun p => splitOf p.1 p.2.1 p.2.2

/-- R95: the well-formed instructions, class by class. -/
def wfInstrs : List Instr := decInstrs ++ (encInstrs ++ (splitInstrs ++ [.fname, .chunk]))

/-- R95: 12 + 12 + 3 × 2 × 255 + 1 + 1. -/
theorem length_wfInstrs : wfInstrs.length = 1556 := by
  simp [wfInstrs, decInstrs, encInstrs, splitInstrs, allModes, flagValues, fragcounts]

theorem mem_allModes (m : Mode) : m ∈ allModes := by cases m <;> decide

theorem mem_flagValues (b : Bool) : b ∈ flagValues := by cases b <;> decide

theorem mem_fragcounts {n : BitVec 8} : n ∈ fragcounts ↔ n ≠ 0 := by
  simp only [fragcounts, List.mem_map, List.mem_range'_1]
  constructor
  · rintro ⟨k, hk, rfl⟩
    bv_omega
  · intro hn
    exact ⟨n.toNat, by bv_omega, BitVec.ofNat_toNat ..⟩

theorem mem_decInstrs : i ∈ decInstrs ↔ ∃ m le lim, decodeOp m le lim = i := by
  simp only [decInstrs, List.mem_map, Prod.exists, List.mem_product, mem_allModes, mem_flagValues, true_and]

theorem mem_encInstrs : i ∈ encInstrs ↔ ∃ m le dup, encOf m le dup = i := by
  simp only [encInstrs, List.mem_map, Prod.exists, List.mem_product, mem_allModes, mem_flagValues, true_and]

theorem mem_splitInstrs : i ∈ splitInstrs ↔ ∃ m le n, n ≠ 0 ∧ splitOf m le n = i := by
  simp only [splitInstrs, List.mem_map, Prod.exists, List.mem_product, mem_allModes, mem_flagValues, mem_fragcounts,
    true_and]

theorem mem_wfInstrs_iff : i ∈ wfInstrs ↔
    (∃ m le lim, decodeOp m le lim = i) ∨ (∃ m le dup, encOf m le dup = i) ∨
      (∃ m le n, n ≠ 0 ∧ splitOf m le n = i) ∨ i = .fname ∨ i = .chunk := by
  simp only [wfInstrs, List.mem_append, mem_decInstrs, mem_encInstrs, mem_splitInstrs, List.mem_cons,
    List.not_mem_nil, or_false]

/-- R95: the list holds the well-formed instructions and no other. -/
theorem mem_wfInstrs : i ∈ wfInstrs ↔ i.wf = true := by
  rw [mem_wfInstrs_iff]
  constructor
  · rintro (⟨m, le, lim, rfl⟩ | ⟨m, le, dup, rfl⟩ | ⟨m, le, n, hn, rfl⟩ | rfl | rfl)
    · exact wf_decodeOp ..
    · exact wf_encOf ..
    · simpa using hn
    · rfl
    · rfl
  · intro hwf
    cases i with
    | dec16 le lim => exact .inl ⟨.w16, le, lim, rfl⟩
    | dec32 le lim => exact .inl ⟨.w32, le, lim, rfl⟩
    | dec8 le lim => exact .inl ⟨.w8, le, lim, rfl⟩
    | enc16 le dup => exact .inr (.inl ⟨.w16, le, dup, rfl⟩)
    | enc32 le dup => exact .inr (.inl ⟨.w32, le, dup, rfl⟩)
    | enc8 le dup => exact .inr (.inl ⟨.w8, le, dup, rfl⟩)
    | splitDec16 le n => exact .inr (.inr (.inl ⟨.w16, le, n, by simpa [Instr.wf] using hwf, rfl⟩))
    | splitDec32 le n => exact .inr (.inr (.inl ⟨.w32, le, n, by simpa [Instr.wf] using hwf, rfl⟩))
    | splitDec8 le n => exact .inr (.inr (.inl ⟨.w8, le, n, by simpa [Instr.wf] using hwf, rfl⟩))
    | fname | chunk => simp

theorem nodup_fragcounts : fragcounts.Nodup := by
  refine List.Nodup.map_on (fun j hj k hk h => ?_) List.nodup_range'
  rw [List.mem_range'_1] at hj hk
  bv_omega

theorem nodup_decInstrs : decInstrs.Nodup := by decide

theorem nodup_encInstrs : encInstrs.Nodup := by decide

theorem splitOf_injective : Function.Injective fun p : Mode × Bool × BitVec 8 => splitOf p.1 p.2.1 p.2.2 := by
  rintro ⟨m, le, n⟩ ⟨m', le', n'⟩ h
  cases m <;> cases m' <;> simp_all [splitOf]

theorem nodup_splitInstrs : splitInstrs.Nodup :=
  have hfields : (flagValues ×ˢ fragcounts).Nodup := List.Nodup.product (by decide) nodup_fragcounts
  (List.Nodup.product (by decide) hfields).map splitOf_injective

/-- R81: lists of instructions that `OPC` tells apart. -/
theorem nodup_append_of_fieldOpc {l k : List Instr} {o : BitVec 4} (hl : l.Nodup) (hk : k.Nodup)
    (ho : ∀ i ∈ l, fieldOpc (encode i) = o) (hne : ∀ i ∈ k, fieldOpc (encode i) ≠ o) : (l ++ k).Nodup :=
  hl.append hk fun i hil hik => hne i hik (ho i hil)

theorem fieldOpc_of_mem_decInstrs : ∀ i ∈ decInstrs, fieldOpc (encode i) = 1 := by
  simp only [mem_decInstrs]
  rintro _ ⟨m, le, lim, rfl⟩
  rw [encode_decodeOp, fieldOpc_packWord]

theorem fieldOpc_of_mem_encInstrs : ∀ i ∈ encInstrs, fieldOpc (encode i) = 2 := by
  simp only [mem_encInstrs]
  rintro _ ⟨m, le, dup, rfl⟩
  rw [encode_encOf, fieldOpc_packWord]

theorem fieldOpc_of_mem_splitInstrs : ∀ i ∈ splitInstrs, fieldOpc (encode i) = 3 := by
  simp only [mem_splitInstrs]
  rintro _ ⟨m, le, n, -, rfl⟩
  rw [encode_splitOf, fieldOpc_packWord]

theorem nodup_wfInstrs : wfInstrs.Nodup := by
  refine nodup_append_of_fieldOpc nodup_decInstrs (nodup_append_of_fieldOpc nodup_encInstrs
    (nodup_append_of_fieldOpc nodup_splitInstrs (by decide) fieldOpc_of_mem_splitInstrs ?_)
    fieldOpc_of_mem_encInstrs ?_) fieldOpc_of_mem_decInstrs ?_
  · decide
  · exact List.forall_mem_append.2 ⟨fun i hi => by simp [fieldOpc_of_mem_splitInstrs i hi], by decide⟩
  · exact List.forall_mem_append.2 ⟨fun i hi => by simp [fieldOpc_of_mem_encInstrs i hi],
      List.forall_mem_append.2 ⟨fun i hi => by simp [fieldOpc_of_mem_splitInstrs i hi], by decide⟩⟩

/-- R95: two well-formed instructions have two words. -/
theorem eq_of_encode_eq {j : Instr} (hi : i.wf = true) (hj : j.wf = true) (h : encode i = encode j) : i = j := by
  simpa [decode_encode hi, decode_encode hj] using congrArg decode h

/-- Settles O5: the words of the well-formed instructions, listed class by class. -/
theorem legalWordsNumber1556 : Obligations.LegalWordsNumber1556 := by
  refine ⟨wfInstrs.map encode, ?_, ?_, fun c => ?_⟩
  · exact nodup_wfInstrs.map_on fun i hi j hj => eq_of_encode_eq (mem_wfInstrs.1 hi) (mem_wfInstrs.1 hj)
  · rw [List.length_map, length_wfInstrs]
  · simp only [List.mem_map, mem_wfInstrs, decodes_iff_encodes]

end Sys2Proof.Machine

/-! One RUN step of a decode, in any mode: a unit moved, or a used-up budget (40_decode.md R110, R111, R114, R117). -/

namespace Sys2Proof.Machine

variable {s : State} {m : Mode}

/-! What one RUN step reads (R60, R62). -/

/-- R33: a port with bytes left is bound, and its cursor has that room. -/
theorem bound_of_le_restOf {p : Port InStream} {n : Nat} (hn : 0 < n) (h : n ≤ (restOf p).length) :
    ∃ st, p = .bound st ∧ st.pos + n ≤ st.data.length := by
  cases p with
  | bound st =>
    simp only [restOf, Port.active_bound, List.length_drop] at h
    exact ⟨st, rfl, by omega⟩
  | unbound | released => exact absurd h (by simpa [restOf, Port.active] using hn.ne')

@[simp] theorem restOf_bound (st : InStream) : restOf (.bound st) = st.data.drop st.pos := rfl

/-- R60: the streams a decode of mode `m` reads stand bound, each with a whole lane unit left. -/
theorem unitThere_w16 : unitThere .w16 s ↔ ∃ st, s.src = .bound st ∧ st.pos + 2 ≤ st.data.length := by
  refine ⟨bound_of_le_restOf (by decide), fun ⟨st, hs, hn⟩ => ?_⟩
  simp only [unitThere, hs, restOf_bound, List.length_drop]
  omega

theorem unitThere_dual (hm : m ≠ .w16) : unitThere m s ↔
    (∃ l, s.low = .bound l ∧ l.pos + m.laneUnit ≤ l.data.length) ∧
      ∃ g, s.high = .bound g ∧ g.pos + m.laneUnit ≤ g.data.length := by
  have hu : unitThere m s ↔ m.laneUnit ≤ (restOf s.low).length ∧ m.laneUnit ≤ (restOf s.high).length := by
    cases m with
    | w16 => exact absurd rfl hm
    | w32 | w8 => exact Iff.rfl
  rw [hu]
  refine ⟨fun h => ⟨bound_of_le_restOf m.laneUnit_pos h.1, bound_of_le_restOf m.laneUnit_pos h.2⟩, ?_⟩
  rintro ⟨⟨l, hl, hn⟩, g, hg, hk⟩
  simp only [hl, hg, restOf_bound, List.length_drop]
  omega

/-- R62: every input cursor of a decode of mode `m` moved on by one lane unit. -/
def State.readOn (s : State) (m : Mode) : State :=
  match m with
  | .w16 => s.setSrc (s.src.map (·.advance 2))
  | .w32 | .w8 => (s.setLow (s.low.map (·.advance m.laneUnit))).setHigh (s.high.map (·.advance m.laneUnit))

/-- R62: reading on writes the input ports and nothing else. -/
theorem State.readOn_eq (s : State) (m : Mode) :
    s.readOn m = { s with src := (s.readOn m).src, low := (s.readOn m).low, high := (s.readOn m).high } := by
  cases m <;> rfl

@[simp] theorem State.readOn_ioFaults : (s.readOn m).ioFaults = s.ioFaults := by rw [State.readOn_eq]
@[simp] theorem State.readOn_tgt : (s.readOn m).tgt = s.tgt := by rw [State.readOn_eq]

/-- R110: the budget's drop as one record update. -/
theorem State.spend_eq (s : State) (m : Mode) (lim : Bool) :
    s.spend m lim = { s with rem := if lim then s.rem - BitVec.ofNat 64 m.flatUnit else s.rem } := by
  cases lim <;> rfl

/-- R57: the flat bytes of a unit depend only on what stands from its first byte on. -/
theorem flatUnitAt_drop (m : Mode) (le : Bool) (f g : List Byte) (k : Nat) :
    flatUnitAt m le (f.drop (m.laneUnit * k)) (g.drop (m.laneUnit * k)) 0 = flatUnitAt m le f g k := by
  cases m <;> simp [flatUnitAt, Mode.laneUnit, List.getD_eq_getElem?_getD]

theorem State.readOn_w16 {st : InStream} (hs : s.src = .bound st) (hn : st.pos + 2 ≤ st.data.length) :
    s.readOn .w16 = s.setSrc (.bound { st with pos := st.pos + 2 }) := by
  simp only [State.readOn, hs, Port.map, InStream.advance_full hn]

theorem State.readOn_dual (hm : m ≠ .w16) {l g : InStream} (hl : s.low = .bound l) (hg : s.high = .bound g)
    (hn : l.pos + m.laneUnit ≤ l.data.length) (hk : g.pos + m.laneUnit ≤ g.data.length) :
    s.readOn m = (s.setLow (.bound { l with pos := l.pos + m.laneUnit })).setHigh
      (.bound { g with pos := g.pos + m.laneUnit }) := by
  cases m with
  | w16 => exact absurd rfl hm
  | w32 | w8 => simp only [State.readOn, hl, hg, Port.map, InStream.advance_full hn, InStream.advance_full hk]

/-! R57, decode: the bytes of the next unit, written out. -/

theorem nextUnit_w16 (le : Bool) {st : InStream} (hs : s.src = .bound st) :
    nextUnit .w16 le s = if le then [st.data.getD st.pos 0, st.data.getD (st.pos + 1) 0]
      else [st.data.getD (st.pos + 1) 0, st.data.getD st.pos 0] := by
  cases le <;> simp [nextUnit, flatUnitAt, corr, hs, List.getD_eq_getElem?_getD]

theorem nextUnit_w32 (le : Bool) {l h : InStream} (hl : s.low = .bound l) (hh : s.high = .bound h) :
    nextUnit .w32 le s =
      if le then [l.data.getD l.pos 0, l.data.getD (l.pos + 1) 0, h.data.getD h.pos 0, h.data.getD (h.pos + 1) 0]
      else [h.data.getD (h.pos + 1) 0, h.data.getD h.pos 0, l.data.getD (l.pos + 1) 0, l.data.getD l.pos 0] := by
  cases le <;> simp [nextUnit, flatUnitAt, corr, hl, hh, List.getD_eq_getElem?_getD]

theorem nextUnit_w8 (le : Bool) {l h : InStream} (hl : s.low = .bound l) (hh : s.high = .bound h) :
    nextUnit .w8 le s =
      if le then [l.data.getD l.pos 0, h.data.getD h.pos 0] else [h.data.getD h.pos 0, l.data.getD l.pos 0] := by
  cases le <;> simp [nextUnit, flatUnitAt, hl, hh, List.getD_eq_getElem?_getD]

/-- R57: the flat unit made of the windows of two lanes. -/
theorem dualFlat_window (hm : m ≠ .w16) (le : Bool) {l g : InStream} (hl : s.low = .bound l) (hg : s.high = .bound g)
    (hn : l.pos + m.laneUnit ≤ l.data.length) (hk : g.pos + m.laneUnit ≤ g.data.length) :
    dualFlat le (l.window m.laneUnit) (g.window m.laneUnit) = nextUnit m le s := by
  cases m with
  | w16 => exact absurd rfl hm
  | w32 =>
    rw [nextUnit_w32 le hl hg, Mode.laneUnit, InStream.window_two hn, InStream.window_two hk]
    cases le <;> rfl
  | w8 =>
    rw [nextUnit_w8 le hl hg, Mode.laneUnit, InStream.window_one hn, InStream.window_one hk]
    cases le <;> rfl

/-- R110, R62: with a whole unit there, a decode reads it and its cursors move on. -/
theorem readUnit_there (le : Bool) (hio : s.ioFaults = []) (hu : unitThere m s) :
    readUnit m le s = .ok true ((s.readOn m).setLatch (nextUnit m le s)) := by
  by_cases hm : m = .w16
  · subst hm
    obtain ⟨st, hs, hn⟩ := unitThere_w16.1 hu
    rw [readUnit_w16_full le hio hs hn, State.readOn_w16 hs hn, nextUnit_w16 le hs]
    cases le <;> rfl
  · obtain ⟨⟨l, hl, hn⟩, g, hg, hk⟩ := (unitThere_dual hm).1 hu
    rw [readUnit_dual_full hm le hio hl hg hn hk, State.readOn_dual hm hl hg hn hk, dualFlat_window hm le hl hg hn hk]

/-- R110: one unit of an unsplit decode, in any mode; the whole next state. -/
theorem runDec_there {le lim : Bool} {o : OutStream} (hio : s.ioFaults = []) (hu : unitThere m s)
    (ht : s.tgt = .bound o) (hrem : lim = true → s.rem ≠ 0) :
    runDec m le lim s = .next { s with
      src := (s.readOn m).src, low := (s.readOn m).low, high := (s.readOn m).high
      tgt := .bound (o.append (nextUnit m le s))
      rem := if lim then s.rem - BitVec.ofNat 64 m.flatUnit else s.rem
      latch := [] } := by
  have ho : ((s.readOn m).setLatch (nextUnit m le s)).output .tgt (nextUnit m le s) =
      some (((s.readOn m).setLatch (nextUnit m le s)).setTgt (.bound (o.append (nextUnit m le s)))) := by
    simp [State.output, ht]
  rw [runDec, decodeIter_moved hrem (readUnit_there le hio hu) (by simpa using hio) ho]
  simp only [State.spend_eq]
  rw [State.readOn_eq]
  rfl

/-- R122: a used-up budget ends a decode before it reads. -/
theorem runDec_usedUp (m : Mode) (le : Bool) (h : s.rem = 0) : runDec m le true s = .next (finish (decUsed m) s) := by
  simp only [runDec, decodeIter_budget m le .tgt h, Access.andThen_ok]

/-- Settles O19: a whole unit of `SRC` is there, its two bytes in the order of R55. -/
theorem dec16TranscodesOneUnit : Obligations.Dec16TranscodesOneUnit := by
  intro le lim s st o hp hio hs ht hn hrem
  refine (stepDec_run .w16 le lim hp).trans ((runDec_there hio (unitThere_w16.2 ⟨st, hs, hn⟩) ht hrem).trans ?_)
  rw [State.readOn_w16 hs hn, nextUnit_w16 le hs]
  rfl

/-- Settles O20: a whole lane unit of both lanes is there, its four bytes in the order of R56. -/
theorem dec32TranscodesOneWord : Obligations.Dec32TranscodesOneWord := by
  intro le lim s l h o hp hio hl hh ht hn hk hrem
  have hm : Mode.w32 ≠ .w16 := nofun
  have hu : unitThere .w32 s := (unitThere_dual hm).2 ⟨⟨l, hl, hn⟩, h, hh, hk⟩
  refine (stepDec_run .w32 le lim hp).trans ((runDec_there hio hu ht hrem).trans ?_)
  rw [State.readOn_dual hm hl hh hn hk, nextUnit_w32 le hl hh]
  rfl

/-- Settles O21: a byte of both lanes is there, the two in the order of R56. -/
theorem dec8TranscodesOnePair : Obligations.Dec8TranscodesOnePair := by
  intro le lim s l h o hp hio hl hh ht hn hk hrem
  have hm : Mode.w8 ≠ .w16 := nofun
  have hu : unitThere .w8 s := (unitThere_dual hm).2 ⟨⟨l, hl, hn⟩, h, hh, hk⟩
  refine (stepDec_run .w8 le lim hp).trans ((runDec_there hio hu ht hrem).trans ?_)
  rw [State.readOn_dual hm hl hh hn hk, nextUnit_w8 le hl hh]
  rfl

end Sys2Proof.Machine

/-! The CHECK step of a decode (R120, R121), and the lanes that end it (R162 (4), R142). -/

namespace Sys2Proof.Machine

variable {s : State} {m : Mode} {u : Used}

/-! The premises of R235 that name a decode, said of its mode. -/

theorem operandsWritten_decodeOp {le lim : Bool} :
    OperandsWritten (decodeOp m le lim) s ↔ (lim = true → s.limit.isWritten = true) := by cases m <;> exact Iff.rfl

theorem budgetAligned_decodeOp {le lim : Bool} : BudgetAligned (decodeOp m le lim) s ↔ LimitAligned m lim s := by
  cases m <;> exact Iff.rfl

theorem lanesSeekable_decodeOp {le lim : Bool} :
    LanesSeekable (decodeOp m le lim) s ↔ (m ≠ .w16 → s.seekable (decUsed m) = true) := by
  cases m <;> simp [LanesSeekable, decodeOp, usedPorts]

theorem State.laneRefusal_none (hk : m ≠ .w16 → s.seekable (decUsed m) = true) : s.laneRefusal m = none := by
  cases m with
  | w16 => rfl
  | w32 | w8 => exact if_pos (hk (by decide))

theorem State.laneRefusal_sequential (hm : m ≠ .w16) (hk : s.seekable (decUsed m) = false) :
    s.laneRefusal m = some .dualLaneLengthUnknown := by
  cases m with
  | w16 => exact absurd rfl hm
  | w32 | w8 => exact if_neg (by simp [hk])

/-- The refusal conditions of a decode whose budget and ports are in order are those of its lanes. -/
theorem State.decRefusal_of_lanes {lim : Bool} (hw : lim = true → s.limit.isWritten = true)
    (ha : LimitAligned m lim s) (hp : s.portRefusal (decUsed m) = none) : s.decRefusal m lim = s.laneRefusal m := by
  simp [State.decRefusal, State.budgetRefusal_none hw ha, hp]

/-! The ports of a decode (R89). -/

theorem decTarget_bound (hb : s.portsBound (decUsed m) = true) : ∃ o, s.tgt = .bound o := by
  have h : s.tgt.isBound = true := by cases m <;> simp_all [State.portsBound, decUsed, Used.none]
  exact Port.bound_of_isBound h

theorem decSource_bound (hb : s.portsBound (decUsed .w16) = true) : ∃ st, s.src = .bound st := by
  have h : s.src.isBound = true := by simp_all [State.portsBound, decUsed, Used.none]
  exact Port.bound_of_isBound h

theorem decLanes_bound (hm : m ≠ .w16) (hb : s.portsBound (decUsed m) = true) :
    (∃ l, s.low = .bound l) ∧ ∃ g, s.high = .bound g := by
  have h : s.low.isBound = true ∧ s.high.isBound = true := by
    cases m <;> simp_all [State.portsBound, decUsed, Used.none]
  exact ⟨Port.bound_of_isBound h.1, Port.bound_of_isBound h.2⟩

theorem seekable_dec_dual (hm : m ≠ .w16) {l g : InStream} (hl : s.low = .bound l) (hg : s.high = .bound g) :
    s.seekable (decUsed m) = (l.seek && g.seek) := by
  cases m with
  | w16 => exact absurd rfl hm
  | w32 | w8 => simp [State.seekable, State.usedInputs, decUsed, Used.none, pick, hl, hg]

/-- R120: the CHECK step of a dual-lane decode comes to its lane-length check. -/
theorem checkDec_dual (hm : m ≠ .w16) {lim : Bool} (hr : s.decRefusal m lim = none)
    (hb : s.portsBound (decUsed m) = true) :
    checkDec m lim s = checkLanes (decUsed m) s fun _ s1 => .next (s1.beginDecode lim) := by
  cases m with
  | w16 => exact absurd rfl hm
  | w32 | w8 => exact checkPorts_passed _ hr hb

/-- R111, R114, R117: the checks of a decode passed, its run begins. -/
theorem checkDec_passed {lim : Bool} (hio : s.ioFaults = []) (hr : s.decRefusal m lim = none)
    (hb : s.portsBound (decUsed m) = true) (hk : m ≠ .w16 → s.seekable (decUsed m) = true)
    (he : m ≠ .w16 → (bytesOf s.low).length = (bytesOf s.high).length) :
    checkDec m lim s = .next (s.beginDecode lim) := by
  by_cases hm : m = .w16
  · subst hm
    exact checkPorts_passed _ hr hb
  · obtain ⟨⟨l, hl⟩, g, hg⟩ := decLanes_bound hm hb
    have hseek : l.seek = true ∧ g.seek = true := by simpa [seekable_dec_dual hm hl hg] using hk hm
    have hlen : l.data.length = g.data.length := by simpa [bytesOf, hl, hg] using he hm
    rw [checkDec_dual hm hr hb, checkLanes_served _ hio hl hg hseek.1 hseek.2 hlen]

/-- Settles O22: with no refusal condition and equal lanes the check step begins the run; a used-up budget ends it. -/
theorem decodeBeginsAndEnds : Obligations.DecodeBeginsAndEnds := by
  refine ⟨fun m le lim s hc hio hw ha hp hf hb hk he => ?_, fun m le s hc hrem => ?_⟩
  · have hseek := lanesSeekable_decodeOp.1 hk
    have hr : s.decRefusal m lim = none := by
      rw [State.decRefusal_of_lanes (operandsWritten_decodeOp.1 hw) (budgetAligned_decodeOp.1 ha)
        (State.portRefusal_none hp hf), State.laneRefusal_none hseek]
    rw [exec_decodeOp, stepDec_check m le lim hc, checkDec_passed hio hr hb hseek he]
    rfl
  · rw [exec_decodeOp, stepDec_run m le true hc, runDec_usedUp m le hrem, finish_eq]

/-! Lanes of different length (R120, R162 (4)). -/

theorem checkLanes_unequal {l h : InStream} (k : Nat → State → Result) (hio : s.ioFaults = []) (hl : s.low = .bound l)
    (hh : s.high = .bound h) (hlk : l.seek = true) (hhk : h.seek = true) (hne : l.data.length ≠ h.data.length) :
    checkLanes u s k = .next (raise .lanelen u s) := by
  simp only [checkLanes, memLen_served hio (p := .low) (by simp [State.input, hl]) hlk,
    memLen_served hio (p := .high) (by simp [State.input, hh]) hhk, Access.andThen_ok, if_neg hne]

section Unequal

variable {l h : InStream} (hm : m ≠ .w16) (hio : s.ioFaults = []) (hl : s.low = .bound l) (hh : s.high = .bound h)
  (hlk : l.seek = true) (hhk : h.seek = true) (hne : l.data.length ≠ h.data.length)
include hm hio hl hh hlk hhk hne

theorem checkDec_unequal {lim : Bool} (hw : lim = true → s.limit.isWritten = true) (ha : LimitAligned m lim s)
    (hp : s.portRefusal (decUsed m) = none) (hb : s.portsBound (decUsed m) = true) :
    checkDec m lim s = .next (raise .lanelen (decUsed m) s) := by
  have hk : s.seekable (decUsed m) = true := by simp [seekable_dec_dual hm hl hh, hlk, hhk]
  have hr : s.decRefusal m lim = none := by
    rw [State.decRefusal_of_lanes hw ha hp, State.laneRefusal_none fun _ => hk]
  rw [checkDec_dual hm hr hb, checkLanes_unequal _ hio hl hh hlk hhk hne]

theorem checkSplit_unequal {n : BitVec 8} (hn : n ≠ 0) (hw : s.base.isWritten = true)
    (hp : s.portRefusal (splitUsed m) = none) (hb : s.portsBound (splitUsed m) = true) :
    checkSplit m n s = .next (raise .lanelen (splitUsed m) s) := by
  obtain ⟨b, hbase⟩ := Operand.eq_written hw
  have hk : s.seekable (splitUsed m) = true := by simp [State.seekable, usedInputs_split_dual hm hl hh, hlk, hhk]
  have hlanes : splitTotal m s (splitDivide m n b) = checkLanes (splitUsed m) s (splitDivide m n b) := by
    cases m with
    | w16 => exact absurd rfl hm
    | w32 | w8 => rfl
  rw [checkSplit_of_written hn hbase, checkPorts_passed _ hp hb, if_pos hk, hlanes,
    checkLanes_unequal _ hio hl hh hlk hhk hne]

end Unequal

/-- Settles O23: with every earlier check passed, the lane-length check of the four dual-lane decodes fails. -/
theorem unequalLanesRaiseLanelen : Obligations.UnequalLanesRaiseLanelen := by
  rintro i s l h hi hwf hc hio hw hfit ha hf hb hl hh hlk hhk hne
  have hp := State.portRefusal_none ha hf
  obtain ⟨le, lim, rfl⟩ | ⟨le, lim, rfl⟩ | ⟨le, n, rfl⟩ | ⟨le, n, rfl⟩ := hi
  · exact (stepDec_check _ _ _ hc).trans (checkDec_unequal (m := .w32) nofun hio hl hh hlk hhk hne hw hfit hp hb)
  · exact (stepDec_check _ _ _ hc).trans (checkDec_unequal (m := .w8) nofun hio hl hh hlk hhk hne hw hfit hp hb)
  · exact (stepSplit_check _ _ _ hc).trans
      (checkSplit_unequal (m := .w32) nofun hio hl hh hlk hhk hne (by simpa [Instr.wf] using hwf) hw hp hb)
  · exact (stepSplit_check _ _ _ hc).trans
      (checkSplit_unequal (m := .w8) nofun hio hl hh hlk hhk hne (by simpa [Instr.wf] using hwf) hw hp hb)

/-! Sequential-only streams (R120, R142). -/

theorem seekable_enc {fs : List InStream} (hf : s.files = .bound fs) : s.seekable (encUsed m) = fs.all InStream.seek := by
  cases m <;> simp [State.seekable, State.usedInputs, encUsed, Used.none, pick, hf]

/-- R142: `DUP` = 1 with a sequential-only file. -/
theorem State.encRefusal_sequential {fs : List InStream} (hf : s.files = .bound fs) (hk : ∃ st ∈ fs, st.seek = false) :
    s.encRefusal m true = some .duplicateNeedsRewind := by
  have hseek : s.seekable (encUsed m) = false := by rw [seekable_enc hf]; simpa using hk
  simp [State.encRefusal, State.dupRefusal, hseek]

/-- Settles O24: the lanes are the last refusal condition of a decode, `DUP` the first of an encode. -/
theorem sequentialStreamsRefused : Obligations.SequentialStreamsRefused := by
  refine ⟨fun m le lim s hm hc hw ha hp hf hk => ?_, fun m le s fs hc hf hk => ?_⟩
  · rw [exec_decodeOp, stepDec_check m le lim hc]
    apply checkPorts_refused
    rw [State.decRefusal_of_lanes (operandsWritten_decodeOp.1 hw) (budgetAligned_decodeOp.1 ha)
      (State.portRefusal_none hp hf), State.laneRefusal_sequential hm hk]
  · rw [exec_encOf, stepEnc_check m le true hc]
    exact checkPorts_refused _ (State.encRefusal_sequential hf hk)

end Sys2Proof.Machine

/-! The state a CMD write makes: what R27 keeps of the launch premises (70_reset_and_hazards.md R235). -/

namespace Sys2Proof.Machine

variable {s : State} {u : Used} {w : CmdWord}

@[simp] theorem Port.isBound_mapBound {α : Type} (f : α → α) (p : Port α) : (p.mapBound f).isBound = p.isBound := by
  cases p <;> rfl

@[simp] theorem Port.isBound_map {α : Type} (f : α → α) (p : Port α) : (p.map f).isBound = p.isBound := by
  cases p <;> rfl

theorem pick_mapBound {α : Type} (b : Bool) (f : α → α) (p : Port α) : pick b (p.mapBound f) = (pick b p).map f := by
  cases b <;> cases p <;> rfl

theorem pick_map {α : Type} (b : Bool) (f : α → α) (p : Port α) : pick b (p.map f) = (pick b p).map f := by
  cases b <;> cases p <;> rfl

@[simp] theorem State.portsBound_start : (s.start w).portsBound u = s.portsBound u := by
  simp [State.portsBound]

/-- R27: the inputs of the operation, each with its cursor at 0. -/
theorem State.usedInputs_start : (s.start w).usedInputs u = (s.usedInputs u).map (List.map InStream.rewind) := by
  simp [State.usedInputs, pick_mapBound, List.map_flatten]

@[simp] theorem State.portAlias_start : (s.start w).portAlias u = s.portAlias u := by
  simp [State.portAlias, State.usedNames, State.usedInputs_start, pick_map, Function.comp_def, InStream.rewind]

@[simp] theorem State.lengthsFit_start : (s.start w).lengthsFit u = s.lengthsFit u := by
  simp only [State.lengthsFit, State.usedInputs_start, ← List.map_flatten, List.all_map]
  rfl

@[simp] theorem State.seekable_start : (s.start w).seekable u = s.seekable u := by
  simp only [State.seekable, State.usedInputs_start, ← List.map_flatten, List.all_map]
  rfl

@[simp] theorem bytesOf_rewound (p : Port InStream) : bytesOf (p.mapBound InStream.rewind) = bytesOf p := by
  cases p <;> rfl

/-- R27: the first step of an operation that the host has started and leaves alone. -/
theorem step_start {i : Instr} (hh : s.host = []) (hwf : i.wf = true) :
    step (s.start (encode i)) = noted (exec i (s.start (encode i))) := by
  rw [step_quiet (s := s.start (encode i)) hh,
    transcoderStep_ok (s := s.start (encode i)) rfl (decode_encode hwf)]

end Sys2Proof.Machine

/-! The run of a decode: the state after each of its units (R110). -/

namespace Sys2Proof.Machine

variable {s t : State} {m : Mode} {le lim : Bool} {k : Nat}

/-! The lanes after `k` units. -/

/-- The port is bound to a stream of the bytes `d`, its cursor at `n`. -/
def StandsAt (p : Port InStream) (d : List Byte) (n : Nat) : Prop :=
  ∃ st, p = .bound st ∧ st.data = d ∧ st.pos = n

theorem StandsAt.restOf {p : Port InStream} {d : List Byte} {n : Nat} (h : StandsAt p d n) : restOf p = d.drop n := by
  obtain ⟨st, rfl, rfl, rfl⟩ := h
  rfl

theorem StandsAt.advance {p : Port InStream} {d : List Byte} {n u : Nat} (h : StandsAt p d n)
    (hu : n + u ≤ d.length) : StandsAt (p.map (·.advance u)) d (n + u) := by
  obtain ⟨st, rfl, rfl, rfl⟩ := h
  exact ⟨_, rfl, rfl, congrArg InStream.pos (InStream.advance_full hu)⟩

theorem StandsAt.of_rewound {p : Port InStream} (h : ∃ st, p = .bound st) :
    StandsAt (p.mapBound InStream.rewind) (bytesOf p) 0 := by
  obtain ⟨st, rfl⟩ := h
  exact ⟨_, rfl, rfl, rfl⟩

/-- The inputs of a decode of mode `m`, `k` lane units on from the start of the streams bound in `s`. -/
def LanesAt (m : Mode) (s : State) (k : Nat) (t : State) : Prop :=
  match m with
  | .w16 => StandsAt t.src (bytesOf s.src) (m.laneUnit * k)
  | .w32 | .w8 => StandsAt t.low (bytesOf s.low) (m.laneUnit * k) ∧ StandsAt t.high (bytesOf s.high) (m.laneUnit * k)

/-- The two lanes of a dual-lane decode are equally long (R120). -/
def LanesEqual (m : Mode) (s : State) : Prop := m ≠ .w16 → (bytesOf s.low).length = (bytesOf s.high).length

theorem LanesAt.congr (h : LanesAt m s k t) {t' : State} (hs : t'.src = t.src) (hl : t'.low = t.low)
    (hh : t'.high = t.high) : LanesAt m s k t' := by
  cases m <;> simpa only [LanesAt, hs, hl, hh] using h

theorem LanesAt.src (h : LanesAt .w16 s k t) : StandsAt t.src (bytesOf s.src) (2 * k) := h

theorem LanesAt.lanes (h : LanesAt m s k t) (hm : m ≠ .w16) :
    StandsAt t.low (bytesOf s.low) (m.laneUnit * k) ∧ StandsAt t.high (bytesOf s.high) (m.laneUnit * k) := by
  cases m with
  | w16 => exact absurd rfl hm
  | w32 | w8 => exact h

/-- R60: a unit is there exactly before the last of the whole units of the input. -/
theorem LanesAt.unitThere_iff (h : LanesAt m s k t) (he : LanesEqual m s) (le : Bool) :
    unitThere m t ↔ k < unitsOf m (firstData m le s) := by
  rw [unitsOf, ← Nat.succ_le_iff, Nat.le_div_iff_mul_le m.laneUnit_pos]
  cases m with
  | w16 =>
    simp only [unitThere, firstData, h.src.restOf, List.length_drop, Mode.laneUnit]
    omega
  | w32 | w8 =>
    obtain ⟨hl, hh⟩ := h.lanes (by decide)
    have heq := he (by decide)
    simp only [unitThere, firstData, hl.restOf, hh.restOf, List.length_drop, Mode.laneUnit]
    cases le <;> simp only [if_true, Bool.false_eq_true, if_false] <;> omega

/-- R57: the unit that comes next is unit `k` of the closed form. -/
theorem LanesAt.nextUnit (h : LanesAt m s k t) (le : Bool) :
    nextUnit m le t = flatUnitAt m le (firstData m le s) (secondData m le s) k := by
  rw [← flatUnitAt_drop]
  cases m with
  | w16 => simp only [Machine.nextUnit, firstData, secondData, h.src.restOf, Mode.laneUnit, List.drop_nil]
  | w32 | w8 =>
    obtain ⟨hl, hh⟩ := h.lanes (by decide)
    cases le <;> simp [Machine.nextUnit, firstData, secondData, hl.restOf, hh.restOf]

/-- R62: a whole unit read, every lane stands one unit on. -/
theorem LanesAt.readOn (h : LanesAt m s k t) (hu : unitThere m t) : LanesAt m s (k + 1) (t.readOn m) := by
  cases m with
  | w16 =>
    simp only [unitThere, h.src.restOf, List.length_drop] at hu
    exact h.src.advance (by omega)
  | w32 | w8 =>
    obtain ⟨hl, hh⟩ := h.lanes (by decide)
    simp only [unitThere, hl.restOf, hh.restOf, List.length_drop, Mode.laneUnit] at hu
    exact ⟨hl.advance (by simp only [Mode.laneUnit]; omega), hh.advance (by simp only [Mode.laneUnit]; omega)⟩

theorem LanesAt.of_start (hb : s.portsBound (decUsed m) = true) (w : CmdWord) : LanesAt m s 0 (s.start w) := by
  cases m with
  | w16 => exact StandsAt.of_rewound (decSource_bound hb)
  | w32 | w8 =>
    obtain ⟨hl, hh⟩ := decLanes_bound (by decide) hb
    exact ⟨StandsAt.of_rewound hl, StandsAt.of_rewound hh⟩

/-! The run. -/

/-- A decode that was started in `s` and has moved `k` units. -/
structure Decoding (m : Mode) (le lim : Bool) (s : State) (k : Nat) (t : State) : Prop where
  host : t.host = []
  served : t.ioFaults = []
  phase : t.phase = .run
  cmd : t.cmd = encode (decodeOp m le lim)
  errcode : t.errcode = 0
  lanes : LanesAt m s k t
  target : ∃ o, t.tgt = .bound o ∧ o.out = decoded m le (firstData m le s) (secondData m le s) k
  budget : lim = true → t.rem.toNat + m.flatUnit * k = (s.budget lim).toNat

theorem Decoding.step_eq (h : Decoding m le lim s k t) : step t = noted (runDec m le lim t) := by
  have hb : t.busy = true := busy_iff.2 (.inr h.phase)
  rw [step_quiet h.host, transcoderStep_ok hb (h.cmd ▸ decode_encode (wf_decodeOp m le lim)), exec_decodeOp,
    stepDec_run m le lim h.phase]

theorem decoded_succ (m : Mode) (le : Bool) (f g : List Byte) (k : Nat) :
    decoded m le f g (k + 1) = decoded m le f g k ++ flatUnitAt m le f g k := by
  simp [decoded, List.range_succ]

/-- R112, R115, R118: a further unit is to be moved exactly where one is there and the budget has room for it. -/
theorem lt_decUnits_iff {f : List Byte} {b : Len} :
    k < decUnits m lim f b ↔ k < unitsOf m f ∧ (lim = true → m.flatUnit * k + m.flatUnit ≤ b.toNat) := by
  cases lim with
  | false => simp [decUnits]
  | true =>
    rw [decUnits, if_pos rfl, lt_min_iff, ← Nat.succ_le_iff (n := b.toNat / m.flatUnit),
      Nat.le_div_iff_mul_le m.flatUnit_pos, Nat.succ_mul, Nat.mul_comm k]
    simp

/-- R110: with room for a unit, the budget drops by exactly the unit. -/
theorem toNat_sub_flatUnit {r : Len} (h : m.flatUnit ≤ r.toNat) :
    (r - BitVec.ofNat 64 m.flatUnit).toNat = r.toNat - m.flatUnit := by
  have hu : (BitVec.ofNat 64 m.flatUnit).toNat = m.flatUnit := by cases m <;> rfl
  rw [BitVec.toNat_sub_of_le (by rwa [BitVec.le_def, hu]), hu]

/-- R110: one unit more. -/
theorem Decoding.step_unit (h : Decoding m le lim s k t) (he : LanesEqual m s)
    (hk : k < decUnits m lim (firstData m le s) (s.budget lim)) :
    ∃ t', step t = .next t' ∧ Decoding m le lim s (k + 1) t' := by
  obtain ⟨hunits, hroom⟩ := lt_decUnits_iff.1 hk
  have hu : unitThere m t := (h.lanes.unitThere_iff he le).2 hunits
  have hle : lim = true → m.flatUnit ≤ t.rem.toNat := fun hl => by
    have := h.budget hl
    have := hroom hl
    omega
  have hrem : lim = true → t.rem ≠ 0 := fun hl h0 => by
    have h0' : t.rem.toNat = 0 := by rw [h0]; rfl
    have := hle hl
    have := m.flatUnit_pos
    omega
  obtain ⟨o, ht, ho⟩ := h.target
  refine ⟨_, by rw [h.step_eq, runDec_there h.served hu ht hrem, noted_next], ?_⟩
  exact {
    host := h.host
    served := h.served
    phase := h.phase
    cmd := h.cmd
    errcode := h.errcode
    lanes := (h.lanes.readOn hu).congr rfl rfl rfl
    target := ⟨_, rfl, by rw [OutStream.append, ho, decoded_succ, h.lanes.nextUnit le]⟩
    budget := fun hl => by
      have hroom := hle hl
      have hbudget := h.budget hl
      simp only [State.note_rem, if_pos hl, toNat_sub_flatUnit hroom, Nat.mul_succ]
      omega }

/-- R121, R120: the launch premises and equal lanes pass the checks of a decode. -/
theorem checkDec_start (hL : Launch (decodeOp m le lim) s) (he : LanesEqual m s) (w : CmdWord) :
    checkDec m lim (s.start w) = .next ((s.start w).beginDecode lim) := by
  have hk := lanesSeekable_decodeOp.1 hL.lanesSeekable
  have hp : (s.start w).portRefusal (decUsed m) = none :=
    State.portRefusal_none (by simpa using hL.noPortAlias) (by simpa using hL.lengthsFit)
  have hr : (s.start w).decRefusal m lim = none :=
    (State.decRefusal_of_lanes (s := s.start w) (operandsWritten_decodeOp.1 hL.operandsWritten)
      (budgetAligned_decodeOp (s := s).1 hL.budgetAligned) hp).trans (State.laneRefusal_none (by simpa using hk))
  exact checkDec_passed (s := s.start w) hL.noIOFault hr (by simpa using hL.portsBound) (by simpa using hk)
    (by simpa [LanesEqual] using he)

/-- R120, R121: the first step of a decode begins its run. -/
theorem Decoding.begins (hL : Launch (decodeOp m le lim) s) (he : LanesEqual m s) :
    ∃ t, step (s.start (encode (decodeOp m le lim))) = .next t ∧ Decoding m le lim s 0 t := by
  have hb : s.portsBound (decUsed m) = true := by simpa using hL.portsBound
  have hstep : step (s.start (encode (decodeOp m le lim))) =
      .next ((s.start (encode (decodeOp m le lim))).beginDecode lim).note := by
    rw [step_start hL.hostQuiet (wf_decodeOp m le lim), exec_decodeOp, stepDec_check m le lim rfl,
      checkDec_start hL he, noted_next]
  obtain ⟨o, ht⟩ := decTarget_bound hb
  refine ⟨_, hstep, ?_⟩
  exact {
    host := hL.hostQuiet
    served := hL.noIOFault
    phase := rfl
    cmd := rfl
    errcode := rfl
    lanes := (LanesAt.of_start hb (encode (decodeOp m le lim))).congr rfl rfl rfl
    target := ⟨_, congrArg (Port.map fun o : OutStream => { o with out := [] }) ht, rfl⟩
    budget := fun _ => rfl }

/-- R110: the run of a decode comes to every number of units up to its last. -/
theorem Decoding.reached (hL : Launch (decodeOp m le lim) s) (he : LanesEqual m s) :
    ∀ n, n ≤ decUnits m lim (firstData m le s) (s.budget lim) →
      ∃ t, Steps (s.start (encode (decodeOp m le lim))) t ∧ Decoding m le lim s n t := by
  intro n
  induction n with
  | zero =>
    intro _
    obtain ⟨t, hstep, hd⟩ := Decoding.begins hL he
    exact ⟨t, Steps.head hstep (Steps.refl t), hd⟩
  | succ n ih =>
    intro hn
    obtain ⟨t, hsteps, hd⟩ := ih (Nat.le_of_succ_le hn)
    obtain ⟨t', hstep, hd'⟩ := hd.step_unit he hn
    exact ⟨t', hsteps.trans (Steps.head hstep (Steps.refl t')), hd'⟩

end Sys2Proof.Machine

/-! A whole decode: its end, what it has written, and where its cursors stand (R112, R115, R118, R122). -/

namespace Sys2Proof.Machine

variable {s t : State} {m : Mode} {le lim : Bool} {k : Nat}

theorem State.budget_aligned (ha : LimitAligned m lim s) : (s.budget lim).toNat % m.flatUnit = 0 := by
  unfold State.budget
  split
  · exact ha rfl _ ‹_›
  · exact Nat.zero_mod _

/-- How a decode that ends in `t` leaves the state `t'`: with success, its target as it stood. -/
structure DecodeDone (t t' : State) : Prop where
  phase : t'.phase = .done
  errcode : t'.errcode = t.errcode
  host : t'.host = t.host
  target : writtenTo t'.tgt = writtenTo t.tgt

/-- R60, R122: with no whole unit there, the decode ends. -/
theorem LanesAt.runDec_short (h : LanesAt m s k t) (hio : t.ioFaults = []) (hrem : lim = true → t.rem ≠ 0)
    (hu : ¬ unitThere m t) : ∃ t', runDec m le lim t = .next t' ∧ DecodeDone t t' := by
  by_cases hm : m = .w16
  · subst hm
    obtain ⟨st, hs, -⟩ := h.src
    have hn : st.data.length < st.pos + 2 := Nat.lt_of_not_le fun hn => hu (unitThere_w16.2 ⟨st, hs, hn⟩)
    exact ⟨_, runDec_short_w16 hio hs hrem hn, rfl, rfl, rfl, writtenTo_releaseIf (decUsed .w16).tgt t.tgt⟩
  · obtain ⟨⟨l, hl, -⟩, g, hg, -⟩ := h.lanes hm
    have hn : l.data.length < l.pos + m.laneUnit ∨ g.data.length < g.pos + m.laneUnit := by
      by_contra! hn
      exact hu ((unitThere_dual hm).2 ⟨⟨l, hl, hn.1⟩, g, hg, hn.2⟩)
    exact ⟨_, runDec_short_dual hm hio hl hg hrem hn, rfl, rfl, rfl, writtenTo_releaseIf (decUsed m).tgt t.tgt⟩

/-- R122: a used-up budget ends the run, the streams released. -/
theorem Decoding.step_usedUp (h : Decoding m le true s k t) (h0 : t.rem = 0) :
    step t = .next (finish (decUsed m) t).note := by
  rw [h.step_eq, runDec_usedUp m le h0, noted_next]

/-- R122: after its last unit a decode ends, its budget used up or its input exhausted. -/
theorem Decoding.step_last (h : Decoding m le lim s k t) (he : LanesEqual m s) (ha : LimitAligned m lim s)
    (hk : ¬ k < decUnits m lim (firstData m le s) (s.budget lim)) :
    ∃ t', step t = .next t' ∧ DecodeDone t t' := by
  by_cases hused : lim = true ∧ t.rem = 0
  · obtain ⟨rfl, h0⟩ := hused
    exact ⟨_, h.step_usedUp h0, rfl, rfl, rfl, writtenTo_releaseIf (decUsed m).tgt t.tgt⟩
  · have hrem : lim = true → t.rem ≠ 0 := fun hl h0 => hused ⟨hl, h0⟩
    have hroom : lim = true → m.flatUnit * k + m.flatUnit ≤ (s.budget lim).toNat := fun hl => by
      have hbudget := h.budget hl
      have hpos : t.rem.toNat ≠ 0 := fun h0 => hrem hl (BitVec.eq_of_toNat_eq h0)
      have hdvd : m.flatUnit ∣ t.rem.toNat :=
        (Nat.dvd_add_left ⟨k, rfl⟩).1 (hbudget ▸ Nat.dvd_of_mod_eq_zero (State.budget_aligned ha))
      have := Nat.le_of_dvd (Nat.pos_of_ne_zero hpos) hdvd
      omega
    have hu : ¬ unitThere m t := fun hu =>
      hk (lt_decUnits_iff.2 ⟨(h.lanes.unitThere_iff he le).1 hu, hroom⟩)
    obtain ⟨t', hrun, hdone⟩ := h.lanes.runDec_short (le := le) h.served hrem hu
    exact ⟨t'.note, by rw [h.step_eq, hrun, noted_next], hdone.phase, hdone.errcode, hdone.host, hdone.target⟩

/-- R112, R115, R118: a whole decode. -/
theorem decode_ends (hL : Launch (decodeOp m le lim) s) (he : LanesEqual m s) :
    ∃ t, EndsAt (s.start (encode (decodeOp m le lim))) t ∧ t.phase = .done ∧ t.errcode = 0 ∧ t.host = [] ∧
      writtenTo t.tgt = decoded m le (firstData m le s) (secondData m le s)
        (decUnits m lim (firstData m le s) (s.budget lim)) := by
  obtain ⟨t, hsteps, hd⟩ := Decoding.reached hL he _ (Nat.le_refl _)
  obtain ⟨t', hstep, hdone⟩ := hd.step_last he (budgetAligned_decodeOp.1 hL.budgetAligned) (Nat.lt_irrefl _)
  obtain ⟨o, ht, ho⟩ := hd.target
  have hq : t'.busy = false := by simp [State.busy, hdone.phase]
  refine ⟨t', ⟨hsteps.trans (Steps.head hstep (Steps.refl t')), hq⟩, hdone.phase, hdone.errcode.trans hd.errcode,
    hdone.host.trans hd.host, ?_⟩
  rw [hdone.target, ht, ← ho]
  rfl

/-- Settles O27: the run moves unit after unit, as many as the closed form has, and ends. -/
theorem decodeWritesTheClosedForm : Obligations.DecodeWritesTheClosedForm := by
  intro m le lim s hL he
  obtain ⟨t, hends, hdone, herr, -, hwritten⟩ := decode_ends hL he
  exact ⟨t, hends, hdone, herr, hwritten⟩

/-! The cursors after a used-up budget (R122). -/

theorem StandsAt.pos_eq {p : Port InStream} {d : List Byte} {n : Nat} {b : Bool} {st : InStream} (h : StandsAt p d n)
    (hs : (p.releaseIf b).shown = some st) : st.pos = n := by
  obtain ⟨st', rfl, -, rfl⟩ := h
  simp only [Port.shown_releaseIf, Port.shown_bound, Option.some.injEq] at hs
  rw [hs]

/-- Settles O28: the run moves `LIMIT` / `U` units, which uses the budget up, and ends without a further read. -/
theorem budgetedDecodeLeavesCursors : Obligations.BudgetedDecodeLeavesCursors := by
  intro m le s v hL hv he hfit
  have hbudget : s.budget true = v := by simp only [State.budget, hv]
  have hmul : v.toNat / m.flatUnit * m.flatUnit = v.toNat :=
    Nat.div_mul_cancel (Nat.dvd_of_mod_eq_zero (budgetAligned_decodeOp.1 hL.budgetAligned rfl v hv))
  have hn : v.toNat / m.flatUnit ≤ decUnits m true (firstData m le s) (s.budget true) := by
    rw [decUnits, if_pos rfl, hbudget]
    exact Nat.le_min.2 ⟨Nat.div_le_of_le_mul (by rwa [Nat.mul_comm]), Nat.le_refl _⟩
  obtain ⟨t, hsteps, hd⟩ := Decoding.reached hL he _ hn
  have h0 : t.rem = 0 := BitVec.eq_of_toNat_eq (by
    have hrem := hd.budget rfl
    rw [hbudget, Nat.mul_comm, hmul] at hrem
    simpa using hrem)
  refine ⟨_, ⟨hsteps.trans (Steps.head (hd.step_usedUp h0) (Steps.refl _)), rfl⟩, rfl, h0, ?_, fun hm => ?_⟩
  · rintro rfl st hst
    exact (hd.lanes.src.pos_eq (b := true) hst).trans ((Nat.mul_comm _ _).trans hmul)
  · obtain ⟨hl, hh⟩ := hd.lanes.lanes hm
    have hhalf : m.laneUnit * (v.toNat / m.flatUnit) = v.toNat / 2 := by
      cases m with
      | w16 => exact absurd rfl hm
      | w32 | w8 =>
        simp only [Mode.flatUnit, Mode.laneUnit] at hmul ⊢
        omega
    exact ⟨fun st hst => (hl.pos_eq (b := (decUsed m).low) hst).trans hhalf,
      fun st hst => (hh.pos_eq (b := (decUsed m).high) hst).trans hhalf⟩

end Sys2Proof.Machine

/-! A whole decode in both byte orders (R123). -/

namespace Sys2Proof.Machine

variable {s t : State} {m : Mode} {le lim : Bool} {k : Nat}

theorem exec_host {i : Instr} (h : exec i s = .next t) : t.host = s.host := by
  obtain rfl | ⟨r, hw, hc⟩ := exec_next_cases h
  · rfl
  · have hr : t.host = r.host := by cases hc <;> rfl
    exact hr.trans (Works.kept hw).host

/-- Log 3: no step of the transcoder gives the host a move to make. -/
theorem Steps.host_quiet (hh : s.host = []) (h : Steps s t) : t.host = [] := by
  induction h with
  | refl => exact hh
  | @tail b c _ hbc ih =>
    rw [step_quiet ih] at hbc
    obtain ⟨-, rfl⟩ | ⟨-, i, r, -, hr, rfl⟩ | ⟨-, rfl⟩ := transcoderStep_next_cases hbc
    · exact ih
    · exact (exec_host hr).trans ih
    · exact ih

theorem launch_le (le' : Bool) (hL : Launch (decodeOp m le lim) s) : Launch (decodeOp m le' lim) s := by
  cases m <;> exact { hL with }

/-- R112, R115, R118: whatever end a decode comes to, its target is the closed form. -/
theorem decode_written (hL : Launch (decodeOp m le lim) s) (he : LanesEqual m s)
    (hends : EndsAt (s.start (encode (decodeOp m le lim))) t) :
    writtenTo t.tgt = decoded m le (firstData m le s) (secondData m le s)
      (decUnits m lim (firstData m le s) (s.budget lim)) := by
  obtain ⟨r, hr, -, -, hrh, hwritten⟩ := decode_ends hL he
  have hh : t.host = [] := Steps.host_quiet (s := s.start (encode (decodeOp m le lim))) hL.hostQuiet hends.1
  rw [hends.unique hr hh hrh, hwritten]

theorem flatUnitAt_length (m : Mode) (le : Bool) (f g : List Byte) (i : Nat) :
    (flatUnitAt m le f g i).length = m.flatUnit := by
  cases m <;> simp [flatUnitAt, Mode.flatUnit]

/-- R123, R56: with `LE` = 1 the lanes change roles and each lane unit keeps its order, so the flat unit is reversed. -/
theorem flatUnitAt_reverse (m : Mode) (s : State) (i : Nat) :
    flatUnitAt m true (firstData m true s) (secondData m true s) i =
      (flatUnitAt m false (firstData m false s) (secondData m false s) i).reverse := by
  cases m <;> simp [flatUnitAt, firstData, secondData, corr]

/-- Both lanes have as many units, so either order of them decodes as many. -/
theorem decUnits_firstData (he : LanesEqual m s) (le le' : Bool) (b : Len) :
    decUnits m lim (firstData m le s) b = decUnits m lim (firstData m le' s) b := by
  have hlen : (firstData m le s).length = (firstData m le' s).length := by
    cases m with
    | w16 => rfl
    | w32 | w8 => cases le <;> cases le' <;> simp [firstData, he (by decide)]
  simp only [decUnits, unitsOf, hlen]

/-! A list made of pieces of one length. -/

theorem length_flatMap_range {α : Type} {F : Nat → List α} {u : Nat} (hF : ∀ i, (F i).length = u) (n : Nat) :
    ((List.range n).flatMap F).length = n * u := by
  simp [List.length_flatMap, hF]

theorem piece_of_flatMap_range {α : Type} {F : Nat → List α} {u : Nat} (hF : ∀ i, (F i).length = u) {n i : Nat}
    (hi : i < n) : (((List.range n).flatMap F).drop (u * i)).take u = F i := by
  obtain ⟨k, rfl⟩ : ∃ k, n = i + (k + 1) := ⟨n - i - 1, by omega⟩
  rw [List.range_add, List.flatMap_append, Nat.mul_comm, List.drop_left' (length_flatMap_range hF i),
    List.range_succ_eq_map, List.map_cons, List.flatMap_cons, List.take_left' (hF _), Nat.add_zero]

/-- Settles O29: both targets are the closed form, whose units are each other's reverse. -/
theorem littleEndianReversesEveryWord : Obligations.LittleEndianReversesEveryWord := by
  intro m lim s t0 t1 hL he h0 h1
  have hlen := flatUnitAt_length m false (firstData m false s) (secondData m false s)
  rw [decode_written (launch_le true hL) he h1, decode_written hL he h0, decUnits_firstData he true false]
  simp only [decoded, length_flatMap_range hlen, Nat.mul_div_cancel _ m.flatUnit_pos]
  refine List.flatMap_congr fun i hi => ?_
  rw [piece_of_flatMap_range hlen (List.mem_range.1 hi)]
  exact flatUnitAt_reverse m s i

end Sys2Proof.Machine

/-! One RUN step of an encode, in any mode: a unit moved, a pass ended, or the operation ended (41_encode.md R141 to R148); and its CHECK step (R151). -/

namespace Sys2Proof.Machine

variable {s : State} {m : Mode} {le dup : Bool} {fs : List InStream} {st : InStream}

/-! R57, encode: the halves of the next unit. -/

/-- R57: what the lanes receive of a unit depends only on what stands from its first byte on. -/
theorem firstAt_drop (m : Mode) (le : Bool) (d : List Byte) (k : Nat) :
    firstAt m le (d.drop (m.flatUnit * k)) 0 = firstAt m le d k := by
  cases m <;> simp [firstAt, Mode.flatUnit, List.getD_eq_getElem?_getD]

theorem secondAt_drop (m : Mode) (le : Bool) (d : List Byte) (k : Nat) :
    secondAt m le (d.drop (m.flatUnit * k)) 0 = secondAt m le d k := by
  cases m <;> simp [secondAt, Mode.flatUnit, List.getD_eq_getElem?_getD]

/-- R57: the halves of the flat unit that is read, a whole one. -/
theorem halves_window (m : Mode) (le : Bool) (hn : st.pos + m.flatUnit ≤ st.data.length) :
    firstHalf m le (st.window m.flatUnit) = firstAt m le (st.data.drop st.pos) 0 ∧
      secondHalf m le (st.window m.flatUnit) = secondAt m le (st.data.drop st.pos) 0 := by
  cases m with
  | w16 =>
    rw [Mode.flatUnit, InStream.window_two hn]
    cases le <;> simp [firstHalf, secondHalf, firstAt, secondAt, corr, Mode.laneUnit, List.getD_eq_getElem?_getD]
  | w32 =>
    rw [Mode.flatUnit, InStream.window_four hn]
    simp [firstHalf, secondHalf, firstAt, secondAt, Mode.laneUnit, List.getD_eq_getElem?_getD]
  | w8 =>
    rw [Mode.flatUnit, InStream.window_two hn]
    cases le <;> simp [firstHalf, secondHalf, firstAt, secondAt, corr, Mode.laneUnit, List.getD_eq_getElem?_getD]

/-! The outputs of an encode (R56, R89). -/

/-- The outputs an encode of mode `m` writes are bound. -/
def OutsBound (m : Mode) (le : Bool) (s : State) : Prop :=
  (∃ o, firstPort m le s = .bound o) ∧ (m ≠ .w16 → ∃ o, secondPort m le s = .bound o)

theorem outsBound_w16 : OutsBound .w16 le s ↔ ∃ o, s.tgt = .bound o := by
  simp [OutsBound, firstPort]

theorem outsBound_dual (hm : m ≠ .w16) :
    OutsBound m le s ↔ (∃ l, s.lowo = .bound l) ∧ ∃ h, s.higho = .bound h := by
  cases m with
  | w16 => exact absurd rfl hm
  | w32 | w8 => cases le <;> simp [OutsBound, firstPort, secondPort, and_comm]

/-- R52, R56: `f` appended to the output of the first-role lane, and `g` to that of the second; in `W16` there is no second. -/
def State.writeOn (s : State) (m : Mode) (le : Bool) (f g : List Byte) : State :=
  match m with
  | .w16 => s.setTgt (s.tgt.map (·.append f))
  | .w32 | .w8 =>
    if le then (s.setLowo (s.lowo.map (·.append f))).setHigho (s.higho.map (·.append g))
    else (s.setLowo (s.lowo.map (·.append g))).setHigho (s.higho.map (·.append f))

/-- Writing on touches the three outputs and nothing else. -/
theorem State.writeOn_eq (s : State) (m : Mode) (le : Bool) (f g : List Byte) :
    s.writeOn m le f g = { s with
      tgt := (s.writeOn m le f g).tgt, lowo := (s.writeOn m le f g).lowo, higho := (s.writeOn m le f g).higho } := by
  cases m <;> cases le <;> rfl

@[simp] theorem firstPort_writeOn (s : State) (m : Mode) (le : Bool) (f g : List Byte) :
    firstPort m le (s.writeOn m le f g) = (firstPort m le s).map (·.append f) := by
  cases m <;> cases le <;> rfl

theorem secondPort_writeOn (hm : m ≠ .w16) (s : State) (le : Bool) (f g : List Byte) :
    secondPort m le (s.writeOn m le f g) = (secondPort m le s).map (·.append g) := by
  cases m with
  | w16 => exact absurd rfl hm
  | w32 | w8 => cases le <;> rfl

/-! R52: a served write to each of the three outputs. -/

theorem memWrite_tgt (v : List Byte) (hio : s.ioFaults = []) (h : ∃ o, s.tgt = .bound o) :
    memWrite .tgt v s = .ok () (s.setTgt (s.tgt.map (·.append v))) := by
  obtain ⟨o, ho⟩ := h
  exact memWrite_served hio (by simp [State.output, ho, Port.map])

theorem memWrite_lowo (v : List Byte) (hio : s.ioFaults = []) (h : ∃ o, s.lowo = .bound o) :
    memWrite .lowo v s = .ok () (s.setLowo (s.lowo.map (·.append v))) := by
  obtain ⟨o, ho⟩ := h
  exact memWrite_served hio (by simp [State.output, ho, Port.map])

theorem memWrite_higho (v : List Byte) (hio : s.ioFaults = []) (h : ∃ o, s.higho = .bound o) :
    memWrite .higho v s = .ok () (s.setHigho (s.higho.map (·.append v))) := by
  obtain ⟨o, ho⟩ := h
  exact memWrite_served hio (by simp [State.output, ho, Port.map])

/-- R62, R65: in a dual-lane mode the first-role lane is written first. -/
theorem writeUnit_dual (hm : m ≠ .w16) (le : Bool) (u : List Byte) :
    writeUnit m le u s = (memWrite (firstOut le) (firstHalf m le u) s).bind fun _ s1 =>
      memWrite (secondOut le) (secondHalf m le u) s1 := by
  cases m with
  | w16 => exact absurd rfl hm
  | w32 | w8 => rfl

theorem State.writeOn_dual (hm : m ≠ .w16) (le : Bool) (f g : List Byte) :
    s.writeOn m le f g = if le then (s.setLowo (s.lowo.map (·.append f))).setHigho (s.higho.map (·.append g))
      else (s.setHigho (s.higho.map (·.append f))).setLowo (s.lowo.map (·.append g)) := by
  cases m with
  | w16 => exact absurd rfl hm
  | w32 | w8 => rfl

/-- R143, R65: a flat unit goes out half by half, one served write for each output. -/
theorem writeUnit_served {u : List Byte} (hio : s.ioFaults = []) (ho : OutsBound m le s) (hu : u.length = m.flatUnit) :
    writeUnit m le u s = .ok () (s.writeOn m le (firstHalf m le u) (secondHalf m le u)) := by
  by_cases hm : m = .w16
  · subst hm
    have hhalf : firstHalf .w16 le u = corr le u := congrArg (corr le) (List.take_of_length_le (Nat.le_of_eq hu))
    rw [hhalf]
    exact memWrite_tgt _ hio (outsBound_w16.1 ho)
  · obtain ⟨hl, hh⟩ := (outsBound_dual hm).1 ho
    rw [writeUnit_dual hm, State.writeOn_dual hm]
    cases le with
    | true =>
      rw [firstOut, if_pos rfl, memWrite_lowo _ hio hl, Access.bind_ok]
      exact memWrite_higho _ hio hh
    | false =>
      rw [firstOut, if_neg Bool.false_ne_true, memWrite_higho _ hio hh, Access.bind_ok]
      exact memWrite_lowo _ hio hl

/-! The RUN step (R143). -/

theorem runEnc_file (hf : s.files = .bound fs) (hj : fs[s.srci]? = some st) :
    runEnc m le dup s = (encodeIter m le dup s).andThen (encUsed m) fun _ s1 => .next s1 := by
  obtain ⟨hlt, -⟩ := List.getElem?_eq_some_iff.1 hj
  simp only [runEnc, hf, if_pos hlt]

/-- R143: one unit of an encode, in any mode; the whole next state. -/
theorem runEnc_unit (hio : s.ioFaults = []) (hf : s.files = .bound fs) (hj : fs[s.srci]? = some st)
    (ho : OutsBound m le s) (hn : st.pos + m.flatUnit ≤ st.data.length) {f g : List Byte}
    (hfirst : firstAt m le (st.data.drop st.pos) 0 = f) (hsecond : secondAt m le (st.data.drop st.pos) 0 = g) :
    runEnc m le dup s = .next { s.writeOn m le f g with
      files := .bound (fs.set s.srci { st with pos := st.pos + m.flatUnit })
      latch := [] } := by
  have hu : (st.window m.flatUnit).length = m.flatUnit := by
    rw [InStream.window_length]
    omega
  obtain ⟨h1, h2⟩ := halves_window m le hn
  rw [runEnc_file hf hj, encodeIter_unit hio hf hj hn (writeUnit_served (by exact hio) (by exact ho) hu),
    h1, h2, hfirst, hsecond, State.writeOn_eq, State.writeOn_eq s]
  cases m <;> cases le <;> rfl

/-- R143: a pass over file `j` begins at its first byte; past the last file there is none to rewind. -/
theorem enterFile_served {j : Nat} (hio : s.ioFaults = []) (hf : s.files = .bound fs) :
    enterFile j s = .ok () (s.setFiles (.bound (fs.modify j InStream.rewind))) := by
  cases hj : fs[j]? with
  | none =>
    have hpast := List.getElem?_eq_none_iff.1 hj
    rw [enterFile_none hf hpast, List.modify_eq_self hpast, ← hf]
    rfl
  | some st =>
    rw [enterFile_some hio hf hj, List.modify_eq_set_getElem?, hj]
    rfl

/-- R142: the pass after the current one is the second over the same file. -/
def State.repeats (s : State) (dup : Bool) : Bool := dup && !s.pass

/-- R142: the file of the next pass. -/
def State.nextFile (s : State) (dup : Bool) : Nat := if s.repeats dup then s.srci else s.srci + 1

/-- R142, R143: the next pass, the same file's second or the next file's first. -/
theorem nextPass_served (hio : s.ioFaults = []) (hf : s.files = .bound fs) :
    nextPass dup s = .ok () { s with
      files := .bound (fs.modify (s.nextFile dup) InStream.rewind)
      srci := s.nextFile dup
      pass := s.repeats dup } := by
  have h : nextPass dup s = if s.repeats dup then enterFile s.srci (s.setPass true)
      else enterFile (s.srci + 1) ((s.setPass false).setSrci (s.srci + 1)) := rfl
  rw [h, State.nextFile]
  cases s.repeats dup with
  | true => exact enterFile_served (by exact hio) (by exact hf)
  | false => exact enterFile_served (by exact hio) (by exact hf)

/-- R141, R143: a short read ends the pass (log 16); the whole next state. -/
theorem runEnc_short (hio : s.ioFaults = []) (hf : s.files = .bound fs) (hj : fs[s.srci]? = some st)
    (hn : st.data.length < st.pos + m.flatUnit) :
    runEnc m le dup s = .next { s with
      files := .bound ((fs.set s.srci (st.advance m.flatUnit)).modify (s.nextFile dup) InStream.rewind)
      srci := s.nextFile dup
      pass := s.repeats dup
      latch := [] } := by
  rw [runEnc_file hf hj, encodeIter_short hio hf hj hn, nextPass_served (by exact hio) rfl]
  rfl

/-- R143, R151: past the last file the operation ends. -/
theorem runEnc_pastEnd (hf : s.files = .bound fs) (hj : fs.length ≤ s.srci) :
    runEnc m le dup s = .next (finish (encUsed m) s) := by
  simp only [runEnc, hf, if_neg (Nat.not_lt.2 hj)]

/-! The CHECK step (R151). -/

theorem dupRewindable_encOf : DupRewindable (encOf m le dup) s ↔ (dup = true → s.seekable (encUsed m) = true) := by
  cases m <;> exact Iff.rfl

theorem modify_rewind_of_start (h : ∀ st ∈ fs, st.pos = 0) (j : Nat) : fs.modify j InStream.rewind = fs := by
  refine List.ext_getElem (List.length_modify ..) fun i _ hi => ?_
  have hrewind : fs[i].rewind = fs[i] := by rw [InStream.rewind, ← h _ (List.getElem_mem hi)]
  rw [List.getElem_modify, hrewind, ite_self]

/-- R151: the checks of an encode passed, its run begins at the start of the first file. -/
theorem checkEnc_passed (hio : s.ioFaults = []) (hf : s.files = .bound fs) (h0 : ∀ st ∈ fs, st.pos = 0)
    (hd : DupRewindable (encOf m le dup) s) (ha : s.portAlias (encUsed m) = false)
    (hl : s.lengthsFit (encUsed m) = true) (hb : s.portsBound (encUsed m) = true) :
    checkEnc m dup s = .next { s with phase := .run } := by
  have hr : s.encRefusal m dup = none := by
    simp [State.encRefusal, State.dupRefusal_none (dupRewindable_encOf.1 hd), State.portRefusal_none ha hl]
  rw [checkEnc, checkPorts_passed _ hr hb, enterFile_served hio hf, modify_rewind_of_start h0, ← hf]
  rfl

/-! The obligations. -/

/-- Settles O30: a whole unit of the file is there, its two bytes go to `TGT` in the order of R55. -/
theorem enc16TranscodesOneUnit : Obligations.Enc16TranscodesOneUnit := by
  intro le dup s fs st o hp hio hf hj ht hn
  refine (stepEnc_run .w16 le dup hp).trans ((runEnc_unit hio hf hj (outsBound_w16.2 ⟨o, ht⟩) hn rfl rfl).trans ?_)
  cases le <;> simp [State.writeOn, ht, Port.map, OutStream.append, firstAt, corr, Mode.flatUnit,
    List.getD_eq_getElem?_getD, State.setTgt]

/-- Settles O31: a whole word of the file is there, its halves go to the lanes in the order of R56. -/
theorem enc32TranscodesOneWord : Obligations.Enc32TranscodesOneWord := by
  intro le dup s fs st l h hp hio hf hj hl hh hn
  have ho : OutsBound .w32 le s := (outsBound_dual (m := .w32) nofun).2 ⟨⟨l, hl⟩, h, hh⟩
  refine (stepEnc_run .w32 le dup hp).trans ((runEnc_unit hio hf hj ho hn rfl rfl).trans ?_)
  cases le <;> simp [State.writeOn, hl, hh, Port.map, OutStream.append, firstAt, secondAt, corr, Mode.flatUnit,
    List.getD_eq_getElem?_getD, State.setLowo, State.setHigho]

/-- Settles O32: a whole pair of the file is there, its bytes go to the lanes in the order of R56. -/
theorem enc8TranscodesOnePair : Obligations.Enc8TranscodesOnePair := by
  intro le dup s fs st l h hp hio hf hj hl hh hn
  have ho : OutsBound .w8 le s := (outsBound_dual (m := .w8) nofun).2 ⟨⟨l, hl⟩, h, hh⟩
  refine (stepEnc_run .w8 le dup hp).trans ((runEnc_unit hio hf hj ho hn rfl rfl).trans ?_)
  cases le <;> simp [State.writeOn, hl, hh, Port.map, OutStream.append, firstAt, secondAt, Mode.flatUnit,
    List.getD_eq_getElem?_getD, State.setLowo, State.setHigho]

/-- Settles O33: the pass that follows is the file's second, or the next file's first. -/
theorem fileEndMovesToNextPass : Obligations.FileEndMovesToNextPass := by
  intro m le dup s fs st hp hio hf hj hn
  have hstep := (stepEnc_run m le dup hp).trans (runEnc_short (le := le) (dup := dup) hio hf hj hn)
  refine ⟨_, (exec_encOf m le dup s).trans hstep, hp, rfl, rfl, rfl, fun hd hpass => ?_, fun hnext => ?_⟩
  · have hr : s.repeats dup = true := by simp [State.repeats, hd, hpass]
    simp only [State.nextFile, hr, if_true, true_and]
    refine ⟨_, rfl, ?_⟩
    obtain ⟨hlt, -⟩ := List.getElem?_eq_some_iff.1 hj
    simp [hlt, InStream.rewind, InStream.advance]
  · have hr : s.repeats dup = false := by
      obtain rfl | hpass := hnext
      · rfl
      · simp [State.repeats, hpass]
    simp only [State.nextFile, hr, Bool.false_eq_true, if_false, true_and]
    intro st' hj'
    refine ⟨_, rfl, ?_⟩
    simp [hj', InStream.rewind]

/-- Settles O34: with nothing to refuse and the files at their start the rewind changes nothing; past the last file the run ends. -/
theorem encodeBeginsAndEnds : Obligations.EncodeBeginsAndEnds := by
  refine ⟨fun m le dup s fs hc hio hf h0 hd ha hl hb => ?_, fun m le dup s fs hp hf hj => ?_⟩
  · rw [exec_encOf, stepEnc_check m le dup hc, checkEnc_passed hio hf h0 hd ha hl hb]
  · rw [exec_encOf, stepEnc_run m le dup hp, runEnc_pastEnd hf hj, finish_eq]

end Sys2Proof.Machine

/-! The run of an encode: unit after unit, pass after pass, file after file (41_encode.md R143, R145, R147, R149). -/

namespace Sys2Proof.Machine

variable {s t t' : State} {m : Mode} {le dup p : Bool} {j k : Nat} {d f g : List Byte}

/-! The files of a pass (R37). -/

/-- The port is bound to files of the bytes `ds`, the cursor of file `j` at `n`. -/
def FilesAt (q : Port (List InStream)) (ds : List (List Byte)) (j n : Nat) : Prop :=
  ∃ fs, q = .bound fs ∧ fs.map InStream.data = ds ∧ ∀ st, fs[j]? = some st → st.pos = n

theorem map_modify_of_eq {α β : Type} {f : α → β} {r : α → α} (hf : ∀ a, f (r a) = f a) (l : List α)
    (j : Nat) : (l.modify j r).map f = l.map f := by
  refine List.ext_getElem (by simp) fun i _ _ => ?_
  rw [List.getElem_map, List.getElem_map, List.getElem_modify]
  split
  · exact hf _
  · rfl

/-- The file of a pass that is not past the last file. -/
theorem FilesAt.current {q : Port (List InStream)} {ds : List (List Byte)} {n : Nat} (h : FilesAt q ds j n)
    (hj : ds[j]? = some d) : ∃ fs st, q = .bound fs ∧ fs.map InStream.data = ds ∧ fs[j]? = some st ∧
      st.data = d ∧ st.pos = n := by
  obtain ⟨fs, hq, rfl, hpos⟩ := h
  rw [List.getElem?_map, Option.map_eq_some_iff] at hj
  obtain ⟨st, hst, hd⟩ := hj
  exact ⟨fs, st, hq, rfl, hst, hd, hpos st hst⟩

/-- R62: a unit read moves the cursor of its file. -/
theorem filesAt_set {fs : List InStream} {st : InStream} (hj : fs[j]? = some st) (n : Nat) :
    FilesAt (.bound (fs.set j { st with pos := n })) (fs.map InStream.data) j n := by
  refine ⟨_, rfl, map_set_of_eq hj rfl, fun st' h => ?_⟩
  rw [List.getElem?_set_self (List.getElem?_eq_some_iff.1 hj).1, Option.some.injEq] at h
  rw [← h]

/-- R143: a pass begins at the first byte of its file. -/
theorem filesAt_modify {fs : List InStream} (i : Nat) :
    FilesAt (.bound (fs.modify i InStream.rewind)) (fs.map InStream.data) i 0 := by
  refine ⟨_, rfl, map_modify_of_eq (r := InStream.rewind) (fun _ => rfl) fs i, fun st h => ?_⟩
  rw [List.getElem?_modify_eq] at h
  obtain ⟨st', -, rfl⟩ := Option.map_eq_some_iff.1 h
  rfl

/-! What stands on the outputs (R56). -/

/-- The port is bound to an output that holds the bytes `f`. -/
def Holds (q : Port OutStream) (f : List Byte) : Prop := ∃ o, q = .bound o ∧ o.out = f

theorem Holds.append {q : Port OutStream} (h : Holds q f) (f' : List Byte) :
    Holds (q.map (·.append f')) (f ++ f') := by
  obtain ⟨o, rfl, rfl⟩ := h
  exact ⟨_, rfl, rfl⟩

theorem Holds.writtenTo {q : Port OutStream} (h : Holds q f) : writtenTo q = f := by
  obtain ⟨o, rfl, rfl⟩ := h
  rfl

/-- R27: a `CMD` write empties a bound output. -/
theorem holds_emptied {q : Port OutStream} (h : ∃ o, q = .bound o) :
    Holds (q.map fun o => { o with out := [] }) [] := by
  obtain ⟨o, rfl⟩ := h
  exact ⟨_, rfl, rfl⟩

/-- The outputs of an encode of mode `m`: that of the first-role lane holds `f`, that of the second `g`. -/
def OutsHold (m : Mode) (le : Bool) (f g : List Byte) (t : State) : Prop :=
  Holds (firstPort m le t) f ∧ (m ≠ .w16 → Holds (secondPort m le t) g)

theorem OutsHold.outsBound (h : OutsHold m le f g t) : OutsBound m le t :=
  ⟨h.1.imp fun _ => And.left, fun hm => (h.2 hm).imp fun _ => And.left⟩

theorem OutsHold.congr (h : OutsHold m le f g t) (ht : t'.tgt = t.tgt) (hl : t'.lowo = t.lowo)
    (hh : t'.higho = t.higho) : OutsHold m le f g t' := by
  cases m <;> simpa only [OutsHold, firstPort, secondPort, ht, hl, hh] using h

theorem OutsHold.writeOn (h : OutsHold m le f g t) (f' g' : List Byte) :
    OutsHold m le (f ++ f') (g ++ g') (t.writeOn m le f' g') := by
  refine ⟨?_, fun hm => ?_⟩
  · rw [firstPort_writeOn]
    exact h.1.append f'
  · rw [secondPort_writeOn hm]
    exact (h.2 hm).append g'

theorem OutsBound.start (h : OutsBound m le s) (w : CmdWord) : OutsHold m le [] [] (s.start w) := by
  obtain ⟨h1, h2⟩ := h
  cases m with
  | w16 => exact ⟨holds_emptied h1, fun hm => absurd rfl hm⟩
  | w32 | w8 => cases le <;> exact ⟨holds_emptied h1, fun hm => holds_emptied (h2 hm)⟩

/-- R122: the release of the outputs leaves what was written. -/
theorem OutsHold.finish (h : OutsHold m le f g t) (u : Used) :
    writtenTo (firstPort m le (Machine.finish u t)) = f ∧
      (m ≠ .w16 → writtenTo (secondPort m le (Machine.finish u t)) = g) := by
  have hfirst : writtenTo (firstPort m le (Machine.finish u t)) = writtenTo (firstPort m le t) := by
    cases m <;> cases le <;> exact writtenTo_releaseIf _ _
  have hsecond : writtenTo (secondPort m le (Machine.finish u t)) = writtenTo (secondPort m le t) := by
    cases m <;> cases le <;> exact writtenTo_releaseIf _ _
  exact ⟨hfirst.trans h.1.writtenTo, fun hm => hsecond.trans (h.2 hm).writtenTo⟩

@[simp] theorem firstPort_note (m : Mode) (le : Bool) (s : State) : firstPort m le s.note = firstPort m le s := by
  cases m <;> rfl

@[simp] theorem secondPort_note (m : Mode) (le : Bool) (s : State) : secondPort m le s.note = secondPort m le s := by
  cases m <;> rfl

/-! The ports of an encode (R89). -/

theorem encFiles_bound (hb : s.portsBound (encUsed m) = true) : ∃ fs, s.files = .bound fs := by
  have h : s.files.isBound = true := by cases m <;> simp_all [State.portsBound, encUsed, Used.none]
  exact Port.bound_of_isBound h

theorem encOuts_bound (hb : s.portsBound (encUsed m) = true) : OutsBound m le s := by
  by_cases hm : m = .w16
  · subst hm
    have h : s.tgt.isBound = true := by simp_all [State.portsBound, encUsed, Used.none]
    exact outsBound_w16.2 (Port.bound_of_isBound h)
  · have h : s.lowo.isBound = true ∧ s.higho.isBound = true := by
      cases m <;> simp_all [State.portsBound, encUsed, Used.none]
    exact (outsBound_dual hm).2 ⟨Port.bound_of_isBound h.1, Port.bound_of_isBound h.2⟩

/-! The run. -/

/-- An encode that was started in `s` is in a pass over file `j` (its second where `p`), has moved `k` units of it, and has written `f` and `g` so far. -/
structure Encoding (m : Mode) (le dup : Bool) (s : State) (j : Nat) (p : Bool) (k : Nat) (f g : List Byte) (t : State) :
    Prop where
  host : t.host = []
  served : t.ioFaults = []
  phase : t.phase = .run
  cmd : t.cmd = encode (encOf m le dup)
  errcode : t.errcode = 0
  srci : t.srci = j
  pass : t.pass = p
  files : FilesAt t.files (fileData s) j (m.flatUnit * k)
  outs : OutsHold m le f g t

theorem Encoding.step_eq (h : Encoding m le dup s j p k f g t) : step t = noted (runEnc m le dup t) := by
  have hb : t.busy = true := busy_iff.2 (.inr h.phase)
  rw [step_quiet h.host, transcoderStep_ok hb (h.cmd ▸ decode_encode (wf_encOf m le dup)), exec_encOf,
    stepEnc_run m le dup h.phase]

/-- R143: one unit more of the file. -/
theorem Encoding.step_unit (h : Encoding m le dup s j p k f g t) (hd : (fileData s)[j]? = some d)
    (hk : k < d.length / m.flatUnit) :
    ∃ t', step t = .next t' ∧
      Encoding m le dup s j p (k + 1) (f ++ firstAt m le d k) (g ++ secondAt m le d k) t' := by
  obtain ⟨fs, st, hf, hdata, hj, rfl, hpos⟩ := h.files.current hd
  have hn : st.pos + m.flatUnit ≤ st.data.length := by
    rw [hpos, ← Nat.mul_succ, Nat.mul_comm]
    exact (Nat.le_div_iff_mul_le m.flatUnit_pos).1 hk
  have hrun := runEnc_unit (dup := dup) h.served hf (h.srci ▸ hj) h.outs.outsBound hn
    (hpos ▸ firstAt_drop m le st.data k) (hpos ▸ secondAt_drop m le st.data k)
  rw [State.writeOn_eq] at hrun
  refine ⟨_, by rw [h.step_eq, hrun, noted_next], ?_⟩
  exact {
    host := h.host
    served := h.served
    phase := h.phase
    cmd := h.cmd
    errcode := h.errcode
    srci := h.srci
    pass := h.pass
    files := by
      rw [← hdata, Nat.mul_succ, ← hpos]
      exact h.srci ▸ filesAt_set hj _
    outs := (h.outs.writeOn _ _).congr rfl rfl rfl }

/-- R141, R142: after the last whole unit of the file the next pass begins. -/
theorem Encoding.step_passEnd (h : Encoding m le dup s j p k f g t) (hd : (fileData s)[j]? = some d)
    (hk : ¬ k < d.length / m.flatUnit) :
    ∃ t', step t = .next t' ∧ Encoding m le dup s (if dup && !p then j else j + 1) (dup && !p) 0 f g t' := by
  obtain ⟨fs, st, hf, hdata, hj, rfl, hpos⟩ := h.files.current hd
  have hn : st.data.length < st.pos + m.flatUnit := by
    rw [hpos, ← Nat.mul_succ, Nat.mul_comm]
    exact (Nat.div_lt_iff_lt_mul m.flatUnit_pos).1 (Nat.lt_succ_of_le (Nat.not_lt.1 hk))
  have hrep : t.repeats dup = (dup && !p) := by rw [State.repeats, h.pass]
  have hnext : t.nextFile dup = if dup && !p then j else j + 1 := by rw [State.nextFile, hrep, h.srci]
  refine ⟨_, by rw [h.step_eq, runEnc_short h.served hf (h.srci ▸ hj) hn, noted_next], ?_⟩
  exact {
    host := h.host
    served := h.served
    phase := h.phase
    cmd := h.cmd
    errcode := h.errcode
    srci := hnext
    pass := hrep
    files := by
      rw [← hdata, ← map_set_of_eq (f := InStream.data) (b := st.advance m.flatUnit) hj rfl, ← hnext]
      exact h.srci ▸ filesAt_modify _
    outs := h.outs.congr rfl rfl rfl }

/-- R145, R147, R149: what one pass over a file of the bytes `d` writes of units cut by `F`. -/
def passOf (m : Mode) (F : List Byte → Nat → List Byte) (d : List Byte) : List Byte :=
  (List.range (d.length / m.flatUnit)).flatMap (F d)

theorem encodedFirst_eq (m : Mode) (le dup : Bool) (ds : List (List Byte)) :
    encodedFirst m le dup ds = ds.flatMap fun d => rep dup (passOf m (firstAt m le) d) := rfl

theorem encodedSecond_eq (m : Mode) (le dup : Bool) (ds : List (List Byte)) :
    encodedSecond m le dup ds = ds.flatMap fun d => rep dup (passOf m (secondAt m le) d) := rfl

/-- R143: the units of a pass, as many as the file has. -/
theorem Encoding.units (h : Encoding m le dup s j p 0 f g t) (hd : (fileData s)[j]? = some d) :
    ∀ n, n ≤ d.length / m.flatUnit → ∃ t', Steps t t' ∧ Encoding m le dup s j p n
      (f ++ (List.range n).flatMap (firstAt m le d)) (g ++ (List.range n).flatMap (secondAt m le d)) t' := by
  intro n
  induction n with
  | zero => exact fun _ => ⟨t, Steps.refl t, by simpa using h⟩
  | succ n ih =>
    intro hn
    obtain ⟨t1, hsteps, h1⟩ := ih (Nat.le_of_succ_le hn)
    obtain ⟨t2, hstep, h2⟩ := h1.step_unit hd hn
    refine ⟨t2, hsteps.trans (Steps.head hstep (Steps.refl t2)), ?_⟩
    simpa [List.range_succ] using h2

/-- R143: a whole pass over a file. -/
theorem Encoding.onePass (h : Encoding m le dup s j p 0 f g t) (hd : (fileData s)[j]? = some d) :
    ∃ t', Steps t t' ∧ Encoding m le dup s (if dup && !p then j else j + 1) (dup && !p) 0
      (f ++ passOf m (firstAt m le) d) (g ++ passOf m (secondAt m le) d) t' := by
  obtain ⟨t1, hsteps, h1⟩ := h.units hd _ (Nat.le_refl _)
  obtain ⟨t2, hstep, h2⟩ := h1.step_passEnd hd (Nat.lt_irrefl _)
  exact ⟨t2, hsteps.trans (Steps.head hstep (Steps.refl t2)), h2⟩

/-- R142: a file is encoded in one pass, or with `DUP` in two. -/
theorem Encoding.oneFile (h : Encoding m le dup s j false 0 f g t) (hd : (fileData s)[j]? = some d) :
    ∃ t', Steps t t' ∧ Encoding m le dup s (j + 1) false 0
      (f ++ rep dup (passOf m (firstAt m le) d)) (g ++ rep dup (passOf m (secondAt m le) d)) t' := by
  obtain ⟨t1, hsteps, h1⟩ := h.onePass hd
  cases dup with
  | false => exact ⟨t1, hsteps, h1⟩
  | true =>
    obtain ⟨t2, hsteps2, h2⟩ := h1.onePass hd
    refine ⟨t2, hsteps.trans hsteps2, ?_⟩
    simpa [rep] using h2

/-- R27, R151: the first step of an encode begins its run. -/
theorem Encoding.begins (hL : Launch (encOf m le dup) s) :
    ∃ t, step (s.start (encode (encOf m le dup))) = .next t ∧ Encoding m le dup s 0 false 0 [] [] t := by
  have hb : s.portsBound (encUsed m) = true := by simpa using hL.portsBound
  obtain ⟨fs, hf⟩ := encFiles_bound hb
  have hf' : (s.start (encode (encOf m le dup))).files = .bound (fs.map InStream.rewind) := by
    rw [State.start_files, hf]
    rfl
  have h0 : ∀ st ∈ fs.map InStream.rewind, st.pos = 0 := by simp [InStream.rewind]
  have hcheck : checkEnc m dup (s.start (encode (encOf m le dup))) =
      .next { s.start (encode (encOf m le dup)) with phase := .run } :=
    checkEnc_passed (le := le) hL.noIOFault hf' h0
      (dupRewindable_encOf.2 (by simpa using dupRewindable_encOf.1 hL.dupRewindable))
      (by simpa using hL.noPortAlias) (by simpa using hL.lengthsFit) (by simpa using hb)
  refine ⟨_, by rw [step_start hL.hostQuiet (wf_encOf m le dup), exec_encOf, stepEnc_check m le dup rfl, hcheck,
    noted_next], ?_⟩
  exact {
    host := hL.hostQuiet
    served := hL.noIOFault
    phase := rfl
    cmd := rfl
    errcode := rfl
    srci := rfl
    pass := rfl
    files := ⟨_, hf', by simp [fileData, hf, InStream.rewind, Function.comp_def], fun st hst =>
      h0 st (List.mem_of_getElem? hst)⟩
    outs := ((encOuts_bound hb).start (encode (encOf m le dup))).congr rfl rfl rfl }

/-- R143: the run of an encode comes to the start of every file, and past the last one. -/
theorem Encoding.reached (hL : Launch (encOf m le dup) s) :
    ∀ n, n ≤ (fileData s).length → ∃ t, Steps (s.start (encode (encOf m le dup))) t ∧
      Encoding m le dup s n false 0 (encodedFirst m le dup ((fileData s).take n))
        (encodedSecond m le dup ((fileData s).take n)) t := by
  intro n
  induction n with
  | zero =>
    intro _
    obtain ⟨t, hstep, h⟩ := Encoding.begins hL
    exact ⟨t, Steps.head hstep (Steps.refl t), h⟩
  | succ n ih =>
    intro hn
    obtain ⟨t, hsteps, h⟩ := ih (Nat.le_of_succ_le hn)
    obtain ⟨t', hsteps', h'⟩ := h.oneFile (List.getElem?_eq_getElem hn)
    refine ⟨t', hsteps.trans hsteps', ?_⟩
    rw [encodedFirst_eq, encodedSecond_eq, ← List.take_append_getElem hn, List.flatMap_append, List.flatMap_append,
      List.flatMap_singleton, List.flatMap_singleton]
    exact h'

/-- R151: past the last file the run ends. -/
theorem Encoding.step_last (h : Encoding m le dup s (fileData s).length p k f g t) :
    step t = .next (finish (encUsed m) t).note := by
  obtain ⟨fs, hf, hdata, -⟩ := h.files
  have hpast : fs.length ≤ t.srci := by rw [h.srci, ← hdata, List.length_map]
  rw [h.step_eq, runEnc_pastEnd hf hpast, noted_next]

/-- R145, R147, R149: a whole encode. -/
theorem encode_ends (hL : Launch (encOf m le dup) s) :
    ∃ t, EndsAt (s.start (encode (encOf m le dup))) t ∧ t.phase = .done ∧ t.errcode = 0 ∧
      writtenTo (firstPort m le t) = encodedFirst m le dup (fileData s) ∧
      (m ≠ .w16 → writtenTo (secondPort m le t) = encodedSecond m le dup (fileData s)) := by
  obtain ⟨t, hsteps, h⟩ := Encoding.reached hL _ (Nat.le_refl _)
  rw [List.take_length] at h
  refine ⟨_, ⟨hsteps.trans (Steps.head h.step_last (Steps.refl _)), rfl⟩, rfl, h.errcode, ?_⟩
  simpa only [firstPort_note, secondPort_note] using h.outs.finish (encUsed m)

/-- Settles O35: the run takes the files one by one, each in one pass or two, and ends past the last. -/
theorem encodeWritesTheClosedForm : Obligations.EncodeWritesTheClosedForm := by
  intro m le dup s hL
  exact encode_ends hL

end Sys2Proof.Machine

/-! Encode and decode undo each other on whole units (41_encode.md R152, R153). -/

namespace Sys2Proof.Machine

variable {s t : State} {m : Mode} {le dup : Bool} {d f g : List Byte} {i n : Nat}

/-! Pieces of a list of bytes: what a stream gives at its unit `i`. -/

/-- The `u` bytes of unit `i`. -/
def piece (u : Nat) (d : List Byte) (i : Nat) : List Byte := (d.drop (u * i)).take u

/-- The units of a list of bytes, one after the other, are the list. -/
theorem flatMap_piece {u : Nat} (h : d.length = n * u) : (List.range n).flatMap (piece u d) = d := by
  have htake : ∀ k, (List.range k).flatMap (piece u d) = d.take (u * k) := by
    intro k
    induction k with
    | zero => simp
    | succ k ih =>
      rw [List.range_succ, List.flatMap_append, ih, List.flatMap_singleton, Nat.mul_succ, List.take_add, piece]
  rw [htake, List.take_of_length_le (by rw [h, Nat.mul_comm])]

/-- A list of `n` units has all of unit `i`, if that is one of them. -/
theorem unit_le_length {u : Nat} (h : d.length = n * u) (hi : i < n) : u * i + u ≤ d.length := by
  rw [h, ← Nat.mul_succ, Nat.mul_comm]
  exact Nat.mul_le_mul_right u hi

theorem piece_append_left {u : Nat} (d' : List Byte) (h : u * i + u ≤ d.length) :
    piece u (d ++ d') i = piece u d i := by
  rw [piece, List.drop_append_of_le_length (by omega), List.take_append_of_le_length (by rw [List.length_drop]; omega)]
  rfl

theorem piece_append_right {u : Nat} (d' : List Byte) (h : d.length = n * u) :
    piece u (d ++ d') (n + i) = piece u d' i := by
  rw [piece, Nat.mul_add, Nat.mul_comm u n, ← h, List.drop_length_add_append]
  rfl

theorem piece_one (h : i + 1 ≤ d.length) : piece 1 d i = [d.getD i 0] := by
  simpa [InStream.window, piece] using InStream.window_one (st := ⟨[], d, i, false⟩) h

theorem piece_two (h : 2 * i + 2 ≤ d.length) : piece 2 d i = [d.getD (2 * i) 0, d.getD (2 * i + 1) 0] :=
  InStream.window_two (st := ⟨[], d, 2 * i, false⟩) h

theorem piece_four (h : 4 * i + 4 ≤ d.length) :
    piece 4 d i = [d.getD (4 * i) 0, d.getD (4 * i + 1) 0, d.getD (4 * i + 2) 0, d.getD (4 * i + 3) 0] :=
  InStream.window_four (st := ⟨[], d, 4 * i, false⟩) h

/-! R57: one unit, encoded and decoded. -/

theorem firstAt_length (m : Mode) (le : Bool) (d : List Byte) (i : Nat) : (firstAt m le d i).length = m.laneUnit := by
  cases m <;> simp [firstAt, Mode.laneUnit]

theorem secondAt_length (hm : m ≠ .w16) (le : Bool) (d : List Byte) (i : Nat) :
    (secondAt m le d i).length = m.laneUnit := by
  cases m with
  | w16 => exact absurd rfl hm
  | w32 | w8 => simp [secondAt, Mode.laneUnit]

/-- R57: a flat unit is made of the lane units at its place; in `W16` there is no second lane. -/
theorem flatUnitAt_piece {a b : List Byte} (hf : piece m.laneUnit f i = a)
    (hg : m ≠ .w16 → piece m.laneUnit g i = b) : flatUnitAt m le f g i = flatUnitAt m le a b 0 := by
  subst hf
  cases m with
  | w16 => simp [flatUnitAt, piece, Mode.laneUnit, List.getD_eq_getElem?_getD]
  | w32 | w8 =>
    rw [← hg nofun]
    simp [flatUnitAt, piece, Mode.laneUnit, List.getD_eq_getElem?_getD]

theorem flatUnitAt_congr {f' g' : List Byte} {i' : Nat} (hf : piece m.laneUnit f i = piece m.laneUnit f' i')
    (hg : m ≠ .w16 → piece m.laneUnit g i = piece m.laneUnit g' i') :
    flatUnitAt m le f g i = flatUnitAt m le f' g' i' :=
  (flatUnitAt_piece hf hg).trans (flatUnitAt_piece rfl fun _ => rfl).symm

/-- R57: the halves of a flat unit depend on its bytes alone. -/
theorem halves_piece {u : List Byte} (h : piece m.flatUnit d i = u) :
    firstAt m le d i = firstAt m le u 0 ∧ secondAt m le d i = secondAt m le u 0 := by
  subst h
  cases m <;> simp [firstAt, secondAt, piece, Mode.flatUnit, List.getD_eq_getElem?_getD]

/-- R152: the halves of a flat unit make it again. -/
theorem flatUnitAt_halves (h : m.flatUnit * i + m.flatUnit ≤ d.length) :
    flatUnitAt m le (firstAt m le d i) (secondAt m le d i) 0 = piece m.flatUnit d i := by
  cases m with
  | w16 => rw [Mode.flatUnit, piece_two h]; cases le <;> rfl
  | w32 => rw [Mode.flatUnit, piece_four h]; cases le <;> rfl
  | w8 => rw [Mode.flatUnit, piece_two h]; cases le <;> rfl

/-- R153: the halves of a flat unit are the lane units it was made of. -/
theorem firstAt_flatUnitAt (h : m.laneUnit * i + m.laneUnit ≤ f.length) :
    firstAt m le (flatUnitAt m le f g i) 0 = piece m.laneUnit f i := by
  cases m with
  | w16 | w32 => rw [Mode.laneUnit, piece_two h]; cases le <;> rfl
  | w8 =>
    rw [Mode.laneUnit, piece_one (by simpa [Mode.laneUnit] using h)]
    rfl

theorem secondAt_flatUnitAt (hm : m ≠ .w16) (h : m.laneUnit * i + m.laneUnit ≤ g.length) :
    secondAt m le (flatUnitAt m le f g i) 0 = piece m.laneUnit g i := by
  cases m with
  | w16 => exact absurd rfl hm
  | w32 => rw [Mode.laneUnit, piece_two h]; cases le <;> rfl
  | w8 =>
    rw [Mode.laneUnit, piece_one (by simpa [Mode.laneUnit] using h)]
    rfl

/-! R152: the lanes that an encode writes decode to the files. -/

/-- The lanes `f` and `g` hold whole units, equally many, and decode to `d`; in `W16` there is no second lane. -/
def DecodesTo (m : Mode) (le : Bool) (f g d : List Byte) : Prop :=
  ∃ n, f.length = n * m.laneUnit ∧ (m ≠ .w16 → g.length = n * m.laneUnit) ∧ decoded m le f g n = d

theorem DecodesTo.decoded_eq (h : DecodesTo m le f g d) : decoded m le f g (unitsOf m f) = d := by
  obtain ⟨n, hf, -, hd⟩ := h
  rwa [unitsOf, hf, Nat.mul_div_cancel _ m.laneUnit_pos]

theorem DecodesTo.nil : DecodesTo m le [] [] [] := ⟨0, by simp, by simp, rfl⟩

theorem DecodesTo.append {f' g' d' : List Byte} (h : DecodesTo m le f g d) (h' : DecodesTo m le f' g' d') :
    DecodesTo m le (f ++ f') (g ++ g') (d ++ d') := by
  obtain ⟨n, hf, hg, rfl⟩ := h
  obtain ⟨k, hf', hg', rfl⟩ := h'
  refine ⟨n + k, by rw [List.length_append, hf, hf', Nat.add_mul],
    fun hm => by rw [List.length_append, hg hm, hg' hm, Nat.add_mul], ?_⟩
  rw [decoded, List.range_add, List.flatMap_append, List.flatMap_map]
  refine congrArg₂ _ (List.flatMap_congr fun i hi => ?_) (List.flatMap_congr fun i _ => ?_)
  · have hi := List.mem_range.1 hi
    exact flatUnitAt_congr (piece_append_left f' (unit_le_length hf hi))
      fun hm => piece_append_left g' (unit_le_length (hg hm) hi)
  · exact flatUnitAt_congr (piece_append_right f' hf) fun hm => piece_append_right g' (hg hm)

/-- R145, R152: one pass over a file of whole units. -/
theorem decodesTo_pass (m : Mode) (le : Bool) (hd : d.length % m.flatUnit = 0) :
    DecodesTo m le (passOf m (firstAt m le) d) (passOf m (secondAt m le) d) d := by
  have hfirst := firstAt_length m le d
  have hn : d.length / m.flatUnit * m.flatUnit = d.length := Nat.div_mul_cancel (Nat.dvd_of_mod_eq_zero hd)
  refine ⟨d.length / m.flatUnit, length_flatMap_range hfirst _,
    fun hm => length_flatMap_range (secondAt_length hm le d) _, ?_⟩
  refine (List.flatMap_congr fun i hi => ?_).trans (flatMap_piece hn.symm)
  have hi := List.mem_range.1 hi
  exact (flatUnitAt_piece (piece_of_flatMap_range hfirst hi)
    fun hm => piece_of_flatMap_range (secondAt_length hm le d) hi).trans (flatUnitAt_halves (unit_le_length hn.symm hi))

theorem DecodesTo.rep (h : DecodesTo m le f g d) (dup : Bool) :
    DecodesTo m le (rep dup f) (rep dup g) (rep dup d) := by
  cases dup with
  | false => exact h
  | true => exact h.append h

theorem decodesTo_encoded (le dup : Bool) {ds : List (List Byte)} (h : ∀ d ∈ ds, d.length % m.flatUnit = 0) :
    DecodesTo m le (encodedFirst m le dup ds) (encodedSecond m le dup ds) (ds.flatMap (rep dup)) := by
  rw [encodedFirst_eq, encodedSecond_eq]
  induction ds with
  | nil => exact .nil
  | cons d ds ih =>
    rw [List.forall_mem_cons] at h
    simpa only [List.flatMap_cons] using ((decodesTo_pass m le h.1).rep dup).append (ih h.2)

/-! R153: the target that a decode writes encodes to the lanes. -/

theorem encoded_decoded (hf : f.length = n * m.laneUnit) (hg : m ≠ .w16 → g.length = n * m.laneUnit) :
    encodedFirst m le false [decoded m le f g n] = f ∧
      (m ≠ .w16 → encodedSecond m le false [decoded m le f g n] = g) := by
  have hunit := flatUnitAt_length m le f g
  have hn : (decoded m le f g n).length / m.flatUnit = n := by
    rw [decoded, length_flatMap_range hunit, Nat.mul_div_cancel _ m.flatUnit_pos]
  have hhalves := fun i (hi : i ∈ List.range n) =>
    halves_piece (m := m) (le := le) (piece_of_flatMap_range hunit (List.mem_range.1 hi))
  simp only [encodedFirst_eq, encodedSecond_eq, passOf, List.flatMap_singleton, rep, Bool.false_eq_true, if_false, hn]
  refine ⟨(List.flatMap_congr fun i hi => ?_).trans (flatMap_piece hf),
    fun hm => (List.flatMap_congr fun i hi => ?_).trans (flatMap_piece (hg hm))⟩
  · exact (hhalves i hi).1.trans (firstAt_flatUnitAt (unit_le_length hf (List.mem_range.1 hi)))
  · exact (hhalves i hi).2.trans (secondAt_flatUnitAt hm (unit_le_length (hg hm) (List.mem_range.1 hi)))

/-! The two whole runs. -/

/-- R56: the lanes of a decode are the outputs of an encode, said by port and by role. -/
theorem lanes_eq_outputs_iff (m : Mode) (le : Bool) (s t : State) :
    (m = .w16 → bytesOf s.src = writtenTo t.tgt) ∧
        (m ≠ .w16 → bytesOf s.low = writtenTo t.lowo ∧ bytesOf s.high = writtenTo t.higho) ↔
      firstData m le s = writtenTo (firstPort m le t) ∧
        (m ≠ .w16 → secondData m le s = writtenTo (secondPort m le t)) := by
  cases m with
  | w16 => simp [firstData, firstPort]
  | w32 | w8 => cases le <;> simp [firstData, secondData, firstPort, secondPort, and_comm]

/-- R56, R120: equal lanes, said by role. -/
theorem lanesEqual_iff (m : Mode) (le : Bool) (s : State) :
    LanesEqual m s ↔ (m ≠ .w16 → (firstData m le s).length = (secondData m le s).length) := by
  cases m with
  | w16 => simp [LanesEqual]
  | w32 | w8 => cases le <;> simp [LanesEqual, firstData, secondData, eq_comm]

/-- In `W16` there is no second lane. -/
theorem DecodesTo.congr_second {g' : List Byte} (h : DecodesTo m le f g d) (hg' : m ≠ .w16 → g' = g) :
    DecodesTo m le f g' d := by
  cases m with
  | w16 =>
    obtain ⟨n, hf, -, hd⟩ := h
    exact ⟨n, hf, fun hm => absurd rfl hm, hd⟩
  | w32 | w8 => rwa [hg' nofun]

theorem DecodesTo.lanesEqual (h : DecodesTo m le (firstData m le s) (secondData m le s) d) : LanesEqual m s := by
  obtain ⟨n, hf, hg, -⟩ := h
  exact (lanesEqual_iff m le s).2 fun hm => hf.trans (hg hm).symm

/-- Settles O36: an encode writes lanes that decode to its files, and a decode of them does that. -/
theorem decodeUndoesEncode : Obligations.DecodeUndoesEncode := by
  intro m le dup s1 hL hwhole
  obtain ⟨t1, hends, hdone, -, hfirst, hsecond⟩ := encode_ends hL
  refine ⟨t1, hends, hdone, fun s2 hL2 hsrc hlanes => ?_⟩
  obtain ⟨hf, hg⟩ := (lanes_eq_outputs_iff m le s2 t1).1 ⟨hsrc, hlanes⟩
  have hdec : DecodesTo m le (firstData m le s2) (secondData m le s2) ((fileData s1).flatMap (rep dup)) := by
    rw [hf, hfirst]
    exact (decodesTo_encoded le dup hwhole).congr_second fun hm => (hg hm).trans (hsecond hm)
  obtain ⟨t2, hends2, hdone2, -, -, hwritten⟩ := decode_ends hL2 hdec.lanesEqual
  exact ⟨t2, hends2, hdone2, hwritten.trans hdec.decoded_eq⟩

/-- Settles O37: a decode writes the lanes' units, and an encode of that takes each unit apart again. -/
theorem encodeUndoesDecode : Obligations.EncodeUndoesDecode := by
  intro m le s1 hL hwhole he
  obtain ⟨t1, hends, hdone, -, -, hwritten⟩ := decode_ends hL he
  refine ⟨t1, hends, hdone, fun s2 hL2 hfile => ?_⟩
  obtain ⟨t2, hends2, hdone2, -, hfirst, hsecond⟩ := encode_ends hL2
  have hlen : (firstData m le s1).length = unitsOf m (firstData m le s1) * m.laneUnit :=
    (Nat.div_mul_cancel (Nat.dvd_of_mod_eq_zero hwhole)).symm
  obtain ⟨h1, h2⟩ := encoded_decoded (le := le) hlen fun hm => ((lanesEqual_iff m le s1).1 he hm).symm.trans hlen
  rw [hfile, hwritten] at hfirst hsecond
  obtain ⟨hsrc, hlanes⟩ := (lanes_eq_outputs_iff m le s1 t2).2
    ⟨(hfirst.trans h1).symm, fun hm => ((hsecond hm).trans (h2 hm)).symm⟩
  exact ⟨t2, hends2, hdone2, fun hm => (hsrc hm).symm, fun hm => (hlanes hm).imp Eq.symm Eq.symm⟩

end Sys2Proof.Machine

/-! The name function and `FNAME` (42_fragment.md R170 to R173). -/

namespace Sys2Proof.Machine

/-! The numeral (R173). -/

/-- R173: the byte of a decimal digit. -/
def digitByte (d : Nat) : Byte := BitVec.ofNat 8 (0x30 + d)

theorem digitByte_toNat {d : Nat} (h : d < 10) : (digitByte d).toNat = 0x30 + d := by
  rw [digitByte, BitVec.toNat_ofNat, Nat.mod_eq_of_lt (by omega)]

/-- With enough fuel, the digits of a positive number stand in front of `acc`, the most significant first. -/
theorem decDigits_eq_digits {fuel n : Nat} (acc : List Byte) (h0 : 0 < n) (hf : n < 2 ^ fuel) :
    decDigits fuel n acc = ((Nat.digits 10 n).map digitByte).reverse ++ acc := by
  induction fuel generalizing n acc with
  | zero => omega
  | succ fuel ih =>
    rw [Nat.digits_def' (by decide) h0, decDigits]
    by_cases hlast : n / 10 = 0
    · simp [hlast, digitByte]
    · rw [if_neg hlast, ih _ (Nat.pos_of_ne_zero hlast) (by omega)]
      simp [digitByte]

/-- R173: the numeral of a positive number is its decimal digits, the most significant first. -/
theorem dec_eq_digits {n : Nat} (h0 : 0 < n) : dec n = ((Nat.digits 10 n).map digitByte).reverse := by
  rw [dec, decDigits_eq_digits [] h0 Nat.lt_log2_self, List.append_nil]

theorem dec_zero : dec 0 = [0x30] := by decide

/-- R173: a numeral is made of the bytes of digits. -/
theorem eq_digitByte_of_mem_dec {n : Nat} {c : Byte} (hc : c ∈ dec n) : ∃ d < 10, c = digitByte d := by
  obtain rfl | h0 := Nat.eq_zero_or_pos n
  · rw [dec_zero, List.mem_singleton] at hc
    exact ⟨0, by decide, hc⟩
  · rw [dec_eq_digits h0, List.mem_reverse, List.mem_map] at hc
    obtain ⟨d, hd, rfl⟩ := hc
    exact ⟨d, Nat.digits_lt_base (by decide) hd, rfl⟩

/-- R173: the number that a list of digit bytes stands for, the most significant first. -/
def numeralValue (b : List Byte) : Nat := b.foldl (fun v c => 10 * v + (c.toNat - 0x30)) 0

theorem numeralValue_digits {ds : List Nat} (h : ∀ d ∈ ds, d < 10) :
    numeralValue ((ds.map digitByte).reverse) = Nat.ofDigits 10 ds := by
  rw [numeralValue, List.foldl_reverse]
  induction ds with
  | nil => rfl
  | cons d ds ih =>
    rw [List.forall_mem_cons] at h
    rw [List.map_cons, List.foldr_cons, ih h.2, digitByte_toNat h.1, Nat.ofDigits_cons]
    omega

/-- R173: a numeral stands for its number. -/
theorem numeralValue_dec (n : Nat) : numeralValue (dec n) = n := by
  obtain rfl | h0 := Nat.eq_zero_or_pos n
  · rfl
  · rw [dec_eq_digits h0, numeralValue_digits fun _ => Nat.digits_lt_base (by decide), Nat.ofDigits_digits]

theorem dec_ne_nil (n : Nat) : dec n ≠ [] := by
  obtain rfl | h0 := Nat.eq_zero_or_pos n
  · decide
  · simpa [dec_eq_digits h0, Nat.digits_eq_nil_iff_eq_zero] using h0.ne'

/-- R173: the numeral of a positive number has no leading zero. -/
theorem dec_head_ne_zero {n : Nat} (h0 : 0 < n) : (dec n).head? ≠ some 0x30 := by
  have hlast := Nat.getLast_digit_ne_zero 10 h0.ne'
  have hlt := Nat.digits_lt_base (by decide : 1 < 10) (List.getLast_mem (Nat.digits_ne_nil_iff_ne_zero.2 h0.ne'))
  rw [dec_eq_digits h0, List.head?_reverse, List.getLast?_map, List.getLast?_eq_getLast_of_ne_nil
    (Nat.digits_ne_nil_iff_ne_zero.2 h0.ne'), Option.map_some]
  intro h
  have := congrArg BitVec.toNat (Option.some.inj h)
  rw [digitByte_toNat hlt] at this
  exact hlast (by simpa using this)

/-- Settles O40: the numeral is the list of decimal digits of the number. -/
theorem decIsTheShortestNumeral : Obligations.DecIsTheShortestNumeral := by
  refine fun n => ⟨fun c hc => ?_, numeralValue_dec n, dec_zero, dec_head_ne_zero, dec_ne_nil n, fun h => ?_⟩
  · obtain ⟨d, hd, rfl⟩ := eq_digitByte_of_mem_dec hc
    rw [digitByte_toNat hd]
    omega
  · have hle := dec_length_le (BitVec.ofNat 64 n)
    rwa [BitVec.toNat_ofNat, Nat.mod_eq_of_lt h] at hle

/-! The name (R170). -/

theorem fragName_no_dot {b : Name} (n : Nat) (h : (0x2E : Byte) ∉ b) : fragName b n = b ++ [0x2D] ++ dec n := by
  simp [fragName, lastDot_none h]

theorem fragName_last_dot (p : Name) {e : Name} (n : Nat) (h : (0x2E : Byte) ∉ e) :
    fragName (p ++ 0x2E :: e) n = p ++ [0x2D] ++ dec n ++ 0x2E :: e := by
  rw [fragName, lastDot_append p h]
  simp

/-- Settles O39: the last dot is found whatever stands before it. -/
theorem nameTakesIndexBeforeLastDot : Obligations.NameTakesIndexBeforeLastDot :=
  ⟨fun p _ n h => fragName_last_dot p n h, fun _ n h => fragName_no_dot n h⟩

/-- R172: the numeral can be read off a fragment's name, and the index off the numeral. -/
theorem fragName_injective (b : Name) : Function.Injective (fragName b) := by
  intro i j h
  have hdec : dec i = dec j := by
    unfold fragName at h
    cases hd : lastDot b with
    | none => simpa [hd] using h
    | some p => simpa [hd] using h
  rw [← numeralValue_dec i, hdec, numeralValue_dec]

/-- Settles O41: a fragment's name holds its numeral, and is longer than the base name. -/
theorem fragmentNamesAreDistinct : Obligations.FragmentNamesAreDistinct := by
  refine fun b i j => ⟨fun h => fragName_injective b h, fun h => ?_, fragName_length b i⟩
  have hlen := congrArg List.length h
  rw [fragName_length] at hlen
  omega

/-! The operation (R171). -/

theorem checkFname_written {s : State} {b : Name} {n : Len} (hb : s.base = .written b) (hi : s.index = .written n) :
    checkFname s = .next (finish .none (s.setNameout (fragName b n.toNat))) := by
  simp only [checkFname, hb, hi]

theorem checkFname_unwritten {s : State} (h : s.base.isWritten = false ∨ s.index.isWritten = false) :
    checkFname s = .refused .unwrittenRegister := by
  cases hb : s.base with
  | unwritten v => simp [checkFname, hb]
  | written b =>
    cases hi : s.index with
    | unwritten v => simp [checkFname, hb, hi]
    | written v => simp [hb, hi] at h

/-- Settles O38: the CHECK step of `FNAME` is the whole operation. -/
theorem fnameWritesTheName : Obligations.FnameWritesTheName := by
  refine ⟨by decide, fun s hc => ⟨fun b n hb hi => ?_, fun h => ?_⟩⟩
  · exact (execFname_check hc).trans (checkFname_written hb hi)
  · exact (execFname_check hc).trans (checkFname_unwritten h)

end Sys2Proof.Machine

/-! A run of bytes cut into fragments of one size, as a fragment operation fills them (42_fragment.md R168, R183). -/

namespace Sys2Proof.Machine

variable {b : Name} {size k i : Nat} {d v : List Byte} {s t : State}

/-- The first `k` pieces of `size` bytes of `d`, as the fragments of those indices. -/
def slices (b : Name) (size : Nat) (d : List Byte) (k : Nat) : FragStore :=
  (List.range k).map fun j => ⟨j, fragName b j, (d.drop (j * size)).take size⟩

theorem slices_succ (b : Name) (size : Nat) (d : List Byte) (k : Nat) :
    slices b size d (k + 1) = slices b size d k ++ [⟨k, fragName b k, (d.drop (k * size)).take size⟩] := by
  simp [slices, List.range_succ]

@[simp] theorem slices_length (b : Name) (size : Nat) (d : List Byte) (k : Nat) : (slices b size d k).length = k := by
  simp [slices]

theorem index_lt_of_mem_slices {g : Fragment} (h : g ∈ slices b size d k) : g.index < k := by
  obtain ⟨j, hj, rfl⟩ := List.mem_map.1 h
  exact List.mem_range.1 hj

/-- Full pieces are not touched by bytes that come after them. -/
theorem slices_append_bytes (b : Name) (v : List Byte) (h : k * size ≤ d.length) :
    slices b size (d ++ v) k = slices b size d k := by
  refine List.map_congr_left fun j hj => ?_
  have hle : (j + 1) * size ≤ k * size := Nat.mul_le_mul_right size (List.mem_range.1 hj)
  rw [Nat.succ_mul] at hle
  rw [List.drop_append_of_le_length (by omega), List.take_append_of_le_length (by rw [List.length_drop]; omega)]

/-- R183: how many pieces of `size` bytes there are in `n`, the last one possibly short. -/
def pieceCount (n size : Nat) : Nat := (n + size - 1) / size

theorem pieceCount_succ {n : Nat} (hlo : k * size < n) (hhi : n ≤ (k + 1) * size) : pieceCount n size = k + 1 := by
  rw [Nat.succ_mul] at hhi
  refine Nat.div_eq_of_lt_le ?_ ?_
  · rw [Nat.succ_mul]
    omega
  · rw [Nat.succ_mul, Nat.succ_mul]
    omega

theorem pieceCount_mul (h : 0 < size) (k : Nat) : pieceCount (k * size) size = k := by
  cases k with
  | zero => rw [pieceCount, Nat.zero_mul, Nat.zero_add, Nat.div_eq_of_lt (Nat.sub_lt h Nat.one_pos)]
  | succ k => exact pieceCount_succ (by rw [Nat.succ_mul]; omega) (Nat.le_refl _)

/-- The fragments that hold the bytes `d` cut into pieces of `size`. -/
def cut (b : Name) (size : Nat) (d : List Byte) : FragStore := slices b size d (pieceCount d.length size)

theorem cut_nil (b : Name) (size : Nat) : cut b size [] = [] := by
  have h : pieceCount 0 size = 0 := by
    rw [pieceCount]
    exact Nat.div_eq_zero_iff.2 (by omega)
  rw [cut, List.length_nil, h]
  rfl

/-- Bytes within piece `k` stand in the full pieces before it and in one entry more. -/
theorem cut_eq_append (hlo : k * size < d.length) (hhi : d.length ≤ (k + 1) * size) :
    cut b size d = slices b size d k ++ [⟨k, fragName b k, d.drop (k * size)⟩] := by
  rw [cut, pieceCount_succ hlo hhi, slices_succ, List.take_of_length_le]
  rw [Nat.succ_mul] at hhi
  rw [List.length_drop]
  omega

/-- R52: a write of bytes that fit into piece `k`, behind all that stands there, makes the cut of the longer run. -/
theorem cut_append (hlo : k * size ≤ d.length) (hhi : d.length + v.length ≤ (k + 1) * size) (hv : 0 < v.length) :
    (cut b size d).append k (fragName b k) v = cut b size (d ++ v) := by
  have hwhole : cut b size (d ++ v) = slices b size d k ++ [⟨k, fragName b k, d.drop (k * size) ++ v⟩] := by
    rw [cut_eq_append (k := k) (by rw [List.length_append]; omega) (by rwa [List.length_append]),
      slices_append_bytes b v hlo, List.drop_append_of_le_length hlo]
  have hnew := fun w => FragStore.append_new (name := fragName b k) (v := w)
    fun g hg => index_lt_of_mem_slices (b := b) (size := size) (d := d) (k := k) hg
  rw [hwhole]
  obtain hfull | hpart := Nat.eq_or_lt_of_le hlo
  · have hd : cut b size d = slices b size d k := by
      have hsize : 0 < size := by
        rw [Nat.succ_mul] at hhi
        omega
      rw [cut, ← hfull, pieceCount_mul hsize]
    rw [hd, hnew, List.drop_eq_nil_of_le (Nat.le_of_eq hfull.symm), List.nil_append]
  · rw [cut_eq_append hpart (by omega), ← hnew, FragStore.append_append, hnew]

/-! The store of a running operation. -/

/-- The store holds the bytes `d`, cut into fragments of `size` bytes, and `NFRAG` counts them. -/
structure Filled (b : Name) (size : Nat) (d : List Byte) (t : State) : Prop where
  counted : FragCounted t
  frags : t.frags = cut b size d

theorem Filled.start (b : Name) (size : Nat) (s : State) (w : CmdWord) : Filled b size [] (s.start w) :=
  ⟨⟨rfl, rfl⟩, (cut_nil b size).symm⟩

theorem Filled.congr (h : Filled b size d s) (hf : t.frags = s.frags) (hn : t.nfrag = s.nfrag) :
    Filled b size d t :=
  ⟨h.counted.of_eq hf hn, hf.trans h.frags⟩

/-- R52: the next bytes go to the fragment they fit into. -/
theorem Filled.fragWrite (h : Filled b size d s) (hlo : k * size ≤ d.length)
    (hhi : d.length + v.length ≤ (k + 1) * size) (hv : 0 < v.length) :
    Filled b size (d ++ v) (s.fragWrite k b v) :=
  ⟨h.counted.fragWrite k b v, by rw [State.fragWrite, State.setFrags_frags, h.frags, cut_append hlo hhi hv]⟩

/-- R35: `NFRAG` is the number of pieces. -/
theorem Filled.nfrag (h : Filled b size d t) (hlt : pieceCount d.length size < 2 ^ 64) :
    t.nfrag.toNat = pieceCount d.length size := by
  rw [h.counted.2, h.frags, cut, slices_length, BitVec.toNat_ofNat, Nat.mod_eq_of_lt hlt]

end Sys2Proof.Machine

/-! One step of a split decode: its checks, a unit, a used-up budget (42_fragment.md R162 to R167). -/

namespace Sys2Proof.Machine

variable {s : State} {m : Mode} {le : Bool} {n : BitVec 8} {b : Name}

/-! The CHECK step (R162, R163). -/

theorem operandsWritten_splitOf : OperandsWritten (splitOf m le n) s ↔ s.base.isWritten = true := by
  cases m <;> exact Iff.rfl

theorem noFragAlias_splitOf : NoFragAlias (splitOf m le n) s ↔
    ∀ b, s.base = .written b → s.fragAlias (splitUsed m) b n.toNat = false := by
  cases m <;> exact Iff.rfl

theorem State.splitAlias_false (ha : s.fragAlias (splitUsed m) b n.toNat = false) : s.splitAlias m n b = false := by
  rw [State.splitAlias, ha, Bool.and_false]

/-- R163: the checks of a split decode passed, the run of fragment 0 begins. -/
theorem splitDivide_begins {total : Nat} (hdiv : total % n.toNat = 0)
    (ha : s.fragAlias (splitUsed m) b n.toNat = false) :
    splitDivide m n b total s = .next { s with
      total := BitVec.ofNat 64 total
      fraglim := BitVec.ofNat 64 (total / n.toNat)
      rem := BitVec.ofNat 64 (total / n.toNat)
      phase := .run } := by
  rw [splitDivide, if_pos hdiv, State.beginSplit, if_neg]
  · rfl
  · rw [State.splitAlias_false (by exact ha)]
    exact Bool.false_ne_true

/-- R207: a total that does not divide is written all the same. -/
theorem splitDivide_indivisible {total : Nat} (hdiv : total % n.toNat ≠ 0) :
    splitDivide m n b total s = .next (raise .divis (splitUsed m) (s.setTotal (BitVec.ofNat 64 total))) := by
  rw [splitDivide, if_neg hdiv]

/-- R162 (3): an input with `SEEK` = 0 ends the checks before a length is probed. -/
theorem checkSplit_noseek (hn : n ≠ 0) (hbase : s.base = .written b) (hp : s.portRefusal (splitUsed m) = none)
    (hb : s.portsBound (splitUsed m) = true) (hk : s.seekable (splitUsed m) = false) :
    checkSplit m n s = .next (raise .noseek (splitUsed m) s) := by
  rw [checkSplit_of_written hn hbase, checkPorts_passed _ hp hb, if_neg (by simp [hk])]

/-- Settles O42: with the earlier checks passed and no fragment named like a resource, the division begins the run. -/
theorem splitCheckWritesTotalAndLimit : Obligations.SplitCheckWritesTotalAndLimit := by
  intro m le n s hn hc hio hw hfa hpa hf hb hk he hdiv
  obtain ⟨b, hbase⟩ := Operand.eq_written (operandsWritten_splitOf.1 hw)
  rw [exec_splitOf, stepSplit_check m le n hc, checkSplit_passed hn hbase (State.portRefusal_none hpa hf) hio hb hk he,
    splitDivide_begins hdiv (noFragAlias_splitOf.1 hfa b hbase)]

/-- Settles O43: the `SEEK` check comes before any length probe, the division after `TOTAL` is written. -/
theorem splitChecksRaiseTheirErrors : Obligations.SplitChecksRaiseTheirErrors := by
  intro m le n s hn hc hw hpa hf hb
  obtain ⟨b, hbase⟩ := Operand.eq_written (operandsWritten_splitOf.1 hw)
  have hp := State.portRefusal_none hpa hf
  rw [exec_splitOf, stepSplit_check m le n hc]
  refine ⟨fun hk => ?_, fun hk hio he hdiv => ?_⟩
  · rw [checkSplit_noseek hn hbase hp hb hk]
    rfl
  · rw [checkSplit_passed hn hbase hp hio hb hk he, splitDivide_indivisible hdiv]
    rfl

/-! The RUN step (R164). -/

/-- R164, R110, R52: one unit of a split decode, in any mode; the whole next state. -/
theorem runSplit_there (hio : s.ioFaults = []) (hbase : s.base = .written b)
    (ha : s.fraglim.toNat % m.flatUnit = 0) (hrem : s.rem ≠ 0) (hu : unitThere m s) :
    runSplit m le n s = .next { s.fragWrite s.fidx.toNat b (nextUnit m le s) with
      src := (s.readOn m).src, low := (s.readOn m).low, high := (s.readOn m).high
      rem := s.rem - BitVec.ofNat 64 m.flatUnit
      latch := [] } := by
  simp only [runSplit, hbase, if_pos ha]
  rw [decodeIter_moved (fun _ => hrem) (readUnit_there le hio hu) (by simpa using hio) rfl, Access.andThen_ok,
    State.spend_eq, State.readOn_eq]
  rfl

/-- R164: a used-up budget ends the run of a fragment before anything is read. -/
theorem runSplit_usedUp (le : Bool) (hbase : s.base = .written b) (ha : s.fraglim.toNat % m.flatUnit = 0)
    (h0 : s.rem = 0) : runSplit m le n s = .next (splitBoundary m n s) := by
  simp only [runSplit, hbase, if_pos ha, decodeIter_budget m le _ h0, Access.andThen_ok]

/-- R164: before the last fragment the next one begins. -/
theorem splitBoundary_next (h : s.fidx.toNat + 1 < n.toNat) :
    splitBoundary m n s = { s with fidx := s.fidx + 1, rem := s.fraglim } := if_pos h

/-- R164: after the last fragment the operation ends. -/
theorem splitBoundary_last (h : n.toNat ≤ s.fidx.toNat + 1) : splitBoundary m n s = finish (splitUsed m) s :=
  if_neg (Nat.not_lt.2 h)

/-- Settles O44: a whole unit of `SRC` is there, its two bytes in the order of R55. -/
theorem splitDec16TranscodesOneUnit : Obligations.SplitDec16TranscodesOneUnit := by
  intro le n s st b hp hio hbase hs ha hrem hn
  refine (stepSplit_run .w16 le n hp).trans
    ((runSplit_there (m := .w16) hio hbase ha hrem (unitThere_w16.2 ⟨st, hs, hn⟩)).trans ?_)
  rw [State.readOn_w16 hs hn, nextUnit_w16 le hs]
  rfl

/-- R57: the next unit of a dual-lane decode, by its lanes. -/
theorem nextUnit_dual (hm : m ≠ .w16) (le : Bool) {l h : InStream} (hl : s.low = .bound l) (hh : s.high = .bound h) :
    nextUnit m le s = if le then flatUnitAt m true (l.data.drop l.pos) (h.data.drop h.pos) 0
      else flatUnitAt m false (h.data.drop h.pos) (l.data.drop l.pos) 0 := by
  cases m with
  | w16 => exact absurd rfl hm
  | w32 | w8 => cases le <;> simp [nextUnit, hl, hh]

/-- Settles O45: a whole lane unit of both lanes is there, the flat unit in the order of R56. -/
theorem dualLaneSplitTranscodesOneUnit : Obligations.DualLaneSplitTranscodesOneUnit := by
  intro m le n s l h b hm hp hio hbase hl hh ha hrem hn hk
  have hu : unitThere m s := (unitThere_dual hm).2 ⟨⟨l, hl, hn⟩, h, hh, hk⟩
  rw [exec_splitOf, stepSplit_run m le n hp, runSplit_there hio hbase ha hrem hu, State.readOn_dual hm hl hh hn hk,
    nextUnit_dual hm le hl hh]
  rfl

/-- Settles O46: the boundary step of a fragment, before the last one and at it. -/
theorem usedUpBudgetMovesToNextFragment : Obligations.UsedUpBudgetMovesToNextFragment := by
  intro m le n s b hp hbase ha h0
  rw [exec_splitOf, stepSplit_run m le n hp, runSplit_usedUp le hbase ha h0]
  exact ⟨fun h => by rw [splitBoundary_next h], fun h => by rw [splitBoundary_last h, finish_eq]⟩

end Sys2Proof.Machine

/-! One step of `CHUNK`: its checks, a byte copied, its end (42_fragment.md R181, R182, R184). -/

namespace Sys2Proof.Machine

variable {s : State} {b : Name} {size : Len} {st : InStream}

/-- R89: `CHUNK` has one port, so no resource stands on two. -/
theorem State.portAlias_chunk (s : State) : s.portAlias chunkUsed = false := by
  simp [State.portAlias, State.usedNames, State.usedInputs, chunkUsed, Used.none, pick, sharedName]

theorem portsBound_chunk : s.portsBound chunkUsed = true ↔ s.src.isBound = true := by
  simp [State.portsBound, chunkUsed, Used.none]

/-- R181: with nothing to refuse, the CHECK step of `CHUNK` compares the size. -/
theorem checkChunk_of_unrefused (hb : s.base = .written b) (hm : s.maxsize = .written size)
    (ha : s.chunkAlias b size.toNat = false) (hf : s.lengthsFit chunkUsed = true) (hs : s.src.isBound = true) :
    checkChunk s = if size.toNat < Config.minChunkSize then .next (raise .minsize chunkUsed s)
      else .next (((s.setFidx 0).setFcnt 0).setPhase .run) := by
  simp only [checkChunk, hb, hm, ha, Bool.false_eq_true, if_false]
  exact checkPorts_passed _ (State.portRefusal_none s.portAlias_chunk hf) (portsBound_chunk.2 hs)

/-- R181: the checks of `CHUNK` passed, its run begins. -/
theorem checkChunk_passed (hb : s.base = .written b) (hm : s.maxsize = .written size)
    (ha : s.chunkAlias b size.toNat = false) (hf : s.lengthsFit chunkUsed = true) (hs : s.src.isBound = true)
    (h : 8192 ≤ size.toNat) : checkChunk s = .next { s with fidx := 0, fcnt := 0, phase := .run } :=
  (checkChunk_of_unrefused hb hm ha hf hs).trans (if_neg (Nat.not_lt.2 h))

/-- Settles O48: with nothing to refuse, the size decides. -/
theorem chunkSizeFloorIs8192 : Obligations.ChunkSizeFloorIs8192 := by
  intro s b size hc hb hm ha hf hs
  refine ⟨fun h => ?_, fun h => (execChunk_check hc).trans (checkChunk_passed hb hm ha hf hs h)⟩
  exact ((execChunk_check hc).trans (checkChunk_of_unrefused hb hm ha hf hs)).trans (if_pos h)

/-! The RUN step (R182). -/

/-- R182: the count of a byte as one record update. -/
theorem State.countByte_eq (s : State) (size : Nat) : s.countByte size = { s with
    fidx := if s.fcnt + 1 = size then s.fidx + 1 else s.fidx
    fcnt := if s.fcnt + 1 = size then 0 else s.fcnt + 1 } := by
  unfold State.countByte
  split
  · rfl
  · rfl

/-- R182: an exhausted source gives no byte, and its cursor stays. -/
theorem InStream.read_exhausted (h : st.data.length ≤ st.pos) :
    st.window 1 = [] ∧ st.advance 1 = st := by
  have hw : st.window 1 = [] := by simp [InStream.window, h]
  exact ⟨hw, by rw [InStream.advance, hw]; rfl⟩

theorem State.fragWrite_fcnt (s : State) (k : Nat) (b : Name) (v : List Byte) : (s.fragWrite k b v).fcnt = s.fcnt := rfl
theorem State.fragWrite_fidx (s : State) (k : Nat) (b : Name) (v : List Byte) : (s.fragWrite k b v).fidx = s.fidx := rfl

/-- R36, R182: the end of `CHUNK` as one record update. -/
theorem finish_chunk_eq (hs : s.src = .bound st) :
    finish chunkUsed s = { s with src := .released st, phase := .done, latch := [] } := by
  rw [finish_eq, State.release, hs]
  rfl

theorem chunkCeiling_byte (c : Byte) (s : State) : chunkCeiling [c] s = finish chunkUsed (s.setWarn true) := rfl
theorem chunkCeiling_none (s : State) : chunkCeiling [] s = finish chunkUsed s := rfl

section Run

variable (hio : s.ioFaults = []) (hb : s.base = .written b) (hm : s.maxsize = .written size) (hs : s.src = .bound st)
include hio hb hm hs

/-- R182: every RUN step of `CHUNK` reads at most one byte first. -/
theorem runChunk_reads : runChunk s =
    if s.fidx.toNat = 128 then .next (chunkCeiling (st.window 1) (s.setSrc (.bound (st.advance 1))))
    else if (st.window 1).length < 1 then .next (finish chunkUsed (s.setSrc (.bound (st.advance 1))))
    else .next (((((s.setSrc (.bound (st.advance 1))).setLatch (st.window 1)).fragWrite s.fidx.toNat b
      (st.window 1)).setLatch []).countByte size.toNat) := by
  have hr : memRead .src 1 s = .ok (st.window 1) (s.setSrc (.bound (st.advance 1))) :=
    memRead_served 1 hio (by simp [State.input, hs])
  have hw : memWrite (.frag s.fidx.toNat b) (st.window 1)
      ((s.setSrc (.bound (st.advance 1))).setLatch (st.window 1)) =
        .ok () (((s.setSrc (.bound (st.advance 1))).setLatch (st.window 1)).fragWrite s.fidx.toNat b (st.window 1)) :=
    memWrite_served hio rfl
  simp only [runChunk, hb, hm, hr, Access.andThen_ok, State.setSrc_fidx, hw, Config.maxFragments]

/-- R182, R52: one byte of `CHUNK`; the whole next state. -/
theorem runChunk_byte (hn : st.pos < st.data.length) (hc : s.fidx.toNat ≠ 128) :
    runChunk s = .next { s.fragWrite s.fidx.toNat b [st.data.getD st.pos 0] with
      src := .bound { st with pos := st.pos + 1 }
      fidx := if s.fcnt + 1 = size.toNat then s.fidx + 1 else s.fidx
      fcnt := if s.fcnt + 1 = size.toNat then 0 else s.fcnt + 1
      latch := [] } := by
  rw [runChunk_reads hio hb hm hs, if_neg hc, InStream.window_one hn, InStream.advance_full hn,
    if_neg (by exact Nat.lt_irrefl 1), State.countByte_eq]
  simp only [State.setLatch_fcnt, State.setLatch_fidx, State.fragWrite_fcnt, State.fragWrite_fidx, State.setSrc_fcnt,
    State.setSrc_fidx]
  rfl

/-- R182, R184: `CHUNK` ends at the end of its source, and at the ceiling, where a byte still there sets `WARN`. -/
theorem runChunk_ends (hend : s.fidx.toNat = 128 ∨ st.data.length ≤ st.pos) :
    runChunk s = .next { s with
      src := .released { st with pos := st.pos + (if st.pos < st.data.length then 1 else 0) }
      warn := s.warn || decide (s.fidx.toNat = 128 ∧ st.pos < st.data.length)
      phase := .done
      latch := [] } := by
  rw [runChunk_reads hio hb hm hs]
  by_cases hn : st.pos < st.data.length
  · have hc : s.fidx.toNat = 128 := hend.resolve_right (Nat.not_le.2 hn)
    rw [if_pos hc, InStream.window_one hn, InStream.advance_full hn, if_pos hn, decide_eq_true ⟨hc, hn⟩, Bool.or_true,
      chunkCeiling_byte, finish_chunk_eq rfl]
    rfl
  · obtain ⟨hw, ha⟩ := InStream.read_exhausted (Nat.not_lt.1 hn)
    rw [hw, ha, if_neg hn, decide_eq_false fun h => hn h.2, Bool.or_false, chunkCeiling_none,
      if_pos (show ([] : List Byte).length < 1 from Nat.one_pos), ite_self, finish_chunk_eq rfl]
    rfl

end Run

/-- Settles O49: a byte is there and the fragment is below the ceiling. -/
theorem chunkCopiesOneByte : Obligations.ChunkCopiesOneByte := by
  intro s b size st hp hio hb hm hs hn hc
  exact (execChunk_run hp).trans (runChunk_byte hio hb hm hs hn hc)

/-- Settles O50: the two ends of a run of `CHUNK`, in one formula. -/
theorem chunkEndsWithWarningAtCeiling : Obligations.ChunkEndsWithWarningAtCeiling := by
  intro s b size st hp hio hb hm hs hend
  exact (execChunk_run hp).trans (runChunk_ends hio hb hm hs hend)

end Sys2Proof.Machine

/-! A whole chunk operation (42_fragment.md R180 to R184). -/

namespace Sys2Proof.Machine

variable {s t : State} {b : Name} {size : Len} {i : Nat}

/-- R26: an index of a fragment is far below the width of `FIDX`. -/
theorem toNat_add_one {v : Len} (h : v.toNat < 255) : (v + 1).toNat = v.toNat + 1 := by bv_omega

/-! What a CMD write keeps of the fragments' premises (R27, R240). -/

@[simp] theorem State.usedNames_start (u : Used) (w : CmdWord) : (s.start w).usedNames u = s.usedNames u := by
  simp [State.usedNames, State.usedInputs_start, pick_map, Function.comp_def, InStream.rewind]

@[simp] theorem State.fragAlias_start (u : Used) (w : CmdWord) (base : Name) (count : Nat) :
    (s.start w).fragAlias u base count = s.fragAlias u base count := by
  simp [State.fragAlias, pick_map, Function.comp_def]

@[simp] theorem State.chunkAlias_start (w : CmdWord) (base : Name) (size : Nat) :
    (s.start w).chunkAlias base size = s.chunkAlias base size := by
  rw [State.chunkAlias, State.chunkAlias, State.start_src]
  cases s.src with
  | bound st => simp [Port.mapBound, InStream.rewind]
  | unbound | released => rfl

/-! The run (R182). -/

/-- A chunk operation that was started in `s` and has copied `i` bytes. -/
structure Chunking (b : Name) (size : Len) (s : State) (i : Nat) (t : State) : Prop where
  host : t.host = []
  served : t.ioFaults = []
  phase : t.phase = .run
  cmd : t.cmd = encode .chunk
  errcode : t.errcode = 0
  warn : t.warn = false
  base : t.base = .written b
  maxsize : t.maxsize = .written size
  source : StandsAt t.src (bytesOf s.src) i
  place : t.fidx.toNat * size.toNat + t.fcnt = i
  room : t.fcnt < size.toNat
  filled : Filled b size.toNat ((bytesOf s.src).take i) t

theorem Chunking.step_eq (h : Chunking b size s i t) : step t = noted (runChunk t) := by
  have hb : t.busy = true := busy_iff.2 (.inr h.phase)
  rw [step_quiet h.host, transcoderStep_ok hb (h.cmd ▸ decode_encode (i := .chunk) rfl)]
  exact congrArg noted (execChunk_run h.phase)

/-- R181: the first step of a chunk operation begins its run. -/
theorem Chunking.begins (hL : Launch .chunk s) (hb : s.base = .written b) (hm : s.maxsize = .written size)
    (hsize : 8192 ≤ size.toNat) : ∃ t, step (s.start (encode .chunk)) = .next t ∧ Chunking b size s 0 t := by
  have hs : s.src.isBound = true := portsBound_chunk.1 hL.portsBound
  have hcheck : checkChunk (s.start (encode .chunk)) =
      .next { s.start (encode .chunk) with fidx := 0, fcnt := 0, phase := .run } :=
    checkChunk_passed hb hm (by simpa using hL.noFragAlias b size hb hm) (by simpa [usedPorts] using hL.lengthsFit)
      (by simpa using hs) hsize
  refine ⟨_, by rw [step_start hL.hostQuiet rfl]; exact congrArg noted ((execChunk_check rfl).trans hcheck), ?_⟩
  exact {
    host := hL.hostQuiet
    served := hL.noIOFault
    phase := rfl
    cmd := rfl
    errcode := rfl
    warn := rfl
    base := hb
    maxsize := hm
    source := StandsAt.of_rewound (Port.bound_of_isBound hs)
    place := by simp
    room := show 0 < size.toNat by omega
    filled := (Filled.start b size.toNat s (encode .chunk)).congr rfl rfl }

/-- R182: one byte more, below the ceiling. -/
theorem Chunking.step_byte (h : Chunking b size s i t) (hi : i < (bytesOf s.src).length)
    (hc : i < 128 * size.toNat) : ∃ t', step t = .next t' ∧ Chunking b size s (i + 1) t' := by
  obtain ⟨st, hst, hdata, hpos⟩ := h.source
  have hplace := h.place
  have hroom := h.room
  have hfidx : t.fidx.toNat < 128 := by
    by_contra! hge
    have := Nat.mul_le_mul_right size.toNat hge
    omega
  have hn : st.pos < st.data.length := by rwa [hpos, hdata]
  refine ⟨_, by rw [h.step_eq, runChunk_byte h.served h.base h.maxsize hst hn hfidx.ne, noted_next], ?_⟩
  have htake : (bytesOf s.src).take (i + 1) = (bytesOf s.src).take i ++ [st.data.getD st.pos 0] := by
    rw [hdata, hpos, List.take_add_one, List.getElem?_eq_getElem hi, List.getD_eq_getElem _ _ hi]
    rfl
  have hlen : ((bytesOf s.src).take i).length = i := List.length_take_of_le hi.le
  have hnext : (t.fidx + 1).toNat = t.fidx.toNat + 1 := toNat_add_one (by omega)
  exact {
    host := h.host
    served := h.served
    phase := h.phase
    cmd := h.cmd
    errcode := h.errcode
    warn := h.warn
    base := h.base
    maxsize := h.maxsize
    source := ⟨_, rfl, hdata, congrArg (· + 1) hpos⟩
    place := by
      simp only [State.note_fidx, State.note_fcnt]
      split
      · rw [hnext, Nat.succ_mul]
        omega
      · omega
    room := by
      simp only [State.note_fcnt]
      split <;> omega
    filled := by
      rw [htake]
      refine (h.filled.fragWrite (k := t.fidx.toNat) (v := [st.data.getD st.pos 0]) ?_ ?_ Nat.one_pos).congr rfl rfl
      · rw [hlen]
        omega
      · rw [hlen, Nat.succ_mul, List.length_singleton]
        omega }

/-- R182: the run of `CHUNK` comes to every number of bytes that the source and the ceiling leave. -/
theorem Chunking.reached (hL : Launch .chunk s) (hb : s.base = .written b) (hm : s.maxsize = .written size)
    (hsize : 8192 ≤ size.toNat) : ∀ i, i ≤ min (bytesOf s.src).length (128 * size.toNat) →
      ∃ t, Steps (s.start (encode .chunk)) t ∧ Chunking b size s i t := by
  intro i
  induction i with
  | zero =>
    intro _
    obtain ⟨t, hstep, h⟩ := Chunking.begins hL hb hm hsize
    exact ⟨t, Steps.head hstep (Steps.refl t), h⟩
  | succ i ih =>
    intro hi
    obtain ⟨hlen, hceil⟩ := Nat.le_min.1 hi
    obtain ⟨t, hsteps, h⟩ := ih (Nat.le_of_succ_le hi)
    obtain ⟨t', hstep, h'⟩ := h.step_byte hlen hceil
    exact ⟨t', hsteps.trans (Steps.head hstep (Steps.refl t')), h'⟩

/-- R182: `FIDX` is the number of full fragments. -/
theorem Chunking.fidx_eq (h : Chunking b size s i t) : t.fidx.toNat = i / size.toNat := by
  have hplace := h.place
  have hroom := h.room
  refine (Nat.div_eq_of_lt_le ?_ ?_).symm
  · omega
  · rw [Nat.succ_mul]
    omega

/-! The closed form (R183). -/

/-- R183, R184: the bytes below the ceiling, cut, are the first 128 pieces of the source. -/
theorem cut_take_ceiling (b : Name) {size : Nat} (d : List Byte) (h : 0 < size) :
    cut b size (d.take (min d.length (128 * size))) = slices b size d (min (pieceCount d.length size) 128) := by
  obtain hle | hlt := le_or_gt d.length (128 * size)
  · have hcount : pieceCount d.length size ≤ 128 := by
      rw [← pieceCount_mul h 128]
      exact Nat.div_le_div_right (by omega)
    rw [Nat.min_eq_left hle, List.take_length, Nat.min_eq_left hcount]
    rfl
  · have hcount : 128 ≤ pieceCount d.length size := by
      rw [← pieceCount_mul h 128]
      exact Nat.div_le_div_right (by omega)
    have hlen : (d.take (128 * size)).length = 128 * size := List.length_take_of_le hlt.le
    rw [Nat.min_eq_right hlt.le, Nat.min_eq_right hcount, cut, hlen, pieceCount_mul h,
      ← slices_append_bytes b (d.drop (128 * size)) hlen.ge, List.take_append_drop]

/-- R183: the pieces below the ceiling number at most 128. -/
theorem pieceCount_ceiling {n size : Nat} (h : 0 < size) :
    pieceCount (min n (128 * size)) size = min (pieceCount n size) 128 := by
  have hlen := congrArg List.length (cut_take_ceiling [] (List.replicate n 0) h)
  simpa [cut, slices_length] using hlen

/-- R183: the number of full fragments. -/
theorem div_ceiling {n size : Nat} (h : 0 < size) : min n (128 * size) / size = min (n / size) 128 := by
  refine le_antisymm (le_min ?_ ?_) ?_
  · exact Nat.div_le_div_right (Nat.min_le_left _ _)
  · exact Nat.div_le_of_le_mul (by rw [Nat.mul_comm]; exact Nat.min_le_right _ _)
  · rw [Nat.le_div_iff_mul_le h]
    refine le_min ?_ (Nat.mul_le_mul_right size (Nat.min_le_right _ _))
    exact (Nat.mul_le_mul_right size (Nat.min_le_left _ _)).trans (Nat.div_mul_le_self n size)

/-- Settles O51: the run copies the bytes that the source and the ceiling leave, and ends. -/
theorem chunkWritesTheClosedForm : Obligations.ChunkWritesTheClosedForm := by
  intro s b size hL hb hm hsize
  have hpos : 0 < size.toNat := by omega
  obtain ⟨t, hsteps, h⟩ := Chunking.reached hL hb hm hsize _ (Nat.le_refl _)
  obtain ⟨st, hst, hdata, hat⟩ := h.source
  have hlen : ((bytesOf s.src).take (min (bytesOf s.src).length (128 * size.toNat))).length =
      min (bytesOf s.src).length (128 * size.toNat) := List.length_take_of_le (Nat.min_le_left _ _)
  have hfidx : t.fidx.toNat = min ((bytesOf s.src).length / size.toNat) 128 := h.fidx_eq.trans (div_ceiling hpos)
  have hceil : t.fidx.toNat = 128 ↔ 128 * size.toNat ≤ (bytesOf s.src).length := by
    rw [hfidx, min_eq_right_iff, Nat.le_div_iff_mul_le hpos]
  have hend : t.fidx.toNat = 128 ∨ st.data.length ≤ st.pos := by
    rw [hceil, hdata, hat]
    omega
  have hnfrag := h.filled.nfrag (by rw [hlen, pieceCount_ceiling hpos]; omega)
  rw [hlen, pieceCount_ceiling hpos] at hnfrag
  have hstep := h.step_eq.trans (congrArg noted (runChunk_ends h.served h.base h.maxsize hst hend))
  refine ⟨_, ⟨hsteps.trans (Steps.head hstep (Steps.refl _)), rfl⟩, rfl, h.errcode,
    h.filled.frags.trans (cut_take_ceiling b _ hpos), hnfrag, hfidx, ?_⟩
  show (t.warn || decide (t.fidx.toNat = 128 ∧ st.pos < st.data.length)) = true ↔ _
  rw [h.warn, Bool.false_or, decide_eq_true_iff, hceil, hdata, hat]
  omega

end Sys2Proof.Machine

/-! A whole split decode (42_fragment.md R160 to R168). -/

namespace Sys2Proof.Machine

variable {s t : State} {m : Mode} {le : Bool} {n : BitVec 8} {b : Name} {i k : Nat}

/-! The sizes of a split decode (R163, R164). -/

theorem splitAligned_splitOf : BudgetAligned (splitOf m le n) s ↔ SplitAligned m n s := by
  cases m <;> exact Iff.rfl

/-- R163: the budget of each fragment. -/
def splitShare (m : Mode) (n : BitVec 8) (s : State) : Nat := splitLength m s / n.toNat

/-- The sizes of a split decode that passes its checks: the fragments share the total, and both are whole units. -/
structure SplitSizes (m : Mode) (le : Bool) (n : BitVec 8) (s : State) : Prop where
  lanesEqual : LanesEqual m s
  countPos : 0 < n.toNat
  fits : splitLength m s < 2 ^ 64
  total : n.toNat * splitShare m n s = splitLength m s
  aligned : m.flatUnit ∣ splitShare m n s
  units : m.flatUnit * unitsOf m (firstData m le s) = splitLength m s

/-- R57, R163: a total of whole flat units is made of the whole units of the lanes. -/
theorem flatUnit_mul_unitsOf (hb : s.portsBound (splitUsed m) = true) (he : LanesEqual m s)
    (hdvd : m.flatUnit ∣ splitLength m s) : m.flatUnit * unitsOf m (firstData m le s) = splitLength m s := by
  obtain ⟨rfl, st, hs⟩ | ⟨hm, l, g, hl, hg⟩ := splitPorts_cases hb
  · rw [splitLength_w16 hs] at hdvd ⊢
    simp only [firstData, bytesOf, hs, Port.active_bound]
    exact Nat.mul_div_cancel' hdvd
  · have hlen : l.data.length = g.data.length := by simpa [bytesOf, hl, hg] using he hm
    have hfirst : (firstData m le s).length = g.data.length := by
      cases m with
      | w16 => exact absurd rfl hm
      | w32 | w8 => cases le <;> simp [firstData, bytesOf, hl, hg, hlen]
    rw [splitLength_dual hm hl hg, hlen] at hdvd ⊢
    rw [unitsOf, hfirst]
    cases m with
    | w16 => exact absurd rfl hm
    | w32 | w8 =>
      simp only [Mode.flatUnit, Mode.laneUnit] at hdvd ⊢
      omega

theorem SplitSizes.of_launch (hn : n ≠ 0) (hL : Launch (splitOf m le n) s) (he : LanesEqual m s)
    (hdiv : splitLength m s % n.toNat = 0) : SplitSizes m le n s := by
  have hb : s.portsBound (splitUsed m) = true := by simpa using hL.portsBound
  have htotal : n.toNat * splitShare m n s = splitLength m s := Nat.mul_div_cancel' (Nat.dvd_of_mod_eq_zero hdiv)
  have haligned : m.flatUnit ∣ splitShare m n s :=
    Nat.dvd_of_mod_eq_zero (splitAligned_splitOf.1 hL.budgetAligned hdiv)
  exact {
    lanesEqual := he
    countPos := Nat.pos_of_ne_zero fun h => hn (BitVec.eq_of_toNat_eq h)
    fits := splitLength_lt hb (by simpa using hL.lengthsFit)
    total := htotal
    aligned := haligned
    units := flatUnit_mul_unitsOf hb he (htotal ▸ Dvd.dvd.mul_left haligned n.toNat) }

theorem SplitSizes.share_le (h : SplitSizes m le n s) (hk : k < n.toNat) :
    (k + 1) * splitShare m n s ≤ splitLength m s :=
  (Nat.mul_le_mul_right _ hk).trans_eq h.total

/-- R163: `FRAGLIM` holds the budget. -/
theorem SplitSizes.toNat_share (h : SplitSizes m le n s) :
    (BitVec.ofNat 64 (splitShare m n s)).toNat = splitShare m n s := by
  have hle : splitShare m n s ≤ splitLength m s := Nat.div_le_self _ _
  rw [BitVec.toNat_ofNat, Nat.mod_eq_of_lt (hle.trans_lt h.fits)]

theorem decoded_length (m : Mode) (le : Bool) (f g : List Byte) (i : Nat) :
    (decoded m le f g i).length = m.flatUnit * i := by
  rw [decoded, length_flatMap_range (flatUnitAt_length m le f g), Nat.mul_comm]

/-- R168: the first `i` units of the unsplit decode. -/
def flatBytes (m : Mode) (le : Bool) (s : State) (i : Nat) : List Byte :=
  decoded m le (firstData m le s) (secondData m le s) i

@[simp] theorem flatBytes_length (m : Mode) (le : Bool) (s : State) (i : Nat) :
    (flatBytes m le s i).length = m.flatUnit * i := decoded_length ..

theorem flatBytes_succ (m : Mode) (le : Bool) (s : State) (i : Nat) :
    flatBytes m le s (i + 1) = flatBytes m le s i ++ flatUnitAt m le (firstData m le s) (secondData m le s) i :=
  decoded_succ ..

/-! The run (R164). -/

/-- A split decode that was started in `s`, has moved `i` units, and fills the fragment `k`. -/
structure Splitting (m : Mode) (le : Bool) (n : BitVec 8) (b : Name) (s : State) (i k : Nat) (t : State) : Prop where
  host : t.host = []
  served : t.ioFaults = []
  phase : t.phase = .run
  cmd : t.cmd = encode (splitOf m le n)
  errcode : t.errcode = 0
  base : t.base = .written b
  total : t.total = BitVec.ofNat 64 (splitLength m s)
  fraglim : t.fraglim = BitVec.ofNat 64 (splitShare m n s)
  lanes : LanesAt m s i t
  fidx : t.fidx.toNat = k
  count : k < n.toNat
  rem : t.rem.toNat + m.flatUnit * i = (k + 1) * splitShare m n s
  begun : k * splitShare m n s ≤ m.flatUnit * i
  filled : Filled b (splitShare m n s) (flatBytes m le s i) t

theorem Splitting.step_eq (h : Splitting m le n b s i k t) : step t = noted (runSplit m le n t) := by
  have hb : t.busy = true := busy_iff.2 (.inr h.phase)
  have hn : n ≠ 0 := fun h0 => absurd h.count (by simp [h0])
  rw [step_quiet h.host, transcoderStep_ok hb (h.cmd ▸ decode_encode (by simpa using hn)), exec_splitOf,
    stepSplit_run m le n h.phase]

/-- R61: `FRAGLIM` is a multiple of the flat unit. -/
theorem Splitting.aligned (h : Splitting m le n b s i k t) (hz : SplitSizes m le n s) :
    t.fraglim.toNat % m.flatUnit = 0 := by
  rw [h.fraglim, hz.toNat_share]
  exact Nat.mod_eq_zero_of_dvd hz.aligned

@[simp] theorem splitLength_start (w : CmdWord) : splitLength m (s.start w) = splitLength m s := by
  simp only [splitLength, State.usedInputs_start, ← List.map_flatten, List.map_map]
  rfl

/-- R27: a CMD write sets the inputs of a split decode to their start. -/
theorem LanesAt.of_split_start (hb : s.portsBound (splitUsed m) = true) (w : CmdWord) :
    LanesAt m s 0 (s.start w) := by
  obtain ⟨rfl, hs⟩ | ⟨hm, l, g, hl, hg⟩ := splitPorts_cases hb
  · exact StandsAt.of_rewound hs
  · have h := And.intro (StandsAt.of_rewound ⟨l, hl⟩) (StandsAt.of_rewound ⟨g, hg⟩)
    cases m with
    | w16 => exact absurd rfl hm
    | w32 | w8 => exact h

/-- R162, R163: the launch premises, equal lanes and a divisible total pass the checks of a split decode. -/
theorem checkSplit_start (hn : n ≠ 0) (hL : Launch (splitOf m le n) s) (hbase : s.base = .written b)
    (hk : s.seekable (splitUsed m) = true) (he : LanesEqual m s) (hdiv : splitLength m s % n.toNat = 0) (w : CmdWord) :
    checkSplit m n (s.start w) = .next { s.start w with
      total := BitVec.ofNat 64 (splitLength m s)
      fraglim := BitVec.ofNat 64 (splitShare m n s)
      rem := BitVec.ofNat 64 (splitShare m n s)
      phase := .run } := by
  have hp : (s.start w).portRefusal (splitUsed m) = none :=
    State.portRefusal_none (by simpa using hL.noPortAlias) (by simpa using hL.lengthsFit)
  rw [checkSplit_passed (s := s.start w) hn hbase hp hL.noIOFault (by simpa using hL.portsBound) (by simpa using hk)
    (by simpa [LanesEqual] using he), splitLength_start]
  exact splitDivide_begins hdiv (by simpa using noFragAlias_splitOf.1 hL.noFragAlias b hbase)

/-- R163: the first step of a split decode begins the run of fragment 0. -/
theorem Splitting.begins (hn : n ≠ 0) (hL : Launch (splitOf m le n) s) (hbase : s.base = .written b)
    (hk : s.seekable (splitUsed m) = true) (hdiv : splitLength m s % n.toNat = 0) (hz : SplitSizes m le n s) :
    ∃ t, step (s.start (encode (splitOf m le n))) = .next t ∧ Splitting m le n b s 0 0 t := by
  have hcheck := checkSplit_start hn hL hbase hk hz.lanesEqual hdiv (encode (splitOf m le n))
  refine ⟨_, by rw [step_start hL.hostQuiet (by simpa using hn), exec_splitOf, stepSplit_check m le n rfl, hcheck,
    noted_next], ?_⟩
  exact {
    host := hL.hostQuiet
    served := hL.noIOFault
    phase := rfl
    cmd := rfl
    errcode := rfl
    base := hbase
    total := rfl
    fraglim := rfl
    lanes := (LanesAt.of_split_start (by simpa using hL.portsBound) (encode (splitOf m le n))).congr rfl rfl rfl
    fidx := rfl
    count := hz.countPos
    rem := by simpa using hz.toNat_share
    begun := by simp
    filled := (Filled.start b (splitShare m n s) s (encode (splitOf m le n))).congr rfl rfl }

/-- R164, R110: one unit more. -/
theorem Splitting.step_unit (h : Splitting m le n b s i k t) (hz : SplitSizes m le n s) (hrem : t.rem ≠ 0) :
    ∃ t', step t = .next t' ∧ Splitting m le n b s (i + 1) k t' ∧ t'.rem.toNat < t.rem.toNat := by
  have hpos : t.rem.toNat ≠ 0 := fun h0 => hrem (BitVec.eq_of_toNat_eq h0)
  have hsum := h.rem
  have hroom : m.flatUnit ≤ t.rem.toNat := by
    have hdvd : m.flatUnit ∣ t.rem.toNat :=
      (Nat.dvd_add_left ⟨i, rfl⟩).1 (hsum ▸ Dvd.dvd.mul_left hz.aligned (k + 1))
    exact Nat.le_of_dvd (Nat.pos_of_ne_zero hpos) hdvd
  have hunits : i < unitsOf m (firstData m le s) := by
    refine Nat.lt_of_mul_lt_mul_left (a := m.flatUnit) ?_
    have := hz.share_le h.count
    have := m.flatUnit_pos
    rw [hz.units]
    omega
  have hu : unitThere m t := (h.lanes.unitThere_iff hz.lanesEqual le).2 hunits
  have hdrop := toNat_sub_flatUnit hroom
  refine ⟨_, h.step_eq.trans (congrArg noted (runSplit_there h.served h.base (h.aligned hz) hrem hu)), ?_, ?_⟩
  · exact {
      host := h.host
      served := h.served
      phase := h.phase
      cmd := h.cmd
      errcode := h.errcode
      base := h.base
      total := h.total
      fraglim := h.fraglim
      lanes := (h.lanes.readOn hu).congr rfl rfl rfl
      fidx := h.fidx
      count := h.count
      rem := by
        simp only [State.note_rem, hdrop, Nat.mul_succ]
        omega
      begun := h.begun.trans (Nat.mul_le_mul_left _ (Nat.le_succ i))
      filled := by
        rw [flatBytes_succ, ← h.lanes.nextUnit le, h.fidx]
        have hlen : (nextUnit m le t).length = m.flatUnit := by rw [h.lanes.nextUnit le, flatUnitAt_length]
        refine (h.filled.fragWrite (k := k) ?_ ?_ ?_).congr rfl rfl
        · rw [flatBytes_length]
          exact h.begun
        · rw [flatBytes_length, hlen]
          omega
        · rw [hlen]
          exact m.flatUnit_pos }
  · simp only [State.note_rem, hdrop]
    have := m.flatUnit_pos
    omega

/-- R164: a used-up budget begins the next fragment. -/
theorem Splitting.step_next (h : Splitting m le n b s i k t) (hz : SplitSizes m le n s) (h0 : t.rem = 0)
    (hk : k + 1 < n.toNat) :
    ∃ t', step t = .next t' ∧ Splitting m le n b s i (k + 1) t' := by
  have hused : m.flatUnit * i = (k + 1) * splitShare m n s := by simpa [h0] using h.rem
  have hnext : splitBoundary m n t = { t with fidx := t.fidx + 1, rem := t.fraglim } :=
    splitBoundary_next (h.fidx.symm ▸ hk)
  refine ⟨_, by rw [h.step_eq, runSplit_usedUp le h.base (h.aligned hz) h0, hnext, noted_next], ?_⟩
  exact {
    host := h.host
    served := h.served
    phase := h.phase
    cmd := h.cmd
    errcode := h.errcode
    base := h.base
    total := h.total
    fraglim := h.fraglim
    lanes := h.lanes.congr rfl rfl rfl
    fidx := by
      rw [State.note_fidx, toNat_add_one, h.fidx]
      rw [h.fidx]
      omega
    count := hk
    rem := by
      rw [State.note_rem, h.fraglim, hz.toNat_share, hused, Nat.succ_mul (k + 1), Nat.add_comm]
    begun := hused.ge
    filled := h.filled.congr rfl rfl }

/-- R164: the used-up budget of the last fragment ends the run. -/
theorem Splitting.step_last (h : Splitting m le n b s i k t) (hz : SplitSizes m le n s) (h0 : t.rem = 0)
    (hk : n.toNat ≤ k + 1) : step t = .next (finish (splitUsed m) t).note := by
  rw [h.step_eq, runSplit_usedUp le h.base (h.aligned hz) h0, splitBoundary_last (h.fidx.symm ▸ hk), noted_next]

/-- What is left of a split decode: every step moves a unit, leaves a fragment, or ends the run. -/
def splitMeasure (n : BitVec 8) (t : State) : Nat :=
  if t.busy then (n.toNat - t.fidx.toNat) * 2 ^ 64 + t.rem.toNat else 0

/-- The split decode is running, or has just ended with the budget of its last fragment used up. -/
def SplitOn (m : Mode) (le : Bool) (n : BitVec 8) (b : Name) (s t : State) : Prop :=
  (∃ i k, Splitting m le n b s i k t) ∨
    ∃ i k r, Splitting m le n b s i k r ∧ r.rem = 0 ∧ n.toNat = k + 1 ∧ t = (finish (splitUsed m) r).note

theorem Splitting.measure_eq (h : Splitting m le n b s i k t) :
    splitMeasure n t = (n.toNat - k) * 2 ^ 64 + t.rem.toNat := by
  rw [splitMeasure, if_pos (busy_iff.2 (.inr h.phase)), h.fidx]

/-- R164: a split decode goes on step by step, with less left after each. -/
theorem SplitOn.goes_on (hz : SplitSizes m le n s) (h : SplitOn m le n b s t) (hbusy : t.busy = true) :
    ∃ t', step t = .next t' ∧ SplitOn m le n b s t' ∧ splitMeasure n t' < splitMeasure n t := by
  obtain ⟨i, k, h⟩ | ⟨i, k, r, -, -, -, rfl⟩ := h
  · have hk := h.count
    by_cases h0 : t.rem = 0
    · by_cases hlast : k + 1 < n.toNat
      · obtain ⟨t', hstep, h'⟩ := h.step_next hz h0 hlast
        refine ⟨t', hstep, .inl ⟨i, k + 1, h'⟩, ?_⟩
        have := t'.rem.isLt
        rw [h'.measure_eq, h.measure_eq]
        omega
      · refine ⟨_, h.step_last hz h0 (by omega), .inr ⟨i, k, t, h, h0, by omega, rfl⟩, ?_⟩
        have hend : splitMeasure n (finish (splitUsed m) t).note = 0 := if_neg nofun
        rw [hend, h.measure_eq]
        omega
    · obtain ⟨t', hstep, h', hlt⟩ := h.step_unit hz h0
      refine ⟨t', hstep, .inl ⟨i + 1, k, h'⟩, ?_⟩
      rw [h'.measure_eq, h.measure_eq]
      omega
  · exact absurd hbusy nofun

/-- R164: a split decode ends with the budget of its last fragment used up. -/
theorem split_ends (hn : n ≠ 0) (hL : Launch (splitOf m le n) s) (hbase : s.base = .written b)
    (hk : s.seekable (splitUsed m) = true) (hdiv : splitLength m s % n.toNat = 0) (hz : SplitSizes m le n s) :
    ∃ i k r, EndsAt (s.start (encode (splitOf m le n))) (finish (splitUsed m) r).note ∧
      Splitting m le n b s i k r ∧ r.rem = 0 ∧ n.toNat = k + 1 := by
  obtain ⟨t, hstep, h⟩ := Splitting.begins hn hL hbase hk hdiv hz
  obtain ⟨t', hends, hon⟩ := ends_of_measure (splitMeasure n) (SplitOn m le n b s)
    (fun _ h hbusy => SplitOn.goes_on hz h hbusy) t (.inl ⟨0, 0, h⟩)
  obtain ⟨i, k, hrun⟩ | ⟨i, k, r, hr, h0, hlast, rfl⟩ := hon
  · exact absurd hends.2 (by rw [busy_iff.2 (.inr hrun.phase)]; decide)
  · exact ⟨i, k, r, EndsAt.of_step hstep hends, hr, h0, hlast⟩

/-! The closed form (R168). -/

theorem finish_total (u : Used) (s : State) : (finish u s).total = s.total := rfl
theorem finish_fraglim (u : Used) (s : State) : (finish u s).fraglim = s.fraglim := rfl

/-- R168: the run has moved every unit of the lanes. -/
theorem Splitting.all_moved (h : Splitting m le n b s i k t) (hz : SplitSizes m le n s) (h0 : t.rem = 0)
    (hlast : n.toNat = k + 1) : i = unitsOf m (firstData m le s) := by
  refine Nat.eq_of_mul_eq_mul_left m.flatUnit_pos ?_
  rw [hz.units, ← hz.total, hlast]
  simpa [h0] using h.rem

/-- R168: a total above 0 is cut into exactly the count of fragments. -/
theorem SplitSizes.pieceCount_eq (hz : SplitSizes m le n s) (h : 0 < splitLength m s) :
    pieceCount (splitLength m s) (splitShare m n s) = n.toNat := by
  have hshare : 0 < splitShare m n s := Nat.pos_of_ne_zero fun h0 => by
    have := hz.total
    rw [h0] at this
    omega
  rw [← hz.total, pieceCount_mul hshare]

theorem SplitSizes.flatBytes_length_eq (hz : SplitSizes m le n s) :
    (flatBytes m le s (unitsOf m (firstData m le s))).length = splitLength m s :=
  (flatBytes_length ..).trans hz.units

section Closed

variable (h : Splitting m le n b s (unitsOf m (firstData m le s)) k t) (hz : SplitSizes m le n s)
include h hz

/-- R168: an empty input makes no fragment. -/
theorem Splitting.store_of_empty (hempty : splitLength m s = 0) : t.frags = [] ∧ t.nfrag = 0 := by
  have hfrags : t.frags = [] := by
    rw [h.filled.frags, List.length_eq_zero_iff.1 ((hz.flatBytes_length_eq).trans hempty), cut_nil]
  refine ⟨hfrags, ?_⟩
  rw [h.filled.counted.2, hfrags]
  rfl

/-- R168: any other input makes every fragment, each a slice of the unsplit decode. -/
theorem Splitting.store_of_pos (hpos : 0 < splitLength m s) : t.nfrag.toNat = n.toNat ∧
    t.frags = slices b (splitShare m n s) (flatBytes m le s (unitsOf m (firstData m le s))) n.toNat := by
  have hlen := hz.flatBytes_length_eq
  have hcount := hz.pieceCount_eq hpos
  have hnfrag := h.filled.nfrag (by rw [hlen, hcount]; omega)
  have hfrags := h.filled.frags
  rw [hlen, hcount] at hnfrag
  rw [cut, hlen, hcount] at hfrags
  exact ⟨hnfrag, hfrags⟩

end Closed

/-- Settles O47: the run moves all units and uses up every budget; what it has written is cut at the budgets. -/
theorem splitWritesTheClosedForm : Obligations.SplitWritesTheClosedForm := by
  intro m le n s b hn hL hbase hk he hdiv
  have hz : SplitSizes m le n s := .of_launch hn hL he hdiv
  obtain ⟨i, k, t, hends, h, h0, hlast⟩ := split_ends hn hL hbase hk hdiv hz
  obtain rfl := h.all_moved hz h0 hlast
  have hfidx : t.fidx.toNat = n.toNat - 1 := by
    rw [h.fidx, hlast, Nat.add_sub_cancel]
  refine ⟨_, hends, rfl, ?_⟩
  simp only [State.note_errcode, State.note_total, State.note_fraglim, State.note_rem, State.note_fidx,
    State.note_frags, State.note_nfrag, finish_errcode, finish_total, finish_fraglim, finish_rem, finish_fidx,
    finish_frags, finish_nfrag]
  exact ⟨h.errcode, h.total, h.fraglim, h0, hfidx, h.store_of_empty hz, h.store_of_pos hz⟩

end Sys2Proof.Machine

/-! The error entry (60_exceptions.md R210): the flags it sets and the ports it releases. -/

namespace Sys2Proof.Machine

section Raise

variable (e : Err) (u : Used) (s : State)

@[simp] theorem raise_rem : (raise e u s).rem = s.rem := rfl
@[simp] theorem raise_fidx : (raise e u s).fidx = s.fidx := rfl
@[simp] theorem raise_total : (raise e u s).total = s.total := rfl
@[simp] theorem raise_fraglim : (raise e u s).fraglim = s.fraglim := rfl
@[simp] theorem raise_fcnt : (raise e u s).fcnt = s.fcnt := rfl
@[simp] theorem raise_warn : (raise e u s).warn = s.warn := rfl
@[simp] theorem raise_ioFaults : (raise e u s).ioFaults = s.ioFaults := rfl
@[simp] theorem raise_tgt : (raise e u s).tgt = s.tgt.releaseIf u.tgt := rfl
@[simp] theorem raise_lowo : (raise e u s).lowo = s.lowo.releaseIf u.lowo := rfl
@[simp] theorem raise_higho : (raise e u s).higho = s.higho.releaseIf u.higho := rfl

end Raise

@[simp] theorem Port.isBound_release {α : Type} (p : Port α) : p.release.isBound = false := by cases p <;> rfl

/-- R23: of the three outcome flags the error entry sets `ERR` alone. -/
theorem raise_flags (e : Err) (u : Used) (s : State) : (raise e u s).status.getLsbD 2 = true ∧
    (raise e u s).status.getLsbD 0 = false ∧ (raise e u s).status.getLsbD 1 = false := by
  obtain ⟨hbusy, hdone, herr, -⟩ := statusAndPortattrBits (raise e u s)
  simp only [raise_phase, reduceCtorEq, or_self, iff_false, iff_true, Bool.not_eq_true] at hbusy hdone herr
  exact ⟨herr, hbusy, hdone⟩

/-- Settles O15: the entry writes three fields and releases the ports in use, each of which stays readable. -/
theorem raiseEndsInFail : Obligations.RaiseEndsInFail := by
  intro e u s
  obtain ⟨herr, hbusy, hdone⟩ := raise_flags e u s
  have closed {α : Type} (b : Bool) (p : Port α) (hb : b = true) : (p.releaseIf b).isBound = false := by simp [hb]
  have kept {α : Type} (b : Bool) (p : Port α) (hb : b = false) : p.releaseIf b = p := by simp [hb]
  exact ⟨rfl, rfl, herr, hbusy, hdone, rfl, rfl, rfl, rfl, rfl, rfl, rfl, rfl, rfl, rfl, rfl, rfl,
    writtenTo_releaseIf .., writtenTo_releaseIf .., writtenTo_releaseIf .., closed _ _, closed _ _, closed _ _,
    closed _ _, closed _ _, closed _ _, closed _ _, rfl, rfl, rfl, rfl, rfl, Port.shown_releaseIf ..,
    Port.shown_releaseIf .., Port.shown_releaseIf .., Port.shown_releaseIf .., Port.shown_releaseIf ..,
    Port.shown_releaseIf .., Port.shown_releaseIf .., kept _ _, kept _ _, kept _ _, kept _ _, kept _ _, kept _ _,
    kept _ _, rfl, rfl, rfl, rfl, rfl, rfl⟩

end Sys2Proof.Machine

/-! A stream access when a fault is in the schedule: served while the fault is not yet due, failed or unanswered when it is (60_exceptions.md R209, log 4). -/

namespace Sys2Proof.Machine

variable {s : State} {m : Mode} {u : Used} {fs : List IoFault} {kind : IoKind} {k landed : Nat} {created : Bool}

theorem ioAnswer_beforeFault (hio : s.ioFaults = ⟨k + 1, kind⟩ :: fs) :
    ioAnswer s = .serve (s.setIoFaults (⟨k, kind⟩ :: fs)) := by
  simp only [ioAnswer, hio]

theorem ioAnswer_failed (hio : s.ioFaults = ⟨0, .fail landed created⟩ :: fs) :
    ioAnswer s = .fail landed created (s.setIoFaults fs) := by
  simp only [ioAnswer, hio]

theorem ioAnswer_silent (hio : s.ioFaults = ⟨0, .silent⟩ :: fs) : ioAnswer s = .silent := by
  simp only [ioAnswer, hio]

theorem memRead_beforeFault {p : InSel} {st : InStream} (n : Nat) (hio : s.ioFaults = ⟨k + 1, kind⟩ :: fs)
    (hp : s.input p = some st) :
    memRead p n s = .ok (st.window n) ((s.setIoFaults (⟨k, kind⟩ :: fs)).setInput p (st.advance n)) := by
  simp only [memRead, ioAnswer_beforeFault hio, State.input_setIoFaults, hp]

theorem memRead_failed (p : InSel) (n : Nat) (hio : s.ioFaults = ⟨0, .fail landed created⟩ :: fs) :
    memRead p n s = .ioFault (s.setIoFaults fs) := by
  simp only [memRead, ioAnswer_failed hio]

theorem memRead_silent (p : InSel) (n : Nat) (hio : s.ioFaults = ⟨0, .silent⟩ :: fs) : memRead p n s = .silent := by
  simp only [memRead, ioAnswer_silent hio]

theorem memLen_beforeFault {p : InSel} {st : InStream} (hio : s.ioFaults = ⟨k + 1, kind⟩ :: fs)
    (hp : s.input p = some st) (hk : st.seek = true) :
    memLen p s = .ok st.data.length (s.setIoFaults (⟨k, kind⟩ :: fs)) := by
  simp only [memLen, ioAnswer_beforeFault hio, State.input_setIoFaults, hp, if_pos hk]

theorem memLen_failed (p : InSel) (hio : s.ioFaults = ⟨0, .fail landed created⟩ :: fs) :
    memLen p s = .ioFault (s.setIoFaults fs) := by
  simp only [memLen, ioAnswer_failed hio]

theorem memRewind_failed (p : InSel) (hio : s.ioFaults = ⟨0, .fail landed created⟩ :: fs) :
    memRewind p s = .ioFault (s.setIoFaults fs) := by
  simp only [memRewind, ioAnswer_failed hio]

theorem memWrite_beforeFault {p : OutSel} {v : List Byte} {t : State} (hio : s.ioFaults = ⟨k + 1, kind⟩ :: fs)
    (ho : (s.setIoFaults (⟨k, kind⟩ :: fs)).output p v = some t) : memWrite p v s = .ok () t := by
  simp only [memWrite, ioAnswer_beforeFault hio, ho]

theorem memWrite_failed (p : OutSel) (v : List Byte) (hio : s.ioFaults = ⟨0, .fail landed created⟩ :: fs) :
    memWrite p v s = .ioFault ((s.setIoFaults fs).partialWrite p v landed created) := by
  simp only [memWrite, ioAnswer_failed hio]

/-! What a failed write to an output the host has bound leaves (R209). -/

/-- R36: the output `p` stands for a stream the host has bound. -/
def OutBound (p : OutSel) (s : State) : Prop :=
  match p with
  | .tgt => ∃ o, s.tgt = .bound o
  | .lowo => ∃ o, s.lowo = .bound o
  | .higho => ∃ o, s.higho = .bound o
  | .frag _ _ => False

@[simp] theorem outBound_setIoFaults {p : OutSel} : OutBound p (s.setIoFaults fs) ↔ OutBound p s := by
  cases p <;> exact Iff.rfl

/-- R52: `v` appended to the output `p`. -/
def State.appendTo (s : State) (p : OutSel) (v : List Byte) : State :=
  match p with
  | .tgt => s.setTgt (s.tgt.map (·.append v))
  | .lowo => s.setLowo (s.lowo.map (·.append v))
  | .higho => s.setHigho (s.higho.map (·.append v))
  | .frag k base => s.fragWrite k base v

theorem State.output_bound {p : OutSel} (v : List Byte) (h : OutBound p s) : s.output p v = some (s.appendTo p v) := by
  cases p with
  | frag => exact h.elim
  | tgt | lowo | higho =>
    obtain ⟨o, ho⟩ := h
    simp [State.output, State.appendTo, ho, Port.map]

@[simp] theorem Port.map_append_nil (p : Port OutStream) : p.map (·.append []) = p := by
  cases p <;> simp [Port.map, OutStream.append]

theorem State.appendTo_nil {p : OutSel} (h : OutBound p s) : s.appendTo p [] = s := by
  cases p with
  | frag => exact h.elim
  | tgt | lowo | higho =>
    rw [State.appendTo, Port.map_append_nil]
    rfl

/-- R209: a failed write leaves fewer than all of its bytes in a bound output, none where no byte landed. -/
theorem memWrite_failed_bound {p : OutSel} (v : List Byte) (hio : s.ioFaults = ⟨0, .fail landed created⟩ :: fs)
    (h : OutBound p s) :
    memWrite p v s = .ioFault ((s.setIoFaults fs).appendTo p (v.take (min landed (v.length - 1)))) := by
  have hb : OutBound p (s.setIoFaults fs) := outBound_setIoFaults.2 h
  rw [memWrite_failed p v hio, State.partialWrite]
  split
  · rename_i hc
    have hz : min landed (v.length - 1) = 0 := by simp_all
    rw [hz, List.take_zero, State.appendTo_nil hb]
  · rw [State.output_bound _ hb, Option.getD_some]

/-! The reads of a decode (R62) and the writes of an encode (R65) before a fault. -/

/-- R62: a dual-lane decode reads the first-role lane, then the second. -/
theorem readUnit_lanes (hm : m ≠ .w16) (le : Bool) (s : State) :
    readUnit m le s = (memRead (firstIn le) m.laneUnit s).bind fun a s1 =>
      (memRead (secondIn le) m.laneUnit s1).bind fun b s2 =>
        .ok (decide (m.laneUnit ≤ a.length) && decide (m.laneUnit ≤ b.length))
          (s2.setLatch (corr le a ++ corr le b)) := by
  cases m with
  | w16 => exact absurd rfl hm
  | w32 | w8 => rfl

/-- R56: the two lanes are two streams: reading one leaves the other and the schedule of faults. -/
theorem State.lanes_apart (s : State) (le : Bool) (st : InStream) :
    (s.setInput (firstIn le) st).input (secondIn le) = s.input (secondIn le) ∧
      (s.setInput (firstIn le) st).ioFaults = s.ioFaults := by
  cases le <;> exact ⟨rfl, rfl⟩

/-- R62: both lane units read, a fault still to come. -/
theorem readUnit_lanes_beforeFault (hm : m ≠ .w16) {le : Bool} {f g : InStream}
    (hio : s.ioFaults = ⟨2, kind⟩ :: fs) (hf : s.input (firstIn le) = some f) (hg : s.input (secondIn le) = some g)
    (hn : f.pos + m.laneUnit ≤ f.data.length) (hk : g.pos + m.laneUnit ≤ g.data.length) :
    readUnit m le s = .ok true ((((s.setIoFaults (⟨0, kind⟩ :: fs)).setInput (firstIn le)
      { f with pos := f.pos + m.laneUnit }).setInput (secondIn le) { g with pos := g.pos + m.laneUnit }).setLatch
        (corr le (f.window m.laneUnit) ++ corr le (g.window m.laneUnit))) := by
  obtain ⟨hlane, hsched⟩ := (s.setIoFaults (⟨1, kind⟩ :: fs)).lanes_apart le (f.advance m.laneUnit)
  rw [readUnit_lanes hm, memRead_beforeFault _ hio hf, Access.bind_ok,
    memRead_beforeFault _ hsched (hlane.trans (by rw [State.input_setIoFaults, hg])), Access.bind_ok,
    decide_eq_true (InStream.window_full hn), decide_eq_true (InStream.window_full hk),
    InStream.advance_full hn, InStream.advance_full hk]
  cases le <;> rfl

/-- R62: the state after the reads of a decode: every lane one unit on, the flat unit latched, `sched` the faults to come. -/
@[simps] def State.unitRead (s : State) (m : Mode) (le : Bool) (sched : List IoFault) : State :=
  { s with
    src := (s.readOn m).src
    low := (s.readOn m).low
    high := (s.readOn m).high
    latch := nextUnit m le s
    ioFaults := sched }

/-- R62: a fault that is due after the reads of a decode leaves them served. -/
theorem readUnit_beforeFault (le : Bool) (hio : s.ioFaults = ⟨inputCount m, kind⟩ :: fs) (hu : unitThere m s) :
    readUnit m le s = .ok true (s.unitRead m le (⟨0, kind⟩ :: fs)) := by
  by_cases hm : m = .w16
  · subst hm
    obtain ⟨st, hs, hn⟩ := unitThere_w16.1 hu
    have hr := memRead_beforeFault (p := .src) (st := st) 2 hio (by simp [State.input, hs])
    rw [readUnit, hr, Access.bind_ok, decide_eq_true (InStream.window_full hn), InStream.window_two hn,
      InStream.advance_full hn, State.unitRead, nextUnit_w16 le hs, State.readOn_w16 hs hn]
    cases le <;> rfl
  · obtain ⟨⟨l, hl, hn⟩, g, hg, hk⟩ := (unitThere_dual hm).1 hu
    have hio2 : s.ioFaults = ⟨2, kind⟩ :: fs := by
      cases m with
      | w16 => exact absurd rfl hm
      | w32 | w8 => exact hio
    have hlow : s.input .low = some l := by simp [State.input, hl]
    have hhigh : s.input .high = some g := by simp [State.input, hg]
    rw [State.unitRead, State.readOn_dual hm hl hg hn hk, ← dualFlat_window hm le hl hg hn hk]
    cases le with
    | true =>
      rw [readUnit_lanes_beforeFault (le := true) hm hio2 hlow hhigh hn hk]
      simp only [firstIn, secondIn, dualFlat, if_true, State.setInput, State.setLow, State.setHigh,
        State.setLatch, State.setIoFaults]
    | false =>
      rw [readUnit_lanes_beforeFault (le := false) hm hio2 hhigh hlow hk hn]
      simp only [firstIn, secondIn, dualFlat, Bool.false_eq_true, if_false, State.setInput, State.setLow,
        State.setHigh, State.setLatch, State.setIoFaults]

/-- R57: a flat unit is as long as the mode says. -/
theorem nextUnit_length (m : Mode) (le : Bool) (s : State) : (nextUnit m le s).length = m.flatUnit := by
  cases m with
  | w16 => rw [nextUnit, flatUnitAt_length]
  | w32 | w8 => cases le <;> simp only [nextUnit, flatUnitAt_length, Bool.false_eq_true, if_false, if_true]

/-! A write that fails: of a decode (R111, R114, R117), of a split decode (R164), of a chunk (R182). -/

/-- R110: with a budget left, or none asked for, an iteration of the decode run reads a unit first. -/
theorem decodeIter_reads {le hb : Bool} {out : OutSel} (hrem : hb = true → s.rem ≠ 0) :
    decodeIter m le hb out s = (readUnit m le s).bind fun full s1 =>
      if full then (memWrite out s1.latch s1).bind fun _ s2 => .ok .moved ((s2.setLatch []).spend m hb)
      else .ok .exhausted (s1.setLatch []) :=
  if_neg (by simpa using hrem)

/-- R110: the unit is read, its write fails. -/
theorem decodeIter_writeFails {le hb : Bool} {out : OutSel} {s1 s2 : State} (hrem : hb = true → s.rem ≠ 0)
    (hr : readUnit m le s = .ok true s1) (hw : memWrite out s1.latch s1 = .ioFault s2) :
    decodeIter m le hb out s = .ioFault s2 := by
  rw [decodeIter_reads hrem, hr, Access.bind_ok, if_pos rfl, hw, Access.bind_ioFault]

/-- R209: the target holds the first bytes of the unit, never all; the cursors stand behind it. -/
theorem runDec_writeFails {le lim : Bool} {o : OutStream}
    (hio : s.ioFaults = ⟨inputCount m, .fail landed created⟩ :: fs) (hu : unitThere m s) (ht : s.tgt = .bound o)
    (hrem : lim = true → s.rem ≠ 0) :
    runDec m le lim s = .next (raise .io (decUsed m) ((s.unitRead m le fs).setTgt
      (.bound (o.append ((nextUnit m le s).take (min landed (m.flatUnit - 1))))))) := by
  have hw := memWrite_failed_bound (p := .tgt) (nextUnit m le s)
    (State.unitRead_ioFaults s m le (⟨0, .fail landed created⟩ :: fs)) ⟨o, ht⟩
  rw [runDec, decodeIter_writeFails hrem (readUnit_beforeFault le hio hu) hw, Access.andThen_ioFault, nextUnit_length,
    State.appendTo, State.setIoFaults_tgt, State.unitRead_tgt, ht]
  rfl

/-- R209: the fragment holds what a failed write of the unit leaves there. -/
theorem runSplit_writeFails {le : Bool} {n : BitVec 8} {b : Name}
    (hio : s.ioFaults = ⟨inputCount m, .fail landed created⟩ :: fs) (hbase : s.base = .written b) (hu : unitThere m s)
    (ha : s.fraglim.toNat % m.flatUnit = 0) (hrem : s.rem ≠ 0) :
    runSplit m le n s = .next (raise .io (splitUsed m)
      ((s.unitRead m le fs).partialWrite (.frag s.fidx.toNat b) (nextUnit m le s) landed created)) := by
  have hw := memWrite_failed (.frag s.fidx.toNat b) (nextUnit m le s)
    (State.unitRead_ioFaults s m le (⟨0, .fail landed created⟩ :: fs))
  simp only [runSplit, hbase, if_pos ha]
  rw [decodeIter_writeFails (fun _ => hrem) (readUnit_beforeFault le hio hu) hw, Access.andThen_ioFault]
  rfl

/-- R209: the fragment holds what a failed write of the byte leaves there. -/
theorem runChunk_writeFails {b : Name} {size : Len} {st : InStream}
    (hio : s.ioFaults = ⟨1, .fail landed created⟩ :: fs) (hb : s.base = .written b) (hm : s.maxsize = .written size)
    (hs : s.src = .bound st) (hn : st.pos < st.data.length) (hc : s.fidx.toNat ≠ 128) :
    runChunk s = .next (raise .io chunkUsed
      ((((s.setSrc (.bound (st.advance 1))).setLatch (st.window 1)).setIoFaults fs).partialWrite
        (.frag s.fidx.toNat b) (st.window 1) landed created)) := by
  have hr := memRead_beforeFault (p := .src) (st := st) 1 hio (by simp [State.input, hs])
  have hfull : ¬ (st.window 1).length < 1 := Nat.not_lt.2 (InStream.window_full hn)
  simp only [runChunk, hb, hm, hr, Access.andThen_ok]
  rw [if_neg (by exact hc), if_neg hfull, memWrite_failed _ _ rfl, Access.andThen_ioFault]
  rfl

/-! What a failed write to a fragment leaves (R209, V107). -/

/-- A failed write to a fragment changes the store and its count alone; no byte and no fragment leave the store as it was. -/
theorem State.partialWrite_frag (s : State) (k : Nat) (b : Name) (v : List Byte) (landed : Nat) (created : Bool) :
    ∃ c, s.partialWrite (.frag k b) v landed created = (s.setNfrag c).setFrags
      (if min landed (v.length - 1) = 0 ∧ created = false then s.frags
        else s.frags.append k (fragName b k) (v.take (min landed (v.length - 1)))) := by
  simp only [State.partialWrite, Bool.and_eq_true, decide_eq_true_eq, Bool.not_eq_true']
  split
  · exact ⟨s.nfrag, rfl⟩
  · exact ⟨_, rfl⟩

/-! The clauses of R209, family by family. -/

/-- R209: a failed write of a decode. -/
theorem decode_failedWrite {le lim : Bool} {o : OutStream} (hp : s.phase = .run) (hu : unitThere m s)
    (ht : s.tgt = .bound o) (hrem : lim = true → s.rem ≠ 0)
    (hio : s.ioFaults = ⟨inputCount m, .fail landed created⟩ :: fs) :
    ∃ t, exec (decodeOp m le lim) s = .next t ∧ t.phase = .fail ∧ t.errcode = 6 ∧ t.rem = s.rem ∧ t.ioFaults = fs ∧
      writtenTo t.tgt = o.out ++ (nextUnit m le s).take (min landed (m.flatUnit - 1)) := by
  rw [exec_decodeOp, stepDec_run m le lim hp, runDec_writeFails hio hu ht hrem]
  exact ⟨_, rfl, rfl, rfl, raise_rem .., raise_ioFaults .., writtenTo_releaseIf ..⟩

/-- R209, V107: a failed write of a split decode. -/
theorem split_failedWrite {le : Bool} {n : BitVec 8} {b : Name} (hp : s.phase = .run) (hbase : s.base = .written b)
    (hu : unitThere m s) (ha : s.fraglim.toNat % m.flatUnit = 0) (hrem : s.rem ≠ 0)
    (hio : s.ioFaults = ⟨inputCount m, .fail landed created⟩ :: fs) :
    ∃ t, exec (splitOf m le n) s = .next t ∧ t.phase = .fail ∧ t.errcode = 6 ∧ t.rem = s.rem ∧ t.ioFaults = fs ∧
      t.fidx = s.fidx ∧ t.total = s.total ∧ t.fraglim = s.fraglim ∧
      t.frags = (if landed = 0 ∧ created = false then s.frags
        else s.frags.append s.fidx.toNat (fragName b s.fidx.toNat)
          ((nextUnit m le s).take (min landed (m.flatUnit - 1)))) := by
  have hnone : min landed (m.flatUnit - 1) = 0 ↔ landed = 0 := by
    have htwo : 2 ≤ m.flatUnit := by cases m <;> decide
    omega
  obtain ⟨c, hleft⟩ :=
    (s.unitRead m le fs).partialWrite_frag s.fidx.toNat b (nextUnit m le s) landed created
  simp only [nextUnit_length, hnone] at hleft
  rw [exec_splitOf, stepSplit_run m le n hp, runSplit_writeFails hio hbase hu ha hrem, hleft]
  refine ⟨_, rfl, rfl, rfl, ?_⟩
  simp

/-- R209: a failed write of a chunk, of which no byte lands. -/
theorem chunk_failedWrite {b : Name} {size : Len} {st : InStream} (hp : s.phase = .run) (hb : s.base = .written b)
    (hm : s.maxsize = .written size) (hs : s.src = .bound st) (hn : st.pos < st.data.length) (hc : s.fidx.toNat ≠ 128)
    (hio : s.ioFaults = ⟨1, .fail landed created⟩ :: fs) :
    ∃ t, exec .chunk s = .next t ∧ t.phase = .fail ∧ t.errcode = 6 ∧ t.ioFaults = fs ∧
      t.fidx = s.fidx ∧ t.fcnt = s.fcnt ∧ t.warn = s.warn ∧
      t.frags = (if created then s.frags.append s.fidx.toNat (fragName b s.fidx.toNat) [] else s.frags) := by
  obtain ⟨c, hleft⟩ := (((s.setSrc (.bound (st.advance 1))).setLatch (st.window 1)).setIoFaults fs).partialWrite_frag
    s.fidx.toNat b (st.window 1) landed created
  refine ⟨_, (execChunk_run hp).trans (runChunk_writeFails hio hb hm hs hn hc), ?_⟩
  rw [hleft, InStream.window_one hn]
  cases created <;> simp [Err.code]

/-! A write of an encode that fails (R65, R143). -/

theorem firstHalf_length (le : Bool) {v : List Byte} (hv : v.length = m.flatUnit) :
    (firstHalf m le v).length = m.laneUnit := by
  rw [firstHalf, corr_length, List.length_take, hv]
  cases m <;> rfl

theorem secondHalf_length (hm : m ≠ .w16) (le : Bool) {v : List Byte} (hv : v.length = m.flatUnit) :
    (secondHalf m le v).length = m.laneUnit := by
  rw [secondHalf, corr_length, List.length_drop, hv]
  cases m with
  | w16 => exact absurd rfl hm
  | w32 | w8 => rfl

theorem State.writeOn_lanes (hm : m ≠ .w16) (le : Bool) (f g : List Byte) :
    s.writeOn m le f g = (s.appendTo (firstOut le) f).appendTo (secondOut le) g := by
  rw [State.writeOn_dual hm]
  cases le <;> rfl

/-- Nothing appended to the second-role lane leaves it as it was. -/
theorem State.writeOn_first (hm : m ≠ .w16) (le : Bool) (f : List Byte) :
    s.writeOn m le f [] = s.appendTo (firstOut le) f := by
  rw [State.writeOn_dual hm]
  cases le <;> simp only [Port.map_append_nil] <;> rfl

/-- R56: a write to the first-role lane leaves the other lane bound and the schedule of faults as it is. -/
theorem State.outLanes_apart (s : State) (le : Bool) (v : List Byte) :
    (OutBound (secondOut le) (s.appendTo (firstOut le) v) ↔ OutBound (secondOut le) s) ∧
      (s.appendTo (firstOut le) v).ioFaults = s.ioFaults := by
  cases le <;> exact ⟨Iff.rfl, rfl⟩

theorem outBound_firstOut (hm : m ≠ .w16) {le : Bool} (h : ∃ o, firstPort m le s = .bound o) :
    OutBound (firstOut le) s := by
  cases m with
  | w16 => exact absurd rfl hm
  | w32 | w8 => cases le <;> exact h

theorem outBound_secondOut (hm : m ≠ .w16) {le : Bool} (h : ∃ o, secondPort m le s = .bound o) :
    OutBound (secondOut le) s := by
  cases m with
  | w16 => exact absurd rfl hm
  | w32 | w8 => cases le <;> exact h

/-- R209: the write of the first-role lane (of the target in `W16`) fails: the first bytes of its half stand, the second lane gets nothing. -/
theorem writeUnit_firstFails {le : Bool} {v : List Byte} (hv : v.length = m.flatUnit)
    (ho : ∃ o, firstPort m le s = .bound o) (hio : s.ioFaults = ⟨0, .fail landed created⟩ :: fs) :
    writeUnit m le v s = .ioFault ((s.setIoFaults fs).writeOn m le
      ((firstHalf m le v).take (min landed (m.laneUnit - 1))) []) := by
  rw [← firstHalf_length le hv]
  by_cases hm : m = .w16
  · subst hm
    have hhalf : firstHalf .w16 le v = corr le v := congrArg (corr le) (List.take_of_length_le (Nat.le_of_eq hv))
    rw [hhalf]
    exact memWrite_failed_bound (p := .tgt) _ hio ho
  · rw [writeUnit_dual hm, memWrite_failed_bound _ hio (outBound_firstOut hm ho), Access.bind_ioFault,
      State.writeOn_first hm]

/-- R209, R65: the write of the second-role lane fails when the first-role lane has its half whole. -/
theorem writeUnit_secondFails (hm : m ≠ .w16) {le : Bool} {v : List Byte} (hv : v.length = m.flatUnit)
    (ho : ∃ o, firstPort m le s = .bound o) (ho2 : ∃ o, secondPort m le s = .bound o)
    (hio : s.ioFaults = ⟨1, .fail landed created⟩ :: fs) :
    writeUnit m le v s = .ioFault ((s.setIoFaults fs).writeOn m le (firstHalf m le v)
      ((secondHalf m le v).take (min landed (m.laneUnit - 1)))) := by
  obtain ⟨hbound, hsched⟩ :=
    (s.setIoFaults (⟨0, .fail landed created⟩ :: fs)).outLanes_apart le (firstHalf m le v)
  have hsecond := hbound.2 (outBound_setIoFaults.2 (outBound_secondOut hm ho2))
  rw [writeUnit_dual hm, memWrite_beforeFault hio
      (State.output_bound _ (outBound_setIoFaults.2 (outBound_firstOut hm ho))), Access.bind_ok,
    memWrite_failed_bound _ hsched hsecond, State.writeOn_lanes hm, secondHalf_length hm le hv]
  cases le <;> rfl

/-- R62: the state after the read of an encode: the unit latched, the file's cursor behind it, `sched` the faults to come. -/
@[simps] def State.fileRead (s : State) (m : Mode) (ins : List InStream) (st : InStream) (sched : List IoFault) : State :=
  { s with
    files := .bound (ins.set s.srci { st with pos := st.pos + m.flatUnit })
    latch := st.window m.flatUnit
    ioFaults := sched }

section Encode

variable {le dup : Bool} {ins : List InStream} {st : InStream} {f g : List Byte}

theorem memRead_file_beforeFault (n : Nat) (hio : s.ioFaults = ⟨k + 1, kind⟩ :: fs) (hf : s.files = .bound ins)
    (hj : ins[s.srci]? = some st) : memRead (.file s.srci) n s =
      .ok (st.window n) ((s.setIoFaults (⟨k, kind⟩ :: fs)).setFiles (.bound (ins.set s.srci (st.advance n)))) := by
  rw [memRead_beforeFault n hio (by rw [input_file hf, hj]), State.setInput, State.setIoFaults_files, hf]
  rfl

theorem window_length_whole (hn : st.pos + m.flatUnit ≤ st.data.length) :
    (st.window m.flatUnit).length = m.flatUnit := by
  rw [InStream.window_length]
  omega

/-- The read of an encode touches no output. -/
theorem ports_fileRead : firstPort m le (s.fileRead m ins st fs) = firstPort m le s ∧
    secondPort m le (s.fileRead m ins st fs) = secondPort m le s := by
  cases m <;> exact ⟨rfl, rfl⟩

theorem secondPort_writeOn_fileRead : secondPort m le ((s.fileRead m ins st fs).writeOn m le f g) =
    secondPort m le (s.writeOn m le f g) := by
  cases m <;> cases le <;> rfl

/-- Nothing is written to the second-role lane, of which `W16` has none. -/
theorem secondPort_writeOn_nil : secondPort m le (s.writeOn m le f []) = secondPort m le s := by
  by_cases hm : m = .w16
  · subst hm
    rfl
  · rw [secondPort_writeOn hm, Port.map_append_nil]

/-- R143: the unit is read, and a write of one of its halves fails. -/
theorem runEnc_writeFails (hio : s.ioFaults = ⟨k + 1, kind⟩ :: fs) (hf : s.files = .bound ins)
    (hj : ins[s.srci]? = some st) (hn : st.pos + m.flatUnit ≤ st.data.length)
    (hw : writeUnit m le (st.window m.flatUnit) (s.fileRead m ins st (⟨k, kind⟩ :: fs)) =
      .ioFault ((s.fileRead m ins st fs).writeOn m le f g)) :
    runEnc m le dup s = .next (raise .io (encUsed m) ((s.fileRead m ins st fs).writeOn m le f g)) := by
  rw [runEnc_file hf hj, encodeIter, memRead_file_beforeFault _ hio hf hj, Access.bind_ok,
    if_pos (InStream.window_full hn), InStream.advance_full hn]
  exact congrArg (fun r : Access Unit => (r.bind _).andThen (encUsed m) _) hw

@[simp] theorem State.writeOn_ioFaults : (s.writeOn m le f g).ioFaults = s.ioFaults := by rw [State.writeOn_eq]

theorem writtenTo_firstPort_raise (e : Err) (u : Used) (s : State) :
    writtenTo (firstPort m le (raise e u s)) = writtenTo (firstPort m le s) := by
  cases m <;> cases le <;> exact writtenTo_releaseIf ..

theorem writtenTo_secondPort_raise (e : Err) (u : Used) (s : State) :
    writtenTo (secondPort m le (raise e u s)) = writtenTo (secondPort m le s) := by
  cases m <;> cases le <;> exact writtenTo_releaseIf ..

variable (hp : s.phase = .run) (hf : s.files = .bound ins) (hj : ins[s.srci]? = some st)
  (hn : st.pos + m.flatUnit ≤ st.data.length)
include hp hf hj hn

/-- R210: the step ends with `ERR_IO`, and the outputs hold what the failed write left. -/
theorem encode_writeFails (hio : s.ioFaults = ⟨k + 1, kind⟩ :: fs)
    (hw : writeUnit m le (st.window m.flatUnit) (s.fileRead m ins st (⟨k, kind⟩ :: fs)) =
      .ioFault ((s.fileRead m ins st fs).writeOn m le f g)) :
    ∃ t, exec (encOf m le dup) s = .next t ∧ t.phase = .fail ∧ t.errcode = 6 ∧ t.ioFaults = fs ∧
      writtenTo (firstPort m le t) = writtenTo (firstPort m le (s.writeOn m le f g)) ∧
      writtenTo (secondPort m le t) = writtenTo (secondPort m le (s.writeOn m le f g)) := by
  rw [exec_encOf, stepEnc_run m le dup hp, runEnc_writeFails hio hf hj hn hw]
  refine ⟨_, rfl, rfl, rfl, ?_, ?_, ?_⟩
  · rw [raise_ioFaults, State.writeOn_ioFaults, State.fileRead_ioFaults]
  · rw [writtenTo_firstPort_raise, firstPort_writeOn, firstPort_writeOn, ports_fileRead.1]
  · rw [writtenTo_secondPort_raise, secondPort_writeOn_fileRead]

/-- R209: a failed write of the first-role lane of an encode. -/
theorem encode_firstWriteFails {o : OutStream} (ho : firstPort m le s = .bound o)
    (hio : s.ioFaults = ⟨1, .fail landed created⟩ :: fs) :
    ∃ t, exec (encOf m le dup) s = .next t ∧ t.phase = .fail ∧ t.errcode = 6 ∧ t.ioFaults = fs ∧
      writtenTo (firstPort m le t) = o.out ++ (firstAt m le (st.data.drop st.pos) 0).take (min landed (m.laneUnit - 1)) ∧
      writtenTo (secondPort m le t) = writtenTo (secondPort m le s) := by
  have hw := writeUnit_firstFails (window_length_whole hn)
    ⟨o, (ports_fileRead (ins := ins) (st := st) (fs := ⟨0, .fail landed created⟩ :: fs)).1.trans ho⟩ rfl
  obtain ⟨t, hexec, hphase, herr, hsched, h1, h2⟩ := encode_writeFails (dup := dup) hp hf hj hn hio hw
  rw [firstPort_writeOn, ho, (halves_window m le hn).1] at h1
  rw [secondPort_writeOn_nil] at h2
  exact ⟨t, hexec, hphase, herr, hsched, h1, h2⟩

/-- R209: a failed write of the second-role lane of an encode, the first-role lane's half written whole. -/
theorem encode_secondWriteFails (hm : m ≠ .w16) {o1 o2 : OutStream} (ho1 : firstPort m le s = .bound o1)
    (ho2 : secondPort m le s = .bound o2) (hio : s.ioFaults = ⟨2, .fail landed created⟩ :: fs) :
    ∃ t, exec (encOf m le dup) s = .next t ∧ t.phase = .fail ∧ t.errcode = 6 ∧ t.ioFaults = fs ∧
      writtenTo (firstPort m le t) = o1.out ++ firstAt m le (st.data.drop st.pos) 0 ∧
      writtenTo (secondPort m le t) =
        o2.out ++ (secondAt m le (st.data.drop st.pos) 0).take (min landed (m.laneUnit - 1)) := by
  obtain ⟨hread1, hread2⟩ := ports_fileRead (m := m) (le := le) (s := s) (ins := ins) (st := st)
    (fs := ⟨1, .fail landed created⟩ :: fs)
  have hw := writeUnit_secondFails hm (window_length_whole hn) ⟨o1, hread1.trans ho1⟩ ⟨o2, hread2.trans ho2⟩ rfl
  obtain ⟨hfirst, hsecond⟩ := halves_window m le hn
  obtain ⟨t, hexec, hphase, herr, hsched, h1, h2⟩ := encode_writeFails (dup := dup) hp hf hj hn hio hw
  rw [firstPort_writeOn, ho1, hfirst] at h1
  rw [secondPort_writeOn hm, ho2, hsecond] at h2
  exact ⟨t, hexec, hphase, herr, hsched, h1, h2⟩

end Encode

/-! A reset (R232, log 17). -/

theorem mem_writtenOutputs_tgt {t : State} {o o' : OutStream} (h : s.tgt = .bound o) (ht : t.tgt.shown = some o') :
    (o'.res, o'.out) ∈ writtenOutputs s t := by
  simp [writtenOutputs, leftOf, h, ht, Port.isBound]

/-- R232: a reset between two steps notes what the bound outputs and the fragments hold. -/
theorem reset_leavesOutputs {rest : List HostMove} (hh : s.host = .reset :: rest) (hb : s.busy = true) :
    ∃ t, step s = .next t ∧ t.phase = .idle ∧
      (∀ o, s.tgt = .bound o ∨ s.lowo = .bound o ∨ s.higho = .bound o → (o.res, o.out) ∈ t.leftBehind) ∧
      (∀ f ∈ s.frags, (f.name, f.bytes) ∈ t.leftBehind) := by
  have hleft : (State.resetLeaving (s.setHost rest) (s.setHost rest)).leftBehind = writtenOutputs s s := if_pos hb
  refine ⟨_, step_hostMove hh (by decide) (by decide), rfl, fun o ho => ?_, fun f hf => ?_⟩
  · rw [hleft]
    obtain h | h | h := ho <;> simp [writtenOutputs, leftOf, h, Port.isBound]
  · rw [hleft]
    exact List.mem_append_right _ (List.mem_map.2 ⟨f, hf, rfl⟩)

/-- R232: a reset inside the write of a decode leaves what a failed write of it leaves. -/
theorem resetInside_leavesPrefix {le lim : Bool} {o : OutStream} {rest : List HostMove}
    (hh : s.host = .resetInside (inputCount m) landed created :: rest) (hd : decode s.cmd = .ok (decodeOp m le lim))
    (hp : s.phase = .run) (hu : unitThere m s) (ht : s.tgt = .bound o) (hrem : lim = true → s.rem ≠ 0) :
    ∃ t, step s = .next t ∧ t.phase = .idle ∧
      (o.res, o.out ++ (nextUnit m le s).take (min landed (m.flatUnit - 1))) ∈ t.leftBehind := by
  have hbusy : s.busy = true := busy_iff.2 (.inr hp)
  have hrun := runDec_writeFails (s := (s.setHost rest).setIoFaults [⟨inputCount m, .fail landed created⟩]) (le := le)
    (lim := lim) (o := o) rfl (by exact hu) (by exact ht) hrem
  have hstep := transcoderStep_ok (s := (s.setHost rest).setIoFaults [⟨inputCount m, .fail landed created⟩]) hbusy hd
  rw [exec_decodeOp, stepDec_run m le lim (by exact hp), hrun] at hstep
  refine ⟨_, step_hostMove hh (by simp) (by simp), rfl, ?_⟩
  rw [State.struck_of_next hstep, State.resetLeaving_leftBehind, if_pos (by exact hbusy)]
  exact mem_writtenOutputs_tgt (o' := o.append _) ht (Port.shown_releaseIf ..)

/-- Settles O52: a clause for each operation that writes, and two for a reset. -/
theorem failedWriteLeavesAPrefix : Obligations.FailedWriteLeavesAPrefix :=
  ⟨fun _ _ _ _ _ _ _ _ hp hu ht hrem hio => decode_failedWrite hp hu ht hrem hio,
    fun _ _ _ _ _ _ _ _ hp hb hu ha hrem hio => split_failedWrite hp hb hu ha hrem hio,
    fun _ _ _ _ _ _ _ _ _ _ hp hf hj hn ho hio => encode_firstWriteFails hp hf hj hn ho hio,
    fun _ _ _ _ _ _ _ _ _ _ _ hm hp hf hj hn ho1 ho2 hio => encode_secondWriteFails hp hf hj hn hm ho1 ho2 hio,
    fun _ _ _ _ _ _ _ hp hb hm hs hn hc hio => chunk_failedWrite hp hb hm hs hn hc hio,
    fun _ _ hh hb => reset_leavesOutputs hh hb,
    fun _ _ _ _ _ _ _ _ hh hd hp hu ht hrem => resetInside_leavesPrefix hh hd hp hu ht hrem⟩

end Sys2Proof.Machine

/-! An access of an operation that is not served: the first read of a RUN step, the second lane's, a length probe, a rewind (60_exceptions.md R209, R210). -/

namespace Sys2Proof.Machine

variable {s : State} {m : Mode} {u : Used} {fs : List IoFault} {kind : IoKind} {k landed : Nat} {created : Bool}
  {i : Instr} {le lim dup : Bool} {n : BitVec 8}

/-- What follows two accesses in a row. -/
theorem Access.andThen_bind {α β : Type} (r : Access α) (f : α → State → Access β) (u : Used)
    (g : β → State → Result) : (r.bind f).andThen u g = r.andThen u fun a s => (f a s).andThen u g := by
  cases r <;> rfl

/-- R209, R210: the error entry after an access the environment fails, as one record update. -/
theorem raise_io_setIoFaults (s : State) (u : Used) (fs : List IoFault) : raise .io u (s.setIoFaults fs) =
    { (s.release u) with errcode := 6, phase := .fail, latch := [], ioFaults := fs } := by
  simp only [raise_eq, State.release, State.setIoFaults, Err.code]

/-! The RUN step begins with a read (R110, R143, R164, R182). -/

theorem readUnit_begins (m : Mode) (le : Bool) (s : State) : ∃ p n k, readUnit m le s = (memRead p n s).bind k := by
  cases m <;> exact ⟨_, _, _, rfl⟩

theorem readsNext_decodeOp : readsNext (decodeOp m le lim) s ↔ (lim = true → s.rem ≠ 0) := by
  cases m <;> exact Iff.rfl

theorem readsNext_encOf :
    readsNext (encOf m le dup) s ↔ ∃ fs, s.files = .bound fs ∧ s.srci < fs.length := by
  cases m <;> exact Iff.rfl

theorem readsNext_splitOf :
    readsNext (splitOf m le n) s ↔ s.base.isWritten = true ∧ s.fraglim.toNat % m.flatUnit = 0 ∧ s.rem ≠ 0 := by
  cases m <;> exact Iff.rfl

/-- R110, R164: the RUN step of a decode or a split decode reads a unit first. -/
theorem exec_reads_unit (hi : (∃ lim, i = decodeOp m le lim) ∨ ∃ n, i = splitOf m le n) (hp : s.phase = .run)
    (hr : readsNext i s) : ∃ k, exec i s = (readUnit m le s).andThen (usedPorts i) k := by
  obtain ⟨lim, rfl⟩ | ⟨n, rfl⟩ := hi
  · rw [exec_decodeOp, stepDec_run m le lim hp, runDec, decodeIter_reads (readsNext_decodeOp.1 hr),
      Access.andThen_bind, usedPorts_decodeOp]
    exact ⟨_, rfl⟩
  · obtain ⟨hw, ha, hrem⟩ := readsNext_splitOf.1 hr
    obtain ⟨b, hbase⟩ := Operand.eq_written hw
    rw [exec_splitOf, stepSplit_run m le n hp, usedPorts_splitOf]
    simp only [runSplit, hbase, if_pos ha, decodeIter_reads fun _ => hrem, Access.andThen_bind]
    exact ⟨_, rfl⟩

/-- The RUN step of an operation that reads next is a read, and what follows it. -/
theorem exec_begins_with_read (hp : s.phase = .run) (hr : readsNext i s) :
    ∃ p n k, exec i s = (memRead p n s).andThen (usedPorts i) k := by
  have of_unit {m le} (hi : (∃ lim, i = decodeOp m le lim) ∨ ∃ n, i = splitOf m le n) :
      ∃ p n k, exec i s = (memRead p n s).andThen (usedPorts i) k := by
    obtain ⟨k, hk⟩ := exec_reads_unit hi hp hr
    obtain ⟨p, n, k', hk'⟩ := readUnit_begins m le s
    exact ⟨p, n, _, by rw [hk, hk', Access.andThen_bind]⟩
  have of_file {m le dup} (hi : i = encOf m le dup) : ∃ p n k, exec i s = (memRead p n s).andThen (usedPorts i) k := by
    subst hi
    obtain ⟨fs, hf, hlt⟩ := readsNext_encOf.1 hr
    rw [exec_encOf, stepEnc_run m le dup hp, usedPorts_encOf, runEnc_file hf (List.getElem?_eq_getElem hlt), encodeIter,
      Access.andThen_bind]
    exact ⟨_, _, _, rfl⟩
  cases i with
  | dec16 le lim => exact of_unit (m := .w16) (.inl ⟨lim, rfl⟩)
  | dec32 le lim => exact of_unit (m := .w32) (.inl ⟨lim, rfl⟩)
  | dec8 le lim => exact of_unit (m := .w8) (.inl ⟨lim, rfl⟩)
  | splitDec16 le n => exact of_unit (m := .w16) (.inr ⟨n, rfl⟩)
  | splitDec32 le n => exact of_unit (m := .w32) (.inr ⟨n, rfl⟩)
  | splitDec8 le n => exact of_unit (m := .w8) (.inr ⟨n, rfl⟩)
  | enc16 le dup => exact of_file (m := .w16) rfl
  | enc32 le dup => exact of_file (m := .w32) rfl
  | enc8 le dup => exact of_file (m := .w8) rfl
  | fname => exact hr.elim
  | chunk =>
    obtain ⟨b, hbase⟩ := Operand.eq_written hr.1
    obtain ⟨size, hsize⟩ := Operand.eq_written hr.2
    rw [show exec .chunk s = runChunk s from execChunk_run hp]
    simp only [runChunk, hbase, hsize]
    exact ⟨_, _, _, rfl⟩

/-- R209, R210: what an operation ends with whose access the environment fails. -/
theorem exec_read_failed (hp : s.phase = .run) (hr : readsNext i s) (hio : s.ioFaults = ⟨0, .fail landed created⟩ :: fs) :
    exec i s = .next (raise .io (usedPorts i) (s.setIoFaults fs)) := by
  obtain ⟨p, n, k, hk⟩ := exec_begins_with_read hp hr
  rw [hk, memRead_failed p n hio, Access.andThen_ioFault]

/-- U16: a read that is never answered. -/
theorem exec_read_silent (hp : s.phase = .run) (hr : readsNext i s) (hio : s.ioFaults = ⟨0, .silent⟩ :: fs) :
    exec i s = .fault .environmentSilent := by
  obtain ⟨p, n, k, hk⟩ := exec_begins_with_read hp hr
  rw [hk, memRead_silent p n hio, Access.andThen_silent]

/-- Log 14: a tick at a read that is never answered passes. -/
theorem step_tick_silent {rest : List HostMove} (hh : s.host = .tick :: rest) (hd : decode s.cmd = .ok i)
    (hp : s.phase = .run) (hr : readsNext i s) (hio : s.ioFaults = ⟨0, .silent⟩ :: fs) :
    step s = .next (s.setHost rest) := by
  have hstep : step s = passTick (s.setHost rest) (transcoderStep (s.setHost rest)) := by
    simp only [step, nextMove, hh]
  have hbusy : (s.setHost rest).busy = true := busy_iff.2 (.inr hp)
  have hreads : readsNext i (s.setHost rest) := by cases i <;> exact hr
  rw [hstep, transcoderStep_ok hbusy hd, exec_read_silent (by exact hp) hreads (by exact hio), noted_fault, passTick_fault]

/-- R209, log 26: the read of the second-role lane fails, the first-role lane's unit is read. -/
theorem readUnit_secondFails (hm : m ≠ .w16) (le : Bool) {f : InStream} (hf : s.input (firstIn le) = some f)
    (hio : s.ioFaults = ⟨1, .fail landed created⟩ :: fs) :
    readUnit m le s = .ioFault ((s.setIoFaults fs).setInput (firstIn le) (f.advance m.laneUnit)) := by
  obtain ⟨-, hsched⟩ :=
    (s.setIoFaults (⟨0, .fail landed created⟩ :: fs)).lanes_apart le (f.advance m.laneUnit)
  rw [readUnit_lanes hm, memRead_beforeFault _ hio hf, Access.bind_ok, memRead_failed _ _ hsched, Access.bind_ioFault]
  cases le <;> rfl

theorem exec_secondRead_failed {l h : InStream} (hm : m ≠ .w16)
    (hi : (∃ lim, i = decodeOp m le lim) ∨ ∃ n, i = splitOf m le n) (hp : s.phase = .run) (hr : readsNext i s)
    (hl : s.low = .bound l) (hh : s.high = .bound h) (hio : s.ioFaults = ⟨1, .fail landed created⟩ :: fs) :
    exec i s = .next { (s.release (usedPorts i)) with
      low := .released { l with pos := l.pos + if le then min m.laneUnit (l.data.length - l.pos) else 0 }
      high := .released { h with pos := h.pos + if le then 0 else min m.laneUnit (h.data.length - h.pos) }
      errcode := 6, phase := .fail, latch := [], ioFaults := fs } := by
  obtain ⟨k, hk⟩ := exec_reads_unit hi hp hr
  have hlanes : (usedPorts i).low = true ∧ (usedPorts i).high = true := by
    cases m with
    | w16 => exact absurd rfl hm
    | w32 | w8 => obtain ⟨lim, rfl⟩ | ⟨n, rfl⟩ := hi <;> exact ⟨rfl, rfl⟩
  have hlow : s.input .low = some l := by simp [State.input, hl]
  have hhigh : s.input .high = some h := by simp [State.input, hh]
  cases le with
  | true =>
    rw [hk, readUnit_secondFails hm true hlow hio, Access.andThen_ioFault, raise_eq]
    simp [State.release, State.setInput, firstIn, hlanes, hh, InStream.advance, InStream.window_length, Err.code]
  | false =>
    rw [hk, readUnit_secondFails hm false hhigh hio, Access.andThen_ioFault, raise_eq]
    simp [State.release, State.setInput, firstIn, hlanes, hl, InStream.advance, InStream.window_length, Err.code]

/-! A length probe of the CHECK step (R120, R162). -/

/-- R53: either length probe of two lanes fails. -/
theorem checkLanes_failed {l : InStream} (f : Nat → State → Result) (hl : s.low = .bound l)
    (hlk : l.seek = true) (hk : k < 2) (hio : s.ioFaults = ⟨k, .fail landed created⟩ :: fs) :
    checkLanes u s f = .next (raise .io u (s.setIoFaults fs)) := by
  have hlow : s.input .low = some l := by simp [State.input, hl]
  match k, hk with
  | 0, _ => rw [checkLanes, memLen_failed _ hio, Access.andThen_ioFault]
  | 1, _ => rw [checkLanes, memLen_beforeFault hio hlow hlk, Access.andThen_ok, memLen_failed _ rfl,
      Access.andThen_ioFault, State.setIoFaults_setIoFaults]

theorem inputCount_dual (hm : m ≠ .w16) : inputCount m = 2 := by
  cases m with
  | w16 => exact absurd rfl hm
  | w32 | w8 => rfl

theorem splitTotal_dual (hm : m ≠ .w16) (f : Nat → State → Result) :
    splitTotal m s f = checkLanes (splitUsed m) s f := by
  cases m with
  | w16 => exact absurd rfl hm
  | w32 | w8 => rfl

theorem limitFits_decodeOp : LimitFits (decodeOp m le lim) s ↔ LimitAligned m lim s := by
  cases m <;> exact Iff.rfl

theorem checkDec_probeFails (hm : m ≠ .w16) (hw : lim = true → s.limit.isWritten = true) (ha : LimitAligned m lim s)
    (hp : s.portRefusal (decUsed m) = none) (hb : s.portsBound (decUsed m) = true)
    (hk : s.seekable (decUsed m) = true) (hlt : k < inputCount m)
    (hio : s.ioFaults = ⟨k, .fail landed created⟩ :: fs) :
    checkDec m lim s = .next (raise .io (decUsed m) (s.setIoFaults fs)) := by
  obtain ⟨⟨l, hl⟩, g, hg⟩ := decLanes_bound hm hb
  have hseek : l.seek = true ∧ g.seek = true := by simpa [seekable_dec_dual hm hl hg] using hk
  have hr : s.decRefusal m lim = none := by
    rw [State.decRefusal_of_lanes hw ha hp, State.laneRefusal_none fun _ => hk]
  rw [checkDec_dual hm hr hb, checkLanes_failed _ hl hseek.1 (inputCount_dual hm ▸ hlt) hio]

theorem checkSplit_probeFails (hn : n ≠ 0) (hw : s.base.isWritten = true) (hp : s.portRefusal (splitUsed m) = none)
    (hb : s.portsBound (splitUsed m) = true) (hk : s.seekable (splitUsed m) = true) (hlt : k < inputCount m)
    (hio : s.ioFaults = ⟨k, .fail landed created⟩ :: fs) :
    checkSplit m n s = .next (raise .io (splitUsed m) (s.setIoFaults fs)) := by
  obtain ⟨b, hbase⟩ := Operand.eq_written hw
  rw [checkSplit_of_written hn hbase, checkPorts_passed _ hp hb, if_pos hk]
  obtain ⟨rfl, st, hs⟩ | ⟨hm, l, g, hl, hg⟩ := splitPorts_cases hb
  · obtain rfl : k = 0 := Nat.lt_one_iff.1 hlt
    rw [splitTotal, memLen_failed _ hio, Access.andThen_ioFault]
  · have hseek : l.seek = true ∧ g.seek = true := by simpa [State.seekable, usedInputs_split_dual hm hl hg] using hk
    rw [splitTotal_dual hm, checkLanes_failed _ hl hseek.1 (inputCount_dual hm ▸ hlt) hio]

/-- R209: a length probe in the CHECK step of a decode of two lanes, or of a split decode, fails. -/
theorem exec_probe_failed
    (hi : (∃ le lim, m ≠ .w16 ∧ i = decodeOp m le lim) ∨ ∃ le n, i = splitOf m le n) (hwf : i.wf = true)
    (hc : s.phase = .check) (hw : OperandsWritten i s) (hl : LimitFits i s) (ha : s.portAlias (usedPorts i) = false)
    (hf : s.lengthsFit (usedPorts i) = true) (hb : s.portsBound (usedPorts i) = true)
    (hk : s.seekable (usedPorts i) = true) (hlt : k < inputCount m)
    (hio : s.ioFaults = ⟨k, .fail landed created⟩ :: fs) :
    exec i s = .next (raise .io (usedPorts i) (s.setIoFaults fs)) := by
  have hp := State.portRefusal_none ha hf
  obtain ⟨le, lim, hm, rfl⟩ | ⟨le, n, rfl⟩ := hi
  · rw [usedPorts_decodeOp] at *
    rw [exec_decodeOp, stepDec_check m le lim hc]
    exact checkDec_probeFails hm (operandsWritten_decodeOp.1 hw) (limitFits_decodeOp.1 hl) hp hb hk hlt hio
  · rw [usedPorts_splitOf] at *
    rw [exec_splitOf, stepSplit_check m le n hc]
    exact checkSplit_probeFails (by simpa using hwf) (operandsWritten_splitOf.1 hw) hp hb hk hlt hio

/-! A rewind of an encode (R143, R151). -/

/-- R143: the rewind at the start of a pass fails. -/
theorem enterFile_failed {ins : List InStream} {j : Nat} (hf : s.files = .bound ins) (hj : j < ins.length)
    (hio : s.ioFaults = ⟨0, .fail landed created⟩ :: fs) : enterFile j s = .ioFault (s.setIoFaults fs) := by
  have hin : s.input (.file j) = some ins[j] := by rw [input_file hf, List.getElem?_eq_getElem hj]
  rw [← memRewind_failed (.file j) hio]
  simp only [enterFile, hin]

theorem exec_firstRewind_failed {st : InStream} {ins : List InStream} (hc : s.phase = .check)
    (hf : s.files = .bound (st :: ins)) (hd : DupRewindable (encOf m le dup) s) (ha : s.portAlias (encUsed m) = false)
    (hl : s.lengthsFit (encUsed m) = true) (hb : s.portsBound (encUsed m) = true)
    (hio : s.ioFaults = ⟨0, .fail landed created⟩ :: fs) :
    exec (encOf m le dup) s = .next (raise .io (encUsed m) (s.setIoFaults fs)) := by
  have hr : s.encRefusal m dup = none := by
    simp [State.encRefusal, State.dupRefusal_none (dupRewindable_encOf.1 hd), State.portRefusal_none ha hl]
  rw [exec_encOf, stepEnc_check m le dup hc, checkEnc, checkPorts_passed _ hr hb,
    enterFile_failed hf (by simp) hio, Access.andThen_ioFault]

/-- R142: a pass is to come, the second over this file or the first over the next, and its file is there. -/
theorem nextFile_lt {ins : List InStream} {st : InStream} (hj : ins[s.srci]? = some st)
    (hnext : (dup = true ∧ s.pass = false) ∨ s.srci + 1 < ins.length) : s.nextFile dup < ins.length := by
  obtain ⟨hsrci, -⟩ := List.getElem?_eq_some_iff.1 hj
  rw [State.nextFile]
  split
  · exact hsrci
  next hrep =>
    exact hnext.resolve_left fun h => hrep (by simp [State.repeats, h])

/-- R142, R143: the pass after the current one begins with the rewind of its file. -/
theorem nextPass_eq (dup : Bool) (s : State) : nextPass dup s =
    if s.repeats dup then enterFile s.srci (s.setPass true)
    else enterFile (s.srci + 1) ((s.setPass false).setSrci (s.srci + 1)) := rfl

/-- R142, R143: the pass is over, and the rewind of the next one's file fails (log 16). -/
theorem nextPass_failed {ins : List InStream} (hf : s.files = .bound ins) (hj : s.nextFile dup < ins.length)
    (hio : s.ioFaults = ⟨0, .fail landed created⟩ :: fs) :
    nextPass dup s = .ioFault (((s.setPass (s.repeats dup)).setSrci (s.nextFile dup)).setIoFaults fs) := by
  rw [State.nextFile] at hj ⊢
  rw [nextPass_eq]
  split
  next hrep =>
    rw [if_pos hrep] at hj
    rw [hrep]
    exact enterFile_failed hf hj hio
  next hrep =>
    rw [if_neg hrep] at hj
    rw [Bool.eq_false_iff.2 hrep]
    exact enterFile_failed hf hj hio

/-- R209: a failed rewind at the end of a pass of an encode leaves every output and fragment as it stands. -/
theorem exec_passRewind_failed {ins : List InStream} {st : InStream} (hp : s.phase = .run)
    (hf : s.files = .bound ins) (hj : ins[s.srci]? = some st) (hn : st.data.length < st.pos + m.flatUnit)
    (hnext : (dup = true ∧ s.pass = false) ∨ s.srci + 1 < ins.length)
    (hio : s.ioFaults = ⟨1, .fail landed created⟩ :: fs) :
    ∃ t, exec (encOf m le dup) s = .next t ∧ t.phase = .fail ∧ t.errcode = 6 ∧ t.ioFaults = fs ∧
      writtenTo t.tgt = writtenTo s.tgt ∧ writtenTo t.lowo = writtenTo s.lowo ∧
      writtenTo t.higho = writtenTo s.higho ∧ t.frags = s.frags := by
  have hlt : s.nextFile dup < (ins.set s.srci (st.advance m.flatUnit)).length := by
    rw [List.length_set]
    exact nextFile_lt hj hnext
  rw [exec_encOf, stepEnc_run m le dup hp, runEnc_file hf hj, encodeIter, memRead_file_beforeFault _ hio hf hj,
    Access.bind_ok, if_neg (InStream.window_short m.flatUnit_pos hn),
    nextPass_failed rfl (by simpa [State.nextFile, State.repeats] using hlt) rfl, Access.andThen_ioFault]
  refine ⟨_, rfl, rfl, rfl, ?_⟩
  simp

/-- Settles O53: each access that is not served is the first of its step, or comes after one that is. -/
theorem unservedReadStopsTheOperation : Obligations.UnservedReadStopsTheOperation := by
  refine ⟨fun i s _ _ fs hp hr hio => ?_, fun _ _ _ hp hr hio => exec_read_silent hp hr hio,
    fun _ _ _ _ hh hd hp hr hio => step_tick_silent hh hd hp hr hio,
    fun _ _ _ _ _ _ _ _ _ hm hi hp hr hl hh hio => exec_secondRead_failed hm hi hp hr hl hh hio,
    fun m i s k _ _ fs hi hwf hc hw hl ha hf hb hk hlt hio => ?_,
    fun m le dup s _ _ _ _ fs hc hf hd ha hl hb hio => ?_,
    fun _ _ _ _ _ _ _ _ _ hp hf hj hn hnext hio => exec_passRewind_failed hp hf hj hn hnext hio⟩
  · rw [exec_read_failed hp hr hio, raise_io_setIoFaults]
  · rw [exec_probe_failed hi hwf hc hw hl ha hf hb hk hlt hio, raise_io_setIoFaults]
  · rw [exec_firstRewind_failed hc hf hd ha hl hb hio, raise_io_setIoFaults]

end Sys2Proof.Machine

/-! An environment that answers every access (70_reset_and_hazards.md R244, log 14): what a served access leaves of the input. -/

namespace Sys2Proof.Machine

variable {s t : State} {α β : Type}

/-- R244: the environment serves or fails every access to come, and never stays silent. -/
def Answers (s : State) : Prop := ∀ f ∈ s.ioFaults, f.kind ≠ .silent

/-- The access is answered: it fails, or gives a value and a state with `Q`, from where the environment goes on answering. -/
def Access.answered (Q : α → State → Prop) : Access α → Prop
  | .ok a t => Answers t ∧ Q a t
  | .ioFault _ => True
  | .silent => False

theorem Access.answered.bind {Q : α → State → Prop} {Q' : β → State → Prop} {x : Access α}
    {k : α → State → Access β} (h : x.answered Q) (hk : ∀ a t, Answers t → Q a t → (k a t).answered Q') :
    (x.bind k).answered Q' := by
  cases x with
  | ok a t => exact hk a t h.1 h.2
  | ioFault => trivial
  | silent => exact h.elim

theorem Access.answered.mono {Q Q' : α → State → Prop} {x : Access α} (h : x.answered Q)
    (hk : ∀ a t, Q a t → Q' a t) : x.answered Q' := by
  cases x with
  | ok a t => exact ⟨h.1, hk a t h.2⟩
  | ioFault => trivial
  | silent => exact h.elim

/-- The step is answered: it is refused, or ends the operation, or goes on in a state with `Q`, from where the environment goes on answering. -/
def answeredStep (Q : State → Prop) : Result → Prop
  | .next t => t.busy = true → Answers t ∧ Q t
  | .fault _ => False
  | .refused _ => True

theorem answeredStep_of_eq {Q : State → Prop} {x y : Result} (e : x = y) (h : answeredStep Q y) : answeredStep Q x :=
  e ▸ h

theorem Access.answered.andThen {Q : α → State → Prop} {Q' : State → Prop} {x : Access α} {u : Used}
    {k : α → State → Result} (h : x.answered Q) (hk : ∀ a t, Answers t → Q a t → answeredStep Q' (k a t)) :
    answeredStep Q' (x.andThen u k) := by
  cases x with
  | ok a t => exact hk a t h.1 h.2
  | ioFault => exact nofun
  | silent => exact h.elim

/-! The part of an operation a state stands in, and the input it has not read. -/

/-- Where a running operation stands: in which fragment of a split decode (R164), and in which pass over which of how many files of an encode (R143). -/
structure Stage where
  fidx : Len
  srci : Nat
  pass : Bool
  fileCount : Nat

def State.stage (s : State) : Stage := ⟨s.fidx, s.srci, s.pass, (fileData s).length⟩

/-- R33: how many bytes of the stream stand beyond its cursor. -/
def InStream.unread (st : InStream) : Nat := st.data.length - st.pos

/-- R51: a read moves the cursor over the bytes it gives. -/
theorem InStream.unread_advance (st : InStream) (n : Nat) :
    (st.advance n).unread + (st.window n).length = st.unread := by
  simp only [InStream.unread, InStream.advance, InStream.window_length]
  omega

/-- Every port (R32). -/
def Used.all : Used := ⟨true, true, true, true, true, true, true⟩

/-- How many bytes all bound inputs together have not given yet. -/
def State.unread (s : State) : Nat := ((s.usedInputs .all).flatten.map InStream.unread).sum

theorem State.unread_eq (s : State) : s.unread =
    (s.src.active.toList.map InStream.unread).sum + (s.low.active.toList.map InStream.unread).sum +
    (s.high.active.toList.map InStream.unread).sum + (s.files.active.toList.flatten.map InStream.unread).sum := by
  simp [State.unread, State.usedInputs, Used.all, pick, Nat.add_assoc]

/-- Replacing one entry of a list changes a sum over it by what it changes of that entry. -/
theorem sum_map_set {f : α → Nat} {l : List α} {j : Nat} {a b : α} (h : l[j]? = some a) :
    ((l.set j b).map f).sum + f a = (l.map f).sum + f b := by
  induction l generalizing j with
  | nil => simp at h
  | cons x l ih =>
    cases j with
    | zero =>
      obtain rfl : x = a := by simpa using h
      simp only [List.set_cons_zero, List.map_cons, List.sum_cons]
      omega
    | succ j =>
      have := ih (j := j) (by simpa using h)
      simp only [List.set_cons_succ, List.map_cons, List.sum_cons]
      omega

/-- Replacing a bound input changes what is unread by what it changes of that stream. -/
theorem State.unread_setInput {p : InSel} {st st' : InStream} (hp : s.input p = some st) :
    (s.setInput p st').unread + st.unread = s.unread + st'.unread := by
  simp only [State.unread_eq]
  cases p with
  | src | low | high =>
    have ha := hp
    simp only [State.input] at ha
    simp only [State.setInput, State.setSrc, State.setLow, State.setHigh, ha, Port.active_bound, Option.toList_some,
      List.map_singleton, List.sum_singleton]
    omega
  | file j =>
    obtain ⟨fs, hf, hj⟩ := files_of_input hp
    have := sum_map_set (f := InStream.unread) (b := st') hj
    simp only [State.setInput, State.setFiles, hf, Port.mapBound, Port.active_bound, Option.toList_some,
      List.flatten_singleton]
    omega

@[simp] theorem State.setInput_ioFaults (s : State) (p : InSel) (st : InStream) :
    (s.setInput p st).ioFaults = s.ioFaults := by
  cases p <;> rfl

@[simp] theorem State.stage_setInput (s : State) (p : InSel) (st : InStream) : (s.setInput p st).stage = s.stage := by
  cases p with
  | src | low | high => rfl
  | file j => cases hf : s.files <;> simp [State.stage, fileData, State.setInput, hf, Port.mapBound, Port.active]

/-- R34: a write changes no input, no position in the operation, and no answer to come. -/
theorem State.output_stage {p : OutSel} {v : List Byte} (h : s.output p v = some t) :
    t.stage = s.stage ∧ t.unread = s.unread ∧ t.ioFaults = s.ioFaults := by
  cases p with
  | frag k b =>
    cases h
    exact ⟨rfl, rfl, rfl⟩
  | tgt | lowo | higho =>
    obtain ⟨o, -, rfl⟩ := Option.map_eq_some_iff.1 h
    exact ⟨rfl, rfl, rfl⟩

/-! The accesses (R51 to R53). -/

/-- An environment that answers serves the next access or fails it. -/
theorem ioAnswer_answers (h : Answers s) :
    (∃ fs, ioAnswer s = .serve (s.setIoFaults fs) ∧ Answers (s.setIoFaults fs)) ∨
    ∃ landed created t, ioAnswer s = .fail landed created t := by
  unfold ioAnswer
  split
  · exact .inl ⟨s.ioFaults, rfl, h⟩
  next n k fs he =>
    have hk : k ≠ .silent ∧ ∀ f ∈ fs, f.kind ≠ .silent := by simpa [Answers, he] using h
    exact .inl ⟨_, rfl, by simpa [Answers] using hk⟩
  · exact .inr ⟨_, _, _, rfl⟩
  next fs he => exact absurd rfl (h ⟨0, .silent⟩ (by simp [he]))

/-- R51: a read takes as many bytes off the input as it gives. -/
theorem memRead_answered (p : InSel) (n : Nat) (h : Answers s) :
    (memRead p n s).answered fun v t => t.stage = s.stage ∧ t.unread + v.length = s.unread := by
  unfold memRead
  obtain ⟨fs, e, hfs⟩ | ⟨_, _, _, e⟩ := ioAnswer_answers h <;> simp only [e]
  · cases hp : (s.setIoFaults fs).input p with
    | none => trivial
    | some st =>
      refine ⟨by simpa [Answers] using hfs, (s.setIoFaults fs).stage_setInput p _, ?_⟩
      have hread := State.unread_setInput (st' := st.advance n) hp
      have hbytes := st.unread_advance n
      have hs : (s.setIoFaults fs).unread = s.unread := rfl
      omega
  · trivial

theorem memLen_answered (p : InSel) (h : Answers s) : (memLen p s).answered fun _ _ => True := by
  unfold memLen
  obtain ⟨fs, e, hfs⟩ | ⟨_, _, _, e⟩ := ioAnswer_answers h <;> simp only [e]
  · cases (s.setIoFaults fs).input p with
    | none => trivial
    | some st =>
      dsimp only
      split
      · exact ⟨hfs, trivial⟩
      · trivial
  · trivial

theorem memRewind_answered (p : InSel) (h : Answers s) : (memRewind p s).answered fun _ t => t.stage = s.stage := by
  unfold memRewind
  obtain ⟨fs, e, hfs⟩ | ⟨_, _, _, e⟩ := ioAnswer_answers h <;> simp only [e]
  · cases (s.setIoFaults fs).input p with
    | none => trivial
    | some st => exact ⟨by simpa [Answers] using hfs, (s.setIoFaults fs).stage_setInput p _⟩
  · trivial

theorem memWrite_answered (p : OutSel) (v : List Byte) (h : Answers s) :
    (memWrite p v s).answered fun _ t => t.stage = s.stage ∧ t.unread = s.unread := by
  unfold memWrite
  obtain ⟨fs, e, hfs⟩ | ⟨_, _, _, e⟩ := ioAnswer_answers h <;> simp only [e]
  · cases ho : (s.setIoFaults fs).output p v with
    | none => trivial
    | some t =>
      obtain ⟨hstage, hunread, hio⟩ := State.output_stage ho
      exact ⟨by simpa [Answers, hio] using hfs, hstage, hunread⟩
  · trivial

/-! The shared checks (R205, R120). -/

theorem answeredStep_checkPorts {Q : State → Prop} {refusal : Option Refusal} {u : Used} {k : Result}
    (h : answeredStep Q k) : answeredStep Q (checkPorts refusal u s k) := by
  obtain ⟨_, -, e⟩ | ⟨-, -, e⟩ | ⟨-, -, e⟩ := checkPorts_cases refusal u s k <;> rw [e]
  · trivial
  · exact h
  · exact nofun

theorem answeredStep_checkLanes {Q : State → Prop} {u : Used} {k : Nat → State → Result} (h : Answers s)
    (hk : ∀ n t, Answers t → answeredStep Q (k n t)) : answeredStep Q (checkLanes u s k) := by
  refine (memLen_answered .low h).andThen fun a s1 h1 _ => (memLen_answered .high h1).andThen fun b s2 h2 _ => ?_
  split
  · exact hk _ s2 h2
  · exact nofun

end Sys2Proof.Machine

/-! Every operation ends (70_reset_and_hazards.md R244): a step that goes on leaves less of the operation to do. -/

namespace Sys2Proof.Machine

variable {s t : State} {i : Instr} {m : Mode} {le lim dup : Bool} {n : BitVec 8}

/-! What is left of an operation. -/

/-- The stages a running operation has before it or is in: the fragments of a split decode (R164), the passes of an encode (R143). -/
def stagesLeft (i : Instr) (g : Stage) : Nat :=
  match i with
  | .splitDec16 _ n | .splitDec32 _ n | .splitDec8 _ n => n.toNat - g.fidx.toNat
  | .enc16 _ _ | .enc32 _ _ | .enc8 _ _ => 2 * (g.fileCount - g.srci) - g.pass.toNat
  | .dec16 _ _ | .dec32 _ _ | .dec8 _ _ | .fname | .chunk => 0

/-- What is left of a running operation: its stages, and within one stage the input not yet read. The stages count first, since a pass of an encode reads its file from the start again. -/
def workLeft (i : Instr) (s : State) : ℕ ×ₗ ℕ := toLex (stagesLeft i s.stage, s.unread)

theorem stagesLeft_splitOf (g : Stage) : stagesLeft (splitOf m le n) g = n.toNat - g.fidx.toNat := by cases m <;> rfl

theorem stagesLeft_encOf (g : Stage) :
    stagesLeft (encOf m le dup) g = 2 * (g.fileCount - g.srci) - g.pass.toNat := by cases m <;> rfl

theorem less_of_unread (h : t.stage = s.stage) (hu : t.unread < s.unread) : workLeft i t < workLeft i s :=
  Prod.Lex.toLex_lt_toLex.2 (.inr ⟨congrArg (stagesLeft i) h, hu⟩)

theorem less_of_stage (h : stagesLeft i t.stage < stagesLeft i s.stage) : workLeft i t < workLeft i s :=
  Prod.Lex.toLex_lt_toLex.2 (.inl h)

/-! The decode run (R110). -/

theorem readUnit_answered (m : Mode) (le : Bool) (h : Answers s) :
    (readUnit m le s).answered fun full t => t.stage = s.stage ∧ (full = true → t.unread < s.unread) := by
  have hpos := m.laneUnit_pos
  cases m with
  | w16 =>
    refine (memRead_answered .src 2 h).bind fun u s1 h1 ⟨hstage, hu⟩ => ⟨h1, hstage, ?_⟩
    simp only [decide_eq_true_eq, State.unread_eq, State.setLatch] at hu ⊢
    omega
  | w32 | w8 =>
    refine (memRead_answered (firstIn le) _ h).bind fun a s1 h1 ⟨hstage1, hu1⟩ =>
      (memRead_answered (secondIn le) _ h1).bind fun b s2 h2 ⟨hstage2, hu2⟩ => ⟨h2, hstage2.trans hstage1, ?_⟩
    simp only [Bool.and_eq_true, decide_eq_true_eq, State.unread_eq, State.setLatch] at hu1 hu2 ⊢
    omega

/-- R110: an iteration that moves a unit has read some of the input. -/
theorem decodeIter_answered (m : Mode) (le hb : Bool) (out : OutSel) (h : Answers s) :
    (decodeIter m le hb out s).answered fun ev t => t.stage = s.stage ∧ (ev = .moved → t.unread < s.unread) := by
  unfold decodeIter
  split
  · exact ⟨h, rfl, nofun⟩
  refine (readUnit_answered m le h).bind fun full s1 h1 ⟨hstage1, hless⟩ => ?_
  cases full with
  | false => exact ⟨h1, hstage1, nofun⟩
  | true =>
    refine (memWrite_answered out s1.latch h1).bind fun _ s2 h2 ⟨hstage2, hu⟩ => ?_
    have hless := hu.trans_lt (hless rfl)
    cases hb <;> exact ⟨h2, hstage2.trans hstage1, fun _ => hless⟩

theorem runDec_answered (m : Mode) (le lim : Bool) (h : Answers s) :
    answeredStep (fun t => workLeft (decodeOp m le lim) t < workLeft (decodeOp m le lim) s) (runDec m le lim s) := by
  refine (decodeIter_answered m le lim .tgt h).andThen fun ev t ht ⟨hstage, hless⟩ => ?_
  cases ev with
  | budget | exhausted => exact nofun
  | moved => exact fun _ => ⟨ht, less_of_unread hstage (hless rfl)⟩

theorem checkDec_answered (m : Mode) (lim : Bool) (h : Answers s) :
    answeredStep (fun _ => True) (checkDec m lim s) := by
  refine answeredStep_checkPorts ?_
  cases m with
  | w16 => exact fun _ => ⟨h, trivial⟩
  | w32 | w8 => exact answeredStep_checkLanes h fun _ t ht _ => ⟨ht, trivial⟩

/-! The encode run (R143). -/

theorem writeUnit_answered (m : Mode) (le : Bool) (u : List Byte) (h : Answers s) :
    (writeUnit m le u s).answered fun _ t => t.stage = s.stage ∧ t.unread = s.unread := by
  cases m with
  | w16 => exact memWrite_answered .tgt _ h
  | w32 | w8 =>
    exact (memWrite_answered (firstOut le) _ h).bind fun _ s1 h1 ⟨hstage1, hu1⟩ =>
      (memWrite_answered (secondOut le) _ h1).mono fun _ t ⟨hstage2, hu2⟩ =>
        ⟨hstage2.trans hstage1, hu2.trans hu1⟩

theorem enterFile_answered (j : Nat) (h : Answers s) : (enterFile j s).answered fun _ t => t.stage = s.stage := by
  unfold enterFile
  split
  · exact memRewind_answered (.file j) h
  · exact ⟨h, rfl⟩

/-- R142, R143: the pass over a file ends with a pass less to make. -/
theorem nextPass_answered (h : Answers s) (hlt : s.srci < (fileData s).length) :
    (nextPass dup s).answered fun _ t => stagesLeft (encOf m le dup) t.stage < stagesLeft (encOf m le dup) s.stage := by
  unfold nextPass
  split
  next hrep =>
    have hp : s.pass.toNat = 0 := by
      rw [Bool.and_eq_true, Bool.not_eq_true'] at hrep
      rw [hrep.2, Bool.toNat_false]
    refine (enterFile_answered s.srci (s := s.setPass true) h).mono fun _ t hstage => ?_
    rw [hstage, stagesLeft_encOf, stagesLeft_encOf]
    show 2 * ((fileData s).length - s.srci) - 1 < 2 * ((fileData s).length - s.srci) - s.pass.toNat
    omega
  next =>
    refine (enterFile_answered (s.srci + 1) (s := (s.setPass false).setSrci (s.srci + 1)) h).mono fun _ t hstage => ?_
    have hp := s.pass.toNat_le
    rw [hstage, stagesLeft_encOf, stagesLeft_encOf]
    show 2 * ((fileData s).length - (s.srci + 1)) < 2 * ((fileData s).length - s.srci) - s.pass.toNat
    omega

/-- R143: an iteration of an encode reads a unit, or ends a pass. -/
theorem encodeIter_answered (h : Answers s) (hlt : s.srci < (fileData s).length) :
    (encodeIter m le dup s).answered fun _ t => workLeft (encOf m le dup) t < workLeft (encOf m le dup) s := by
  have hpos := m.flatUnit_pos
  refine (memRead_answered (.file s.srci) m.flatUnit h).bind fun u s1 h1 ⟨hstage1, hu1⟩ => ?_
  split
  next hfull =>
    refine (writeUnit_answered m le u (s := s1.setLatch u) h1).bind fun _ s2 h2 ⟨hstage2, hu2⟩ => ?_
    have hless : s2.unread < s.unread := by
      have : (s1.setLatch u).unread = s1.unread := rfl
      omega
    exact ⟨h2, less_of_unread (t := s2.setLatch []) (hstage2.trans hstage1) hless⟩
  next =>
    have hlt1 : s1.stage.srci < s1.stage.fileCount := by rwa [hstage1]
    refine (nextPass_answered (m := m) (le := le) (s := s1.setLatch []) h1 hlt1).mono fun _ t hless => ?_
    exact less_of_stage (hless.trans_eq (congrArg (stagesLeft (encOf m le dup)) hstage1))

theorem runEnc_answered (m : Mode) (le dup : Bool) (h : Answers s) :
    answeredStep (fun t => workLeft (encOf m le dup) t < workLeft (encOf m le dup) s) (runEnc m le dup s) := by
  unfold runEnc
  split
  next fs hf =>
    split
    next hlt =>
      exact (encodeIter_answered h (by simpa [fileData, hf] using hlt)).andThen fun _ t ht hless _ => ⟨ht, hless⟩
    next => exact nofun
  · exact nofun
  · exact nofun

theorem checkEnc_answered (m : Mode) (dup : Bool) (h : Answers s) :
    answeredStep (fun _ => True) (checkEnc m dup s) :=
  answeredStep_checkPorts <| (enterFile_answered 0 h).andThen fun _ _ ht _ _ => ⟨ht, trivial⟩

/-! The fragment family. -/

/-- R164: the boundary of a fragment leaves a fragment less, or ends the run. -/
theorem splitBoundary_answered (h : Answers t) (hstage : t.stage = s.stage) :
    answeredStep (fun r => workLeft (splitOf m le n) r < workLeft (splitOf m le n) s)
      (.next (splitBoundary m n t)) := by
  have hn := n.isLt
  obtain hlt | hge := Nat.lt_or_ge (t.fidx.toNat + 1) n.toNat
  · rw [splitBoundary_next hlt]
    refine fun _ => ⟨h, less_of_stage ?_⟩
    have hnext : (t.fidx + 1).toNat = t.fidx.toNat + 1 := toNat_add_one (by omega)
    rw [← hstage, stagesLeft_splitOf, stagesLeft_splitOf]
    show n.toNat - (t.fidx + 1).toNat < n.toNat - t.fidx.toNat
    omega
  · rw [splitBoundary_last hge]
    exact nofun

theorem runSplit_answered (m : Mode) (le : Bool) (n : BitVec 8) (h : Answers s) :
    answeredStep (fun t => workLeft (splitOf m le n) t < workLeft (splitOf m le n) s) (runSplit m le n s) := by
  unfold runSplit
  split
  · trivial
  split
  · refine (decodeIter_answered m le true _ h).andThen fun ev t ht ⟨hstage, hless⟩ => ?_
    cases ev with
    | budget | exhausted => exact splitBoundary_answered ht hstage
    | moved => exact fun _ => ⟨ht, less_of_unread hstage (hless rfl)⟩
  · trivial

theorem splitDivide_answered {b : Name} {total : Nat} (h : Answers s) :
    answeredStep (fun _ => True) (splitDivide m n b total s) := by
  unfold splitDivide State.beginSplit
  split
  · split
    · trivial
    · exact fun _ => ⟨h, trivial⟩
  · exact nofun

theorem checkSplit_answered (m : Mode) (n : BitVec 8) (h : Answers s) :
    answeredStep (fun _ => True) (checkSplit m n s) := by
  unfold checkSplit
  split
  · exact nofun
  split
  · trivial
  refine answeredStep_checkPorts ?_
  split
  · cases m with
    | w16 => exact (memLen_answered .src h).andThen fun _ t ht _ => splitDivide_answered ht
    | w32 | w8 => exact answeredStep_checkLanes h fun _ t ht => splitDivide_answered ht
  · exact nofun

theorem checkFname_answered (s : State) : answeredStep (fun _ => True) (checkFname s) := by
  unfold checkFname
  split
  · exact nofun
  · trivial

theorem checkChunk_answered (h : Answers s) : answeredStep (fun _ => True) (checkChunk s) := by
  unfold checkChunk
  split
  · split
    · trivial
    refine answeredStep_checkPorts ?_
    split
    · exact nofun
    · exact fun _ => ⟨h, trivial⟩
  · trivial

theorem countByte_answered (size : Nat) (h : Answers t) (hless : t.unread < s.unread) :
    answeredStep (fun r => workLeft .chunk r < workLeft .chunk s) (.next (t.countByte size)) := by
  rw [State.countByte_eq]
  exact fun _ => ⟨h, Prod.Lex.toLex_lt_toLex.2 (.inr ⟨rfl, hless⟩)⟩

/-- R182: a RUN step of `CHUNK` that goes on has read a byte. -/
theorem runChunk_answered (h : Answers s) :
    answeredStep (fun t => workLeft .chunk t < workLeft .chunk s) (runChunk s) := by
  unfold runChunk
  split
  · refine (memRead_answered .src 1 h).andThen fun b s1 h1 ⟨_, hu1⟩ => ?_
    split
    · exact nofun
    split
    · exact nofun
    next hbyte =>
      refine (memWrite_answered _ b (s := s1.setLatch b) h1).andThen fun _ s2 h2 ⟨_, hu2⟩ => ?_
      refine countByte_answered _ (t := s2.setLatch []) h2 ?_
      have h3 : (s2.setLatch []).unread = s2.unread := rfl
      have h4 : (s1.setLatch b).unread = s1.unread := rfl
      omega
  · trivial

/-! The steps of an operation, and its run. -/

theorem exec_check_answered (i : Instr) (hp : s.phase = .check) (h : Answers s) :
    answeredStep (fun _ => True) (exec i s) := by
  cases i with
  | dec16 le lim | dec32 le lim | dec8 le lim =>
    exact answeredStep_of_eq (stepDec_check _ le lim hp) (checkDec_answered _ lim h)
  | enc16 le dup | enc32 le dup | enc8 le dup =>
    exact answeredStep_of_eq (stepEnc_check _ le dup hp) (checkEnc_answered _ dup h)
  | splitDec16 le n | splitDec32 le n | splitDec8 le n =>
    exact answeredStep_of_eq (stepSplit_check _ le n hp) (checkSplit_answered _ n h)
  | fname => exact answeredStep_of_eq (execFname_check hp) (checkFname_answered s)
  | chunk => exact answeredStep_of_eq (execChunk_check hp) (checkChunk_answered h)

/-- R244: a RUN step that does not end the operation leaves less of it. -/
theorem exec_run_answered (i : Instr) (hp : s.phase = .run) (h : Answers s) :
    answeredStep (fun t => workLeft i t < workLeft i s) (exec i s) := by
  cases i with
  | dec16 le lim | dec32 le lim | dec8 le lim =>
    exact answeredStep_of_eq (stepDec_run _ le lim hp) (runDec_answered _ le lim h)
  | enc16 le dup | enc32 le dup | enc8 le dup =>
    exact answeredStep_of_eq (stepEnc_run _ le dup hp) (runEnc_answered _ le dup h)
  | splitDec16 le n | splitDec32 le n | splitDec8 le n =>
    exact answeredStep_of_eq (stepSplit_run _ le n hp) (runSplit_answered _ le n h)
  | fname =>
    simp only [exec, execFname, hp]
    exact nofun
  | chunk => exact answeredStep_of_eq (execChunk_run hp) (runChunk_answered h)

/-- The run from `s` comes to a state in which no operation runs, or to a refusal. -/
def ComesToRest (s : State) : Prop := (∃ t, EndsAt s t) ∨ ∃ t r, Steps s t ∧ step t = .refused r

theorem ComesToRest.of_step (h : step s = .next t) : ComesToRest t → ComesToRest s
  | .inl ⟨r, hr⟩ => .inl ⟨r, EndsAt.of_step h hr⟩
  | .inr ⟨r, x, hr, hx⟩ => .inr ⟨r, x, Steps.head h hr, hx⟩

/-- A step of the command after which the operation still runs has kept the command and the host's moves, and the phase is `RUN`. -/
theorem exec_goes_on (hb : s.busy = true) (h : exec i s = .next t) (ht : t.busy = true) :
    t.phase = .run ∧ t.cmd = s.cmd ∧ t.host = s.host := by
  obtain ⟨r, hw, hc⟩ := exec_work i hb h
  have hk := Works.kept hw
  refine ⟨?_, hc.operands.1.trans hk.cmd, exec_host h⟩
  obtain ⟨-, hp⟩ | ⟨-, -, hp⟩ := hc.phase_errcode hk.phase
  · exact hp.resolve_right fun hd => by simp [State.busy, hd] at ht
  · simp [State.busy, hp] at ht

/-- An answered step of the command comes to rest if every state it can go on in does. -/
theorem ComesToRest.of_answered {Q : State → Prop} (hh : s.host = []) (hb : s.busy = true)
    (hd : decode s.cmd = .ok i) (hs : answeredStep Q (exec i s))
    (hgo : ∀ t, t.host = [] → Answers t → t.phase = .run → decode t.cmd = .ok i → Q t → ComesToRest t.note) :
    ComesToRest s := by
  have hstep : step s = noted (exec i s) := by rw [step_quiet hh, transcoderStep_ok hb hd]
  cases he : exec i s with
  | fault f =>
    rw [he] at hs
    exact hs.elim
  | refused x =>
    rw [he] at hstep
    exact .inr ⟨s, x, Steps.refl s, hstep⟩
  | next t =>
    rw [he] at hs hstep
    refine .of_step hstep ?_
    cases ht : t.busy with
    | false => exact .inl ⟨t.note, EndsAt.of_quiet ht⟩
    | true =>
      obtain ⟨hp, hcmd, hhost⟩ := exec_goes_on hb he ht
      obtain ⟨hans, hq⟩ := hs ht
      exact hgo t (hhost.trans hh) hans hp (hcmd ▸ hd) hq

/-- R244: a run ends, since what is left of it falls with every step. -/
theorem ComesToRest.of_run (hh : s.host = []) (h : Answers s) (hp : s.phase = .run) (hd : decode s.cmd = .ok i) :
    ComesToRest s := by
  induction hw : workLeft i s using WellFoundedLT.induction generalizing s with
  | ind w ih =>
    refine .of_answered hh (busy_of_run hp) hd (exec_run_answered i hp h) fun t hht ht hpt hdt hless => ?_
    exact ih _ (hless.trans_eq hw) (s := t.note) hht ht hpt hdt rfl

/-- Settles O59: the CHECK step ends the operation or begins its run, and what is left of the run falls in the order of stages and bytes. -/
theorem everyOperationEnds : Obligations.EveryOperationEnds := by
  intro s hh h
  show ComesToRest s
  cases hb : s.busy with
  | false => exact .inl ⟨s, EndsAt.of_quiet hb⟩
  | true =>
    cases hd : decode s.cmd with
    | error e =>
      have hstep : step s = .next (raise .illcmd .none s).note := by rw [step_quiet hh, transcoderStep_error hb hd]
      exact .of_step hstep (.inl ⟨_, EndsAt.of_quiet rfl⟩)
    | ok i =>
      obtain hp | hp := busy_iff.1 hb
      · exact .of_answered hh hb hd (exec_check_answered i hp h) fun t hht ht hpt hdt _ =>
          .of_run (s := t.note) hht ht hpt hdt
      · exact .of_run hh h hp hd

end Sys2Proof.Machine

/-! The host's reads, refused writes and resets (70_reset_and_hazards.md R231, R236, R237). -/

namespace Sys2Proof.Machine

variable {s : State} {m : HostMove}

theorem whenIdle_busy (hb : s.busy = true) (t : State) : whenIdle s t = .refused .writeWhileBusy := by
  simp [whenIdle, hb]

/-- Settles O8: every move but the five named ones is a write or a binding, made only while `BUSY` = 0. -/
theorem writesWhileBusyRefused : Obligations.WritesWhileBusyRefused := by
  intro s m rest hh hb hwait htick hreset hinside hread
  have hb' : (s.setHost rest).busy = true := hb
  rw [step_hostMove hh hwait htick]
  cases m with
  | writeCmd | writeLimit | writeMaxsize | writeIndex | writeReadOnly | bindIn | bindFiles | bindOut | bindFails =>
    exact whenIdle_busy hb' _
  | writeBase => simp only [hostMove, hb', if_true]
  | wait => exact absurd rfl hwait
  | tick => exact absurd rfl htick
  | reset => exact absurd rfl hreset
  | resetInside => exact absurd rfl (hinside _ _ _)
  | read r => exact absurd rfl (hread r)

/-! Reads. -/

/-- What a read returns does not depend on the moves the host has still to make. -/
theorem State.readReg_setHost (s : State) (rest : List HostMove) (r : Reg) :
    (s.setHost rest).readReg r = s.readReg r := by
  cases r <;> rfl

/-- R236, U6: a read of an unwritten register returns some value. -/
theorem Operand.readWord_unwritten {o : Operand Len} (h : o.isWritten = false) (n : Nat) :
    ∃ v : Len, o.readWord n = .num v.toNat := by
  cases o with
  | unwritten v => exact ⟨_, rfl⟩
  | written v => cases h

/-- R236, R21: a read of an unwritten `BASE` returns some name that `BASE` could hold. -/
theorem Operand.readName_unwritten {o : Operand Name} (h : o.isWritten = false) (n : Nat) :
    ∃ b : Name, b.length ≤ Config.nameMax ∧ o.readName n = .name b := by
  cases o with
  | unwritten v => exact ⟨_, List.length_take_le _ _, rfl⟩
  | written v => cases h

theorem State.glimpse_idle (hb : s.busy = false) : s.glimpse = s.progress := by
  simp [State.glimpse, hb]

/-- R237, U12: while `BUSY` = 1 a read sees a moment the run has passed through. -/
theorem State.glimpse_mem_passed (hb : s.busy = true) (hp : s.passed ≠ []) : s.glimpse ∈ s.passed := by
  have hlt := Nat.mod_lt (Config.freeMoment s.freeCtr) (List.length_pos_iff.2 hp)
  rw [State.glimpse, if_pos hb, List.getElem?_eq_getElem hlt]
  exact List.getElem_mem hlt

/-- Settles O9: a read notes what it returns, which is the register's value, a free one, or one of a moment passed through. -/
theorem readsAllowedInEveryPhase : Obligations.ReadsAllowedInEveryPhase := by
  refine ⟨fun s r rest hh => ?_, fun s => ?_⟩
  · refine ⟨if s.readIsFree r then s.freeCtr + 1 else s.freeCtr, ?_, ?_⟩
    · split
      · exact .inr rfl
      · exact .inl rfl
    · have hfree : (s.setHost rest).readIsFree r = s.readIsFree r := by cases r <;> rfl
      rw [step_hostMove hh nofun nofun]
      simp only [hostMove, State.hostRead, State.readReg_setHost, hfree]
      rfl
  · refine ⟨rfl, rfl, rfl, rfl, rfl, fun v h => ?_, fun v h => ?_, fun v h => ?_, fun b h => ?_,
      fun h => Operand.readWord_unwritten h _, fun h => Operand.readWord_unwritten h _,
      fun h => Operand.readWord_unwritten h _, fun h => Operand.readName_unwritten h _, fun hb => ?_, fun hb hp => ?_⟩
    · simp only [State.readReg, h, Operand.readWord]
    · simp only [State.readReg, h, Operand.readWord]
    · simp only [State.readReg, h, Operand.readWord]
    · simp only [State.readReg, h, Operand.readName]
    · simp only [State.readReg, State.glimpse_idle hb]
      exact ⟨rfl, rfl, rfl, rfl, rfl⟩
    · have hmem := State.glimpse_mem_passed hb hp
      exact ⟨⟨_, hmem, rfl⟩, ⟨_, hmem, rfl⟩, ⟨_, hmem, rfl⟩, ⟨_, hmem, rfl⟩, ⟨_, hmem, rfl⟩⟩

/-! Reset. -/


/-- Settles O11: both resets leave the state of R231, but for the model's own data. -/
theorem resetLeavesResetValues : Obligations.ResetLeavesResetValues := by
  intro s m rest hh hm
  obtain ⟨r, hr⟩ : ∃ r, step s = .next ((s.setHost rest).resetLeaving r) := by
    obtain rfl | ⟨k, l, c, rfl⟩ := hm <;> exact ⟨_, step_hostMove hh nofun nofun⟩
  have hstatus : State.reset.status = 0 := by decide
  have hattr : State.reset.portattr = 0 := by decide
  exact ⟨_, hr, rfl, hstatus, rfl, rfl, rfl, rfl, rfl, rfl, rfl, rfl, rfl, rfl, rfl, rfl, hattr, rfl, rfl, rfl, rfl, rfl,
    rfl, rfl, rfl, rfl, rfl, rfl, rfl, rfl⟩

/-- Settles O57: the reset state is what a reset of it leaves. -/
theorem resetMeetsTheInvariant : Obligations.ResetMeetsTheInvariant :=
  inv_resetLeaving State.reset State.reset

end Sys2Proof.Machine

/-! The refusal of an unwritten operand register (R236, U6). -/

namespace Sys2Proof.Machine

variable {s : State} {m : Mode} {lim : Bool} {n : BitVec 8}

/-- R121: a budget that was asked for and never written. -/
theorem State.decRefusal_unwritten (h : ¬ (lim = true → s.limit.isWritten = true)) :
    s.decRefusal m lim = some .unwrittenRegister := by
  obtain ⟨rfl, hw⟩ := Classical.not_imp.1 h
  cases hl : s.limit with
  | unwritten v => simp [State.decRefusal, State.budgetRefusal, hl]
  | written v => simp [hl] at hw

/-- R162: a split decode with a legal count and no base name. -/
theorem checkSplit_unwritten (hn : n ≠ 0) (h : ¬ s.base.isWritten = true) :
    checkSplit m n s = .refused .unwrittenRegister := by
  cases hb : s.base with
  | unwritten v => simp only [checkSplit, if_neg hn, hb]
  | written b => simp [hb] at h

/-- R181: a chunk operation without a base name or a size. -/
theorem checkChunk_unwritten (h : ¬ (s.base.isWritten = true ∧ s.maxsize.isWritten = true)) :
    checkChunk s = .refused .unwrittenRegister := by
  cases hb : s.base with
  | unwritten v => simp only [checkChunk, hb]
  | written b =>
    cases hm : s.maxsize with
    | unwritten v => simp only [checkChunk, hb, hm]
    | written v => simp [hb, hm] at h

/-- Settles O17: each operation with an operand register tests it before everything else in its CHECK step. -/
theorem unwrittenOperandRefused : Obligations.UnwrittenOperandRefused := by
  intro i s hwf hc h
  cases i with
  | dec16 le lim | dec32 le lim | dec8 le lim =>
    exact (stepDec_check _ le lim hc).trans (checkPorts_refused _ (State.decRefusal_unwritten h))
  | enc16 | enc32 | enc8 => exact absurd trivial h
  | splitDec16 le n | splitDec32 le n | splitDec8 le n =>
    exact (stepSplit_check _ le n hc).trans (checkSplit_unwritten (by simpa [Instr.wf] using hwf) h)
  | fname =>
    refine (execFname_check hc).trans (checkFname_unwritten ?_)
    simpa only [Bool.not_eq_true] using not_and_or.1 h
  | chunk => exact (execChunk_check hc).trans (checkChunk_unwritten h)

end Sys2Proof.Machine

/-! The outcome of an operation under the launch premises (70_reset_and_hazards.md R235). -/

namespace Sys2Proof.Machine

variable {s : State} {i : Instr} {m : Mode} {le lim dup : Bool} {n : BitVec 8}

/-- The operation started in `s` ends with success or with one of the errors 1 to 5. -/
def HasOutcome (i : Instr) (s : State) : Prop :=
  ∃ t, EndsAt (s.start (encode i)) t ∧
    (t.phase = .done ∨ (t.phase = .fail ∧ 1 ≤ t.errcode.toNat ∧ t.errcode.toNat ≤ 5))

/-- R201: every error but `ERR_IO` has a code from 1 to 5. -/
theorem Err.code_of_ne_io {e : Err} (he : e ≠ .io) : 1 ≤ e.code.toNat ∧ e.code.toNat ≤ 5 := by
  cases e with
  | io => exact absurd rfl he
  | illcmd | noseek | minsize | lanelen | divis => decide

/-- An operation whose CHECK step raises an error other than `ERR_IO`. -/
theorem HasOutcome.of_raise {e : Err} {u : Used} {r : State} (hh : s.host = []) (hwf : i.wf = true) (he : e ≠ .io)
    (hstep : exec i (s.start (encode i)) = .next (raise e u r)) : HasOutcome i s :=
  ⟨(raise e u r).note, EndsAt.of_step (by rw [step_start hh hwf, hstep, noted_next]) (EndsAt.of_quiet rfl),
    .inr ⟨rfl, Err.code_of_ne_io he⟩⟩

theorem HasOutcome.of_done {t : State} (h : EndsAt (s.start (encode i)) t) (hp : t.phase = .done) : HasOutcome i s :=
  ⟨t, h, .inl hp⟩

/-- R27: the CMD write leaves the two lanes bound to the streams they were bound to, at their start. -/
theorem lanes_start {l g : InStream} (w : CmdWord) (hl : s.low = .bound l) (hg : s.high = .bound g) :
    (s.start w).low = .bound l.rewind ∧ (s.start w).high = .bound g.rewind := by
  simp [hl, hg, Port.mapBound]

/-- R235: a decode ends with success, or with `ERR_LANELEN` for lanes of different length. -/
theorem HasOutcome.decode (hL : Launch (decodeOp m le lim) s) : HasOutcome (decodeOp m le lim) s := by
  by_cases he : LanesEqual m s
  · obtain ⟨t, hends, hdone, -⟩ := decode_ends hL he
    exact .of_done hends hdone
  · obtain ⟨hm, hne⟩ := Classical.not_imp.1 he
    have hb : s.portsBound (decUsed m) = true := by simpa using hL.portsBound
    obtain ⟨⟨l, hl⟩, g, hg⟩ := decLanes_bound hm hb
    have hlen : l.data.length ≠ g.data.length := by simpa [bytesOf, hl, hg] using hne
    have hseek : l.seek = true ∧ g.seek = true := by
      simpa [seekable_dec_dual hm hl hg] using lanesSeekable_decodeOp.1 hL.lanesSeekable hm
    obtain ⟨hl', hg'⟩ := lanes_start (encode (decodeOp m le lim)) hl hg
    have hp : (s.start (encode (decodeOp m le lim))).portRefusal (decUsed m) = none :=
      State.portRefusal_none (by simpa using hL.noPortAlias) (by simpa using hL.lengthsFit)
    have hcheck := checkDec_unequal (s := s.start _) hm hL.noIOFault hl' hg' hseek.1 hseek.2 hlen
      (operandsWritten_decodeOp (s := s).1 hL.operandsWritten) (budgetAligned_decodeOp (s := s).1 hL.budgetAligned)
      hp (by simpa using hb)
    exact .of_raise (e := .lanelen) hL.hostQuiet (wf_decodeOp m le lim) nofun
      ((exec_decodeOp m le lim _).trans ((stepDec_check m le lim rfl).trans hcheck))

/-- R235: a split decode ends with success, or with `ERR_NOSEEK`, `ERR_LANELEN` or `ERR_DIVIS`. -/
theorem HasOutcome.split (hn : n ≠ 0) (hL : Launch (splitOf m le n) s) : HasOutcome (splitOf m le n) s := by
  have hwf : (splitOf m le n).wf = true := by simpa using hn
  have hw : s.base.isWritten = true := operandsWritten_splitOf.1 hL.operandsWritten
  obtain ⟨b, hbase⟩ := Operand.eq_written hw
  have hb : s.portsBound (splitUsed m) = true := by simpa using hL.portsBound
  have hp : (s.start (encode (splitOf m le n))).portRefusal (splitUsed m) = none :=
    State.portRefusal_none (by simpa using hL.noPortAlias) (by simpa using hL.lengthsFit)
  have hcheck : exec (splitOf m le n) (s.start (encode (splitOf m le n))) =
      checkSplit m n (s.start (encode (splitOf m le n))) := by rw [exec_splitOf, stepSplit_check m le n rfl]
  cases hk : s.seekable (splitUsed m) with
  | false =>
    exact .of_raise (e := .noseek) hL.hostQuiet hwf nofun
      (hcheck.trans (checkSplit_noseek (s := s.start _) hn hbase hp (by simpa using hb) (by simpa using hk)))
  | true =>
    by_cases he : LanesEqual m s
    · by_cases hdiv : splitLength m s % n.toNat = 0
      · obtain ⟨t, hends, hdone, -⟩ := splitWritesTheClosedForm m le n s b hn hL hbase hk he hdiv
        exact .of_done hends hdone
      · have hdivide := checkSplit_passed (s := s.start (encode (splitOf m le n))) hn hbase hp hL.noIOFault
          (by simpa using hb) (by simpa using hk) (by simpa [LanesEqual] using he)
        rw [splitLength_start, splitDivide_indivisible hdiv] at hdivide
        exact .of_raise (e := .divis) hL.hostQuiet hwf nofun (hcheck.trans hdivide)
    · obtain ⟨hm, hne⟩ := Classical.not_imp.1 he
      obtain ⟨rfl, -⟩ | ⟨-, l, g, hl, hg⟩ := splitPorts_cases hb
      · exact absurd rfl hm
      have hlen : l.data.length ≠ g.data.length := by simpa [bytesOf, hl, hg] using hne
      have hseek : l.seek = true ∧ g.seek = true := by
        simpa [State.seekable, usedInputs_split_dual hm hl hg] using hk
      obtain ⟨hl', hg'⟩ := lanes_start (encode (splitOf m le n)) hl hg
      exact .of_raise (e := .lanelen) hL.hostQuiet hwf nofun (hcheck.trans
        (checkSplit_unequal (s := s.start _) hm hL.noIOFault hl' hg' hseek.1 hseek.2
          hlen hn hw hp (by simpa using hb)))

/-- R235: a chunk operation ends with success, or with `ERR_MINSIZE`. -/
theorem HasOutcome.chunk (hL : Launch .chunk s) : HasOutcome .chunk s := by
  obtain ⟨hw, hwm⟩ := hL.operandsWritten
  obtain ⟨b, hbase⟩ := Operand.eq_written hw
  obtain ⟨size, hsize⟩ := Operand.eq_written hwm
  obtain hlt | hge := Nat.lt_or_ge size.toNat 8192
  · have hcheck := checkChunk_of_unrefused (s := s.start (encode .chunk)) hbase hsize
      (by simpa using hL.noFragAlias b size hbase hsize) (by simpa [usedPorts] using hL.lengthsFit)
      (by simpa using portsBound_chunk.1 hL.portsBound)
    rw [if_pos (show size.toNat < Config.minChunkSize from hlt)] at hcheck
    exact .of_raise (e := .minsize) hL.hostQuiet rfl nofun ((execChunk_check (s := s.start _) rfl).trans hcheck)
  · obtain ⟨t, hends, hdone, -⟩ := chunkWritesTheClosedForm s b size hL hbase hsize hge
    exact .of_done hends hdone

/-- R235: `FNAME` ends with success, in its CHECK step. -/
theorem HasOutcome.fname (hL : Launch .fname s) : HasOutcome .fname s := by
  obtain ⟨hw, hwi⟩ := hL.operandsWritten
  obtain ⟨b, hbase⟩ := Operand.eq_written hw
  obtain ⟨v, hindex⟩ := Operand.eq_written hwi
  have hstep := step_start hL.hostQuiet (i := .fname) rfl
  rw [show exec .fname (s.start (encode .fname)) = _ from
    (execFname_check rfl).trans (checkFname_written (s := s.start _) hbase hindex), noted_next] at hstep
  exact .of_done (EndsAt.of_step hstep (EndsAt.of_quiet rfl)) rfl

/-- R235: an encode ends with success. -/
theorem HasOutcome.encode (hL : Launch (encOf m le dup) s) : HasOutcome (encOf m le dup) s := by
  obtain ⟨t, hends, hdone, -⟩ := encode_ends hL
  exact .of_done hends hdone

/-- Settles O60: the checks raise an error other than `ERR_IO`, or the run comes to its closed form. -/
theorem launchPremisesGiveAnOutcome : Obligations.LaunchPremisesGiveAnOutcome := by
  intro i s hwf hL
  cases i with
  | dec16 => exact HasOutcome.decode (m := .w16) hL
  | dec32 => exact HasOutcome.decode (m := .w32) hL
  | dec8 => exact HasOutcome.decode (m := .w8) hL
  | enc16 => exact HasOutcome.encode (m := .w16) hL
  | enc32 => exact HasOutcome.encode (m := .w32) hL
  | enc8 => exact HasOutcome.encode (m := .w8) hL
  | splitDec16 => exact HasOutcome.split (m := .w16) (by simpa [Instr.wf] using hwf) hL
  | splitDec32 => exact HasOutcome.split (m := .w32) (by simpa [Instr.wf] using hwf) hL
  | splitDec8 => exact HasOutcome.split (m := .w8) (by simpa [Instr.wf] using hwf) hL
  | fname => exact HasOutcome.fname hL
  | chunk => exact HasOutcome.chunk hL

end Sys2Proof.Machine
